-- ==== Sys2Proof/Word.lean ====
section
/-! DEFINITION. The data the engine moves: bytes, 32-bit header integers and pixels (00_scope.md rules R9 and R10). -/

namespace Sys2Proof

/-- A *byte*: an 8-bit unsigned integer (R9). -/
abbrev Byte := BitVec 8

/-- A 32-bit unsigned integer: image width and height (R25). -/
abbrev Word32 := BitVec 32

/-- A pixel is an ordered 4-tuple of bytes; equality is exact 4-tuple equality, alpha included (R10, R173). -/
structure Pixel where
  r : Byte
  g : Byte
  b : Byte
  a : Byte
  deriving DecidableEq, Repr

end Sys2Proof
end

