-- ==== Sys2Proof/Config.lean ====
section
/-! DEFINITION. The fixed constants of the architecture (R7), the names the host uses (R25 to R33) and the
implementation parameters the source leaves open (R8). -/

namespace Sys2Proof

/-- The nine host-visible registers (10_state.md rules R25 to R33). -/
inductive HostReg where
  | width | height | channels | colorspace | status | err | cur | pxcnt | cmd
  deriving DecidableEq, Repr

/-- The three commands a host write to `CMD` can give (R33, R260 to R262). -/
inductive Command where
  | encode | decode | abort
  deriving DecidableEq, Repr

/-- `REGMAP` (R8): how the registers appear on a bus, and which number written to `CMD` selects which command (R33).
The spec fixes neither ("not fixed"), so both are data of the model instance. -/
structure RegMap where
  addresses : List (Nat × HostReg)
  commands  : List (Nat × Command)
  deriving DecidableEq, Repr

/-- The implementation parameters of R8, named arguments of the model, fixed for the life of an instance (R37).
`State.params` carries them; no step writes them. -/
structure Params where
  /-- `ENC_DELTA_WRAP`: the encoder's channel differences wrap to 8 bits (R185). -/
  encDeltaWrap    : Bool
  /-- `RUN_CACHE_REFRESH`: the decoder writes `cache[hash(prev)]` on a RUN byte (R228). -/
  runCacheRefresh : Bool
  /-- `STRICT_TRAILER`: the decoder reads and checks the trailer (R147). -/
  strictTrailer   : Bool
  /-- `IRQ_PRESENT`: a completion interrupt output exists (R290). -/
  irqPresent      : Bool
  /-- `REGMAP`. -/
  regmap          : RegMap
  deriving DecidableEq, Repr

namespace Config

/-- The defaults of R8: every Boolean parameter false.
`REGMAP` has no default ("not fixed"): here it maps nothing (log entry 12). -/
def defaultParams : Params :=
  { encDeltaWrap := false, runCacheRefresh := false, strictTrailer := false, irqPresent := false,
    regmap := { addresses := [], commands := [] } }

/-- `CACHE_SLOTS` (R7). -/
abbrev cacheSlots : Nat := 64
/-- `RUN_MAX` (R7). -/
def runMax : Nat := 62
/-- `HDR_LEN` (R7). -/
def hdrLen : Nat := 14
/-- `TRL_LEN` (R7). -/
def trlLen : Nat := 8
/-- `MAGIC`, ASCII "qoif" (R7, R101). -/
def magic : List Byte := [0x71#8, 0x6F#8, 0x69#8, 0x66#8]
/-- `TRAILER`, the end marker (R7, R102, R141). -/
def trailerBytes : List Byte := [0x00#8, 0x00#8, 0x00#8, 0x00#8, 0x00#8, 0x00#8, 0x00#8, 0x01#8]
/-- `PREV_INIT` (R7, R21). -/
def prevInit : Pixel := ⟨0#8, 0#8, 0#8, 255#8⟩
/-- `SLOT_INIT` (R7, R23). -/
def slotInit : Pixel := ⟨0#8, 0#8, 0#8, 0#8⟩
/-- `DIFF_BIAS` (R7). -/
def diffBias : Int := 2
/-- `LUMA_G_BIAS` (R7). -/
def lumaGBias : Int := 32
/-- `LUMA_X_BIAS` (R7). -/
def lumaXBias : Int := 8
/-- `RUN_BIAS` (R7). -/
def runBias : Nat := 1
/-- `TAG_RGB` (R7, R108). -/
def tagRgb : Byte := 0xFE#8
/-- `TAG_RGBA` (R7, R109). -/
def tagRgba : Byte := 0xFF#8

end Config

end Sys2Proof
end

