-- ==== Sys2Proof/Syntax.lean ====
section
/-! DEFINITION. The records of the byte stream, one constructor per row of spec/opcode_table.json, with the operands of
30_encoding.md rule R116: signed operands are mathematical integers, already freed of their bias (R111). -/

namespace Sys2Proof

/-- One record of the byte stream (R100). -/
inductive Instr where
  /-- `RGB r, g, b` (R108). -/
  | rgb (r g b : Byte)
  /-- `RGBA r, g, b, a` (R109). -/
  | rgba (r g b a : Byte)
  /-- `INDEX i`, a cache slot 0..63 (R104). -/
  | index (i : Fin 64)
  /-- `DIFF dr, dg, db`, each in -2..1 (R105). -/
  | diff (dr dg db : Int)
  /-- `LUMA dg, drg, dbg`: dg in -32..31 and the cross-deltas `dr-dg`, `db-dg` in -8..7 (R106, R116). -/
  | luma (dg drg dbg : Int)
  /-- `RUN L`: a run length 1..62 (R107). -/
  | run (len : Nat)
  /-- `HEADER w, h, c, s`: the magic is no operand; the legality of the four fields is the machine's to check (R101, R145). -/
  | header (w h : Word32) (c s : Byte)
  /-- `TRAILER`, without operands (R102). -/
  | trailer
  deriving DecidableEq, Repr

end Sys2Proof
end

