-- ==== Sys2Proof/WellFormed.lean ====
section
/-! DEFINITION. Which instruction terms spell a record: "a line whose operand is out of range spells no record" (30_encoding.md rule
R116). Operands whose type already is their range (bytes, slot numbers, header integers) need no check. -/

namespace Sys2Proof

/-- The range of the three DIFF operands (R105). -/
def inDiffRange (d : Int) : Bool := decide (-2 ≤ d ∧ d ≤ 1)

/-- The range of the LUMA green operand (R106). -/
def inLumaGreenRange (d : Int) : Bool := decide (-32 ≤ d ∧ d ≤ 31)

/-- The range of the two LUMA cross-deltas (R106). -/
def inLumaCrossRange (d : Int) : Bool := decide (-8 ≤ d ∧ d ≤ 7)

/-- The range of a RUN length (R107). -/
def inRunRange (len : Nat) : Bool := decide (1 ≤ len ∧ len ≤ 62)

/-- The operand ranges of R116. -/
def Instr.wellFormed : Instr → Bool
  | .rgb _ _ _ => true
  | .rgba _ _ _ _ => true
  | .index _ => true
  | .diff dr dg db => inDiffRange dr && inDiffRange dg && inDiffRange db
  | .luma dg drg dbg => inLumaGreenRange dg && inLumaCrossRange drg && inLumaCrossRange dbg
  | .run len => inRunRange len
  | .header _ _ _ _ => true
  | .trailer => true

end Sys2Proof
end

