-- ==== Sys2Proof/Decode.lean ====
section
/-! DEFINITION. From bytes to records and back (30_encoding.md). A record's kind is told by its position (the first 14 bytes, the 8
bytes after the body) or, in the body, by its tag byte alone (R100, R103). The encoder stands after the decoder. -/

namespace Sys2Proof

/-- Where in the stream a record stands, which decides between HEADER, the six opcodes and TRAILER (R100). -/
inductive Position where
  | header | body | trailer
  deriving DecidableEq, Repr

/-- Why a byte sequence is no record: the incomplete encodings and the two fixed patterns (R113). -/
inductive DecodeReject where
  /-- fewer than 14 bytes (R144). -/
  | truncatedHeader
  /-- the magic does not match (R145). -/
  | badMagic
  /-- no tag byte (R221). -/
  | truncatedBody
  /-- a payload byte is missing (R221). -/
  | truncatedPayload
  /-- the 8 bytes are not the end marker, or fewer than 8 (R147). -/
  | badTrailer
  deriving DecidableEq, Repr

/-- `be32(v)`: most significant byte first (R11, R63). -/
def be32 (v : Word32) : List Byte :=
  [v.extractLsb' 24 8, v.extractLsb' 16 8, v.extractLsb' 8 8, v.extractLsb' 0 8]

/-- `unbe32`, the inverse of `be32` (R11). -/
def unbe32 (b3 b2 b1 b0 : Byte) : Word32 := b3 ++ b2 ++ b1 ++ b0

/-- `b[hi:lo]` as an unsigned integer, `width` = hi - lo + 1 (R9). -/
def field (b : Byte) (lo width : Nat) : Nat := (b.extractLsb' lo width).toNat

/-- A field with its bias taken off: a signed operand (R111). -/
def unbias (b : Byte) (lo width : Nat) (bias : Int) : Int := (field b lo width : Int) - bias

/-- `len(b1)`: the length of an opcode record from its tag byte (R110). -/
def recordLength (b1 : Byte) : Nat :=
  if b1 = Config.tagRgb then 4
  else if b1 = Config.tagRgba then 5
  else if b1.extractLsb' 6 2 = 0b10#2 then 2
  else 1

/-- The body decoder: full-byte tags before two-bit tags, no tag byte left over (R103, R111, R230). -/
def decodeBody : List Byte → Except DecodeReject (Instr × List Byte)
  | [] => .error .truncatedBody
  | b1 :: rest =>
    if b1 = Config.tagRgb then
      match rest with
      | r :: g :: b :: rest' => .ok (.rgb r g b, rest')
      | _ => .error .truncatedPayload
    else if b1 = Config.tagRgba then
      match rest with
      | r :: g :: b :: a :: rest' => .ok (.rgba r g b a, rest')
      | _ => .error .truncatedPayload
    else if b1.extractLsb' 6 2 = 0b00#2 then
      .ok (.index (b1.extractLsb' 0 6).toFin, rest)
    else if b1.extractLsb' 6 2 = 0b01#2 then
      .ok (.diff (unbias b1 4 2 Config.diffBias) (unbias b1 2 2 Config.diffBias) (unbias b1 0 2 Config.diffBias), rest)
    else if b1.extractLsb' 6 2 = 0b10#2 then
      match rest with
      | b2 :: rest' =>
        .ok (.luma (unbias b1 0 6 Config.lumaGBias) (unbias b2 4 4 Config.lumaXBias) (unbias b2 0 4 Config.lumaXBias), rest')
      | _ => .error .truncatedPayload
    else
      .ok (.run (field b1 0 6 + Config.runBias), rest)

/-- The header decoder: 14 bytes, then the magic; the four fields are operands whatever they hold (R101, R144, R145 check 1). -/
def decodeHeader : List Byte → Except DecodeReject (Instr × List Byte)
  | m0 :: m1 :: m2 :: m3 :: w3 :: w2 :: w1 :: w0 :: h3 :: h2 :: h1 :: h0 :: c :: s :: rest =>
    if [m0, m1, m2, m3] = Config.magic then .ok (.header (unbe32 w3 w2 w1 w0) (unbe32 h3 h2 h1 h0) c s, rest)
    else .error .badMagic
  | _ => .error .truncatedHeader

/-- The trailer decoder: exactly the fixed 8 bytes (R102). -/
def decodeTrailer (bytes : List Byte) : Except DecodeReject (Instr × List Byte) :=
  if bytes.take Config.trlLen = Config.trailerBytes then .ok (.trailer, bytes.drop Config.trlLen) else .error .badTrailer

/-- The decoder: the record at the front of a byte list and the rest of the list, or a named rejection. -/
def decode : Position → List Byte → Except DecodeReject (Instr × List Byte)
  | .header, bytes => decodeHeader bytes
  | .body, bytes => decodeBody bytes
  | .trailer, bytes => decodeTrailer bytes

/-- Where a record of this kind stands (R100). -/
def Instr.position : Instr → Position
  | .rgb _ _ _ => .body
  | .rgba _ _ _ _ => .body
  | .index _ => .body
  | .diff _ _ _ => .body
  | .luma _ _ _ => .body
  | .run _ => .body
  | .header _ _ _ _ => .header
  | .trailer => .trailer

/-- An operand with its bias added, as a byte ready to be placed (R112). -/
def biased (d bias : Int) : Byte := BitVec.ofInt 8 (d + bias)

/-- The bytes of a record (R112 for the six opcodes, R141 for HEADER and TRAILER). -/
def encode : Instr → List Byte
  | .rgb r g b => [Config.tagRgb, r, g, b]
  | .rgba r g b a => [Config.tagRgba, r, g, b, a]
  | .index i => [0x00#8 ||| BitVec.ofNat 8 i.val]
  | .diff dr dg db =>
    [0x40#8 ||| (biased dr Config.diffBias <<< 4) ||| (biased dg Config.diffBias <<< 2) ||| biased db Config.diffBias]
  | .luma dg drg dbg =>
    [0x80#8 ||| biased dg Config.lumaGBias, (biased drg Config.lumaXBias <<< 4) ||| biased dbg Config.lumaXBias]
  | .run len => [0xC0#8 ||| BitVec.ofNat 8 (len - Config.runBias)]
  | .header w h c s => Config.magic ++ be32 w ++ be32 h ++ [c, s]
  | .trailer => Config.trailerBytes

/-- `count` bytes of a number, least significant byte first. -/
def lowByteFirst (count w : Nat) : List Byte :=
  match count with
  | 0 => []
  | n + 1 => BitVec.ofNat 8 w :: lowByteFirst n (w / 256)

/-- The position a row of `nbits` bits has: HEADER is the only row above 8 bytes, TRAILER the only one above 5 (log entry 15). -/
def tablePosition (nbits : Nat) : Position :=
  if 64 < nbits then .header else if 40 < nbits then .trailer else .body

/-- The bytes of a table word, first byte in the lowest bits, zeros above `nbits`.
The rows HEADER and TRAILER print their match as ONE number with the first byte on top; where the first layout spells no record
the word of such a row is laid out that way (log entry 15). -/
def tableBytes (nbits w : Nat) : List Byte :=
  let low := lowByteFirst Config.hdrLen (w % 2 ^ nbits)
  match tablePosition nbits with
  | .body => low
  | .header => match decodeHeader low with
    | .ok _ => low
    | .error _ => (lowByteFirst Config.hdrLen w).reverse
  | .trailer => match decodeTrailer low with
    | .ok _ => low
    | .error _ => (lowByteFirst Config.trlLen w).reverse

/-- The instruction the decoder reads from a word numbered as spec/opcode_table.json numbers it. -/
def decodeTableWord (nbits w : Nat) : Option Instr :=
  match decode (tablePosition nbits) (tableBytes nbits w) with
  | .ok (i, _) => some i
  | .error _ => none

end Sys2Proof
end

