-- ==== Sys2Proof/Machine/State.lean ====
section
/-! DEFINITION. Everything the spec gives the machine, as plain data (10_state.md rule R39), together with what the other agents of
R14 hold at the ports, and the machine after power-on reset (R35, R321). -/

namespace Sys2Proof.Machine

/-- A byte stream held at a port: offset and byte, offsets strictly rising.
What an unlisted offset reads as is `Memory.unlisted` (Machine/Ops.lean). -/
abbrev Memory := List Host.Cell

/-- The document's Codec State: previous pixel, pending run length, 64-slot cache (R20 to R23). -/
structure Codec where
  /-- `prev` (R21). -/
  prev  : Pixel
  /-- `run`, 0..62 inside a step, 0..61 between steps (R22). -/
  run   : Nat
  /-- `cache[0..63]` (R23). -/
  cache : Vector Pixel Config.cacheSlots
  deriving DecidableEq, Repr

/-- The Image Descriptor as the engine's four registers hold it (R25). -/
structure Descriptor where
  width      : Word32
  height     : Word32
  channels   : Byte
  /-- 0 = SRGB, 1 = LINEAR (R25). -/
  colorspace : BitVec 1
  deriving DecidableEq, Repr

/-- The nine pass phases (R30). -/
inductive Phase where
  | idle | eHdr | eBody | eTrl | dHdr | dBody | dTrl | done | err
  deriving DecidableEq, Repr

/-- The direction of the current or last pass (`STATUS.MODE`, R31). -/
inductive Mode where
  | enc | dec
  deriving DecidableEq, Repr

/-- The three error kinds (R280). -/
inductive ErrorKind where
  | formatError | invalidDescriptor | ioError
  deriving DecidableEq, Repr

/-- The complete list of causes (R281), each of one kind. -/
inductive ErrorCause where
  | truncatedHeader | badMagic | badColorspace | truncatedPayload | truncatedBody | badTrailer
  | zeroWidth | zeroHeight | badChannels
  | writer | reader
  deriving DecidableEq, Repr

/-- What the Reader does at one pull: serve it (with the byte at its position, or with its end-of-input signal when there is none)
or report a failure (R67, R284). -/
inductive ReaderAnswer where
  | serve | fail
  deriving DecidableEq, Repr

/-- What the Writer does at one `Emit`: take the whole chunk, or report a failure after appending a prefix of it (R66, R70, R284). -/
inductive WriterAnswer where
  | accept
  | fail (appended : Nat)
  deriving DecidableEq, Repr

/-- What the host, the one agent that gives commands, can do (44_commands.md, R322, R323). -/
inductive HostOp where
  /-- write of a command's value to `CMD` (R260 to R262). -/
  | command (c : Command)
  /-- register write by name (R264). -/
  | write (r : HostReg) (v : Nat)
  /-- register read by name (R264). -/
  | read (r : HostReg)
  /-- register write at a bus address, through `REGMAP` (R8). -/
  | busWrite (address v : Nat)
  /-- register read at a bus address, through `REGMAP` (R8). -/
  | busRead (address : Nat)
  /-- connect a Reader positioned at the first byte of a stream (R323). -/
  | connectReader (bytes : List Byte) (answers : List ReaderAnswer)
  /-- connect a Writer that no other pass uses (R322). -/
  | connectWriter (answers : List WriterAnswer)
  /-- connect a pixel source that offers these pixels (R322). -/
  | connectSource (pixels : List Pixel)
  /-- connect a pixel sink (R323). -/
  | connectSink
  deriving DecidableEq, Repr

/-- Who moves next: one entry of the interleaving of the agents of R14 (R266). -/
inductive Turn where
  /-- the engine takes the step its phase enables, or waits (R13, R292). -/
  | engine
  /-- a port makes the engine wait: a wait changes no state (R66, R292). -/
  | stall
  /-- the host acts (R266). -/
  | host (op : HostOp)
  /-- the pixel source offers one more pixel (R68). -/
  | offer (px : Pixel)
  /-- the pixel sink asks for one more pixel (R69). -/
  | pull
  /-- another agent changes a byte the Reader still holds (R76). -/
  | changeByte (offset : Nat) (v : Byte)
  deriving DecidableEq, Repr

/-- The four ports and the agents behind them (R14, R66 to R69). -/
structure Ports where
  /-- the byte stream the Reader presents, by offset in the Reader (R67). -/
  reader        : Memory
  /-- the Reader's position: how many bytes have been pulled from it (R67, R261). -/
  readerPos     : Nat
  /-- the Reader's coming answers; when the list is used up it serves every pull; end-of-input uses up all of it (R67). -/
  readerAnswers : List ReaderAnswer
  /-- every byte appended to the Writer, by offset in the Writer (R66). -/
  writer        : Memory
  /-- how many bytes have been appended to the Writer. -/
  writerPos     : Nat
  /-- the Writer's coming answers; when the list is used up it accepts every chunk. -/
  writerAnswers : List WriterAnswer
  /-- pixels on offer and not yet accepted, next one first (R68); kept between passes (log entry 23). -/
  source        : List Pixel
  /-- every pixel handed to the sink, oldest first (R69). -/
  sink          : List Pixel
  /-- pulls of the sink not yet answered (R69); kept between passes (log entry 22). -/
  pulls         : Nat
  deriving DecidableEq, Repr

/-- The whole machine (R39), the parameters it was built with (R8) and the other agents (R14). -/
structure State where
  /-- the implementation parameters, fixed for the instance (R8, R37). -/
  params   : Params
  /-- the Codec State (R20). -/
  codec    : Codec
  /-- the host-visible descriptor registers (R25). -/
  desc     : Descriptor
  /-- the descriptor latched by ENCODE (R26). -/
  latched  : Descriptor
  /-- the stream cursor, the engine's program counter (R27). -/
  cur      : Nat
  /-- the pixel counter (R28). -/
  pxcnt    : Nat
  /-- the pixel total (R29). -/
  pxtotal  : Nat
  /-- the pass phase (R30). -/
  phase    : Phase
  /-- the mode of the current or last pass (R31). -/
  mode     : Mode
  /-- `ERR`: none when KIND is 0 (R32). -/
  err      : Option ErrorCause
  /-- the ports. -/
  ports    : Ports
  /-- the last value a register read returned to the host, with the register's name (R264); the model's own field. -/
  hostRead : Option (HostReg × Nat)
  /-- the coming turns of the agents; when the list is used up every turn is the engine's; the model's own field. -/
  turns    : List Turn
  deriving DecidableEq, Repr

/-- Why the machine could stop for good: no reason at all.
The spec's errors are states in phase ERR (R285), "stuck and undefined: the engine has neither" (R292), and every address space
is reached only at a position that exists or answers end-of-input (R60, R67), so no step raises a fault (log entry 16). -/
inductive Fault where
  deriving DecidableEq, Repr

/-- Why a turn has no meaning. -/
inductive Refusal where
  /-- an instruction of the table that has no meaning yet; raised by exec's arms only; safe. -/
  | notModelled (mnemonic : String)
  /-- the host connects another port in the middle of a pass, which the spec assumes it never does ("no move": 70_reset_and_hazards.md
  rule R324, U19 and U30); raised by the host's turn only, never by an instruction; safe (log entry 11). -/
  | reconnectedInPass
  deriving DecidableEq, Repr

/-- The Codec State at pass start, which is also its power-on value (R35, R320). -/
def Codec.initial : Codec :=
  { prev := Config.prevInit, run := 0, cache := Vector.replicate Config.cacheSlots Config.slotInit }

/-- All four descriptor registers zero (R35, R321). -/
def Descriptor.zero : Descriptor := { width := 0#32, height := 0#32, channels := 0#8, colorspace := 0#1 }

/-- Nothing connected, nothing offered, nothing asked for (log entry 2). -/
def Ports.unconnected : Ports :=
  { reader := [], readerPos := 0, readerAnswers := [], writer := [], writerPos := 0, writerAnswers := [],
    source := [], sink := [], pulls := 0 }

/-- Power-on reset (R35, R321), with the default parameters (R8). -/
def State.reset : State :=
  { params := Config.defaultParams, codec := Codec.initial, desc := Descriptor.zero, latched := Descriptor.zero,
    cur := 0, pxcnt := 0, pxtotal := 0, phase := .idle, mode := .enc, err := none,
    ports := Ports.unconnected, hostRead := none, turns := [] }

end Sys2Proof.Machine
end

