-- ==== Sys2Proof/Machine/Flags.lean ====
section
/-! DEFINITION. Every flag the engine has: the STATUS and ERR words, which are functions of other state (10_state.md rules R30 to
R32), and the completion interrupt (60_exceptions.md rule R290). No opcode sets a condition code (R31). -/

namespace Sys2Proof.Machine

/-- The code of a phase (R30). -/
def phaseCode : Phase → BitVec 4
  | .idle => 0#4
  | .eHdr => 1#4
  | .eBody => 2#4
  | .eTrl => 3#4
  | .dHdr => 4#4
  | .dBody => 5#4
  | .dTrl => 6#4
  | .done => 7#4
  | .err => 8#4

/-- `STATUS.BUSY` (R31). -/
def busy (s : State) : Bool :=
  match s.phase with
  | .eHdr | .eBody | .eTrl | .dHdr | .dBody | .dTrl => true
  | .idle | .done | .err => false

/-- `STATUS.DONE` (R31). -/
def doneFlag (s : State) : Bool := decide (s.phase = .done)

/-- `STATUS.ERR` (R31). -/
def errFlag (s : State) : Bool := decide (s.phase = .err)

/-- `STATUS.MODE`: 0 encode, 1 decode (R31). -/
def modeFlag (s : State) : Bool := decide (s.mode = .dec)

/-- `STATUS.HASMORE` (R31). -/
def hasMore (s : State) : Bool := decide (s.phase = .dBody ∧ s.pxcnt < s.pxtotal)

/-- `STATUS.PIXRDY` (R31). -/
def pixelReady (s : State) : Bool := decide (s.phase = .eBody)

/-- The `STATUS` register, bit 31 first (R31). -/
def statusWord (s : State) : Word32 :=
  0#20 ++ phaseCode s.phase ++ 0#2 ++ BitVec.ofBool (pixelReady s) ++ BitVec.ofBool (hasMore s)
    ++ BitVec.ofBool (modeFlag s) ++ BitVec.ofBool (errFlag s) ++ BitVec.ofBool (doneFlag s) ++ BitVec.ofBool (busy s)

/-- The kind of a cause (R281). -/
def causeKind : ErrorCause → ErrorKind
  | .truncatedHeader | .badMagic | .badColorspace | .truncatedPayload | .truncatedBody | .badTrailer => .formatError
  | .zeroWidth | .zeroHeight | .badChannels => .invalidDescriptor
  | .writer | .reader => .ioError

/-- The number of a kind (R32, R281). -/
def kindCode : ErrorKind → BitVec 4
  | .formatError => 1#4
  | .invalidDescriptor => 2#4
  | .ioError => 3#4

/-- The number of a cause within its kind (R281). -/
def causeCode : ErrorCause → BitVec 4
  | .truncatedHeader => 1#4
  | .badMagic => 2#4
  | .badColorspace => 3#4
  | .truncatedPayload => 4#4
  | .truncatedBody => 5#4
  | .badTrailer => 6#4
  | .zeroWidth => 1#4
  | .zeroHeight => 2#4
  | .badChannels => 3#4
  | .writer => 1#4
  | .reader => 2#4

/-- The `ERR` register (R32): CAUSE in bits 7:4, KIND in bits 3:0. -/
def errWord (s : State) : Word32 :=
  match s.err with
  | none => 0#32
  | some c => 0#24 ++ causeCode c ++ kindCode (causeKind c)

/-- The completion interrupt output: absent unless `IRQ_PRESENT`, then `STATUS.DONE or STATUS.ERR` (R290). -/
def irqLine (s : State) : Option Bool :=
  if s.params.irqPresent then some (doneFlag s || errFlag s) else none

end Sys2Proof.Machine
end

