-- ==== Sys2Proof/Machine/Operands.lean ====
section
/-! DEFINITION. Operand forms: the hash that selects a cache slot, the direct slot number, the channel deltas of both directions
(41_cache_controller.md, 42_encoder.md rule R185, 43_decoder.md rule R235). -/

namespace Sys2Proof.Machine

/-- `hash(px) = (r*3 + g*5 + b*7 + a*11) mod 64` (R160). -/
def pixelHash (px : Pixel) : Fin 64 :=
  Fin.ofNat 64 (px.r.toNat * 3 + px.g.toNat * 5 + px.b.toNat * 7 + px.a.toNat * 11)

/-- Direct read: the slot an INDEX record names (R166). -/
def slotAt (i : Fin 64) (c : Codec) : Pixel := c.cache[i]

/-- Hashed lookup: whether the pixel's own slot holds exactly it (R163). -/
def cacheHit (px : Pixel) (c : Codec) : Bool := decide (slotAt (pixelHash px) c = px)

/-- Hashed update: `cache[hash(px)] <- px`, the whole slot (R164). -/
def cacheUpdate (px : Pixel) (c : Codec) : Codec :=
  { c with cache := c.cache.set (pixelHash px).val px (pixelHash px).isLt }

/-- A channel plus a signed delta, mod 256 (R224, R235). -/
def addDelta (channel : Byte) (delta : Int) : Byte := BitVec.ofInt 8 (channel.toNat + delta)

/-- The pixel that lies the three deltas away, alpha unchanged (R224, R225). -/
def shiftPixel (px : Pixel) (dr dg db : Int) : Pixel :=
  { r := addDelta px.r dr, g := addDelta px.g dg, b := addDelta px.b db, a := px.a }

/-- The channel deltas and cross-deltas of one encode step (R185). -/
structure Deltas where
  dr  : Int
  dg  : Int
  db  : Int
  drg : Int
  dbg : Int
  deriving DecidableEq, Repr

/-- `sext_8(v mod 256)` (R9). -/
def wrap8 (v : Int) : Int := (BitVec.ofInt 8 v).toInt

/-- A difference under either setting of `ENC_DELTA_WRAP` (R185). -/
def difference (wrap : Bool) (v : Int) : Int := if wrap then wrap8 v else v

/-- `Deltas(px, prev)` (R185). -/
def deltas (wrap : Bool) (px prev : Pixel) : Deltas :=
  let dr := difference wrap (px.r.toNat - prev.r.toNat)
  let dg := difference wrap (px.g.toNat - prev.g.toNat)
  let db := difference wrap (px.b.toNat - prev.b.toNat)
  { dr := dr, dg := dg, db := db, drg := difference wrap (dr - dg), dbg := difference wrap (db - dg) }

/-- The DIFF range test: all three deltas in -2..1 (R186). -/
def fitsDiff (d : Deltas) : Bool := inDiffRange d.dr && inDiffRange d.dg && inDiffRange d.db

/-- The LUMA range test: dg in -32..31 and both cross-deltas in -8..7 (R187). -/
def fitsLuma (d : Deltas) : Bool := inLumaGreenRange d.dg && inLumaCrossRange d.drg && inLumaCrossRange d.dbg

end Sys2Proof.Machine
end

