-- ==== Sys2Proof/Machine/Ops.lean ====
section
/-! DEFINITION. The named operations over the streams, the Codec State and the registers that the meanings share: one byte of a
stream, `NextByte`, `Emit`, `Yield`, the pass-start reset and the error entry. -/

namespace Sys2Proof.Machine

/-! ### A byte stream at a port -/

/-- What an offset that a stream does not list reads as: no byte, the Reader's end-of-input (R67; log entry 5). -/
def Memory.unlisted : Option Byte := none

/-- One byte of a stream. -/
def Memory.read : Memory → Nat → Option Byte
  | [], _ => Memory.unlisted
  | (a, b) :: m, x => if x = a then some b else Memory.read m x

/-- Write one byte, keeping the offsets rising. -/
def Memory.write : Memory → Nat → Byte → Memory
  | [], x, v => [(x, v)]
  | (a, b) :: m, x, v =>
    if x < a then (x, v) :: (a, b) :: m
    else if x = a then (x, v) :: m
    else (a, b) :: Memory.write m x v

/-- Write consecutive bytes from an offset on. -/
def Memory.writeBytes : Memory → Nat → List Byte → Memory
  | m, _, [] => m
  | m, x, b :: bs => Memory.writeBytes (Memory.write m x b) (x + 1) bs

/-- The stream that holds exactly these bytes from offset 0 on. -/
def Memory.ofBytes (bytes : List Byte) : Memory := Memory.writeBytes [] 0 bytes

/-- The canonical form: offsets strictly rising.
No entry can equal what an unlisted offset reads as, which is no byte. -/
abbrev Memory.wf (m : Memory) : Prop := m.Pairwise (fun x y => x.1 < y.1)

/-! ### The Codec State and the passes -/

/-- Pass-start reset (R320): the Codec State at its initial values, counters 0, `ERR` 0, and the new pass's mode.
DESIGN CHOICE: pulls and pixels that an earlier pass left at the ports stay there for this one (log entries 22 and 23). -/
def passStart (m : Mode) (s : State) : State :=
  { s with err := none, mode := m, cur := 0, pxcnt := 0, pxtotal := 0, codec := Codec.initial }

/-- Error entry (R285): the cause is recorded and the phase is ERR; nothing else changes, nothing is saved, nothing resumes. -/
def raiseError (c : ErrorCause) (s : State) : State := { s with err := some c, phase := .err }

/-- Leaving the error (R287): there is no return from an error; a command ends it, ABORT by going back to IDLE with `ERR` cleared
(R262), ENCODE and DECODE by `passStart`.
DESIGN CHOICE: pulls and pixels still waiting at the ports stay there (log entries 22 and 23). -/
def leaveToIdle (s : State) : State := { s with err := none, phase := .idle }

/-- The descriptor's invariant, checked width first, then height, then channels (R260, R282, R288). -/
def descriptorFault (w h : Word32) (c : Byte) : Option ErrorCause :=
  if w = 0#32 then some .zeroWidth
  else if h = 0#32 then some .zeroHeight
  else if c ≠ 3#8 ∧ c ≠ 4#8 then some .badChannels
  else none

/-- `pxtotal`: width times height, exact (R29). -/
def pixelTotal (w h : Word32) : Nat := w.toNat * h.toNat

/-! ### The Reader port -/

/-- Why a pull delivered no byte (R67). -/
inductive ReaderStop where
  | endOfInput | failed
  deriving DecidableEq, Repr

/-- The result of pulling bytes: all of them, or those before the first pull that delivered none. -/
inductive PullResult where
  | got (bytes : List Byte) (s : State)
  | stopped (why : ReaderStop) (s : State)
  deriving DecidableEq, Repr

/-- The cause a pull's stop raises: `atEnd` at end-of-input, `IOError(READER)` on a failure (R221, R284, R288). -/
def stopCause (atEnd : ErrorCause) : ReaderStop → ErrorCause
  | .endOfInput => atEnd
  | .failed => .reader

/-- The Reader's answer to this pull is used up. -/
def takeReaderAnswer (s : State) : State :=
  { s with ports := { s.ports with readerAnswers := s.ports.readerAnswers.tail } }

/-- A pull that delivers no byte.
A failure uses up its answer; end-of-input uses up all of them, because "every later pull also returns end-of-input" (R67): a used up list
serves every pull, and at the end of the stream there is nothing else to serve. -/
def stopReader (why : ReaderStop) (s : State) : State :=
  { s with ports := { s.ports with
      readerAnswers := match why with
        | .endOfInput => []
        | .failed => s.ports.readerAnswers.tail } }

/-- One byte has been consumed: the Reader's position and `cur` advance by 1 (R12, R67). -/
def advanceReader (s : State) : State :=
  { s with cur := s.cur + 1, ports := { s.ports with readerPos := s.ports.readerPos + 1 } }

/-- `NextByte()` (R12, R67): exactly one of a byte, end-of-input, a failure; once end-of-input has been signalled, always that. -/
def nextByte (s : State) : PullResult :=
  match s.ports.readerAnswers.head? with
  | some .fail => .stopped .failed (stopReader .failed s)
  | _ =>
    match Memory.read s.ports.reader s.ports.readerPos with
    | some b => .got [b] (advanceReader (takeReaderAnswer s))
    | none => .stopped .endOfInput (stopReader .endOfInput s)

/-- `n` times `NextByte()`, stopping at the first pull that delivers no byte (R144, R221). -/
def pullBytes : Nat → State → PullResult
  | 0, s => .got [] s
  | n + 1, s =>
    match nextByte s with
    | .stopped why s1 => .stopped why s1
    | .got b s1 =>
      match pullBytes n s1 with
      | .stopped why s2 => .stopped why s2
      | .got bs s2 => .got (b ++ bs) s2

/-! ### The Writer port -/

/-- The result of emitting chunks: all handed over, or stopped at the first that failed. -/
inductive EmitResult where
  | emitted (s : State)
  | failed (s : State)
  deriving DecidableEq, Repr

/-- The Writer's answer to this chunk is used up. -/
def takeWriterAnswer (s : State) : State :=
  { s with ports := { s.ports with writerAnswers := s.ports.writerAnswers.tail } }

/-- Bytes reach the Writer, after everything it already holds (R66). -/
def appendBytes (bytes : List Byte) (s : State) : State :=
  { s with ports := { s.ports with
      writer := Memory.writeBytes s.ports.writer s.ports.writerPos bytes,
      writerPos := s.ports.writerPos + bytes.length } }

/-- `Emit(L)` (R12, R66): the whole chunk and `cur` advances by its length, or a failure that leaves any prefix appended (R70). -/
def emit (chunk : List Byte) (s : State) : EmitResult :=
  match s.ports.writerAnswers.head? with
  | some (.fail n) => .failed (appendBytes (chunk.take n) (takeWriterAnswer s))
  | _ =>
    let t := appendBytes chunk (takeWriterAnswer s)
    .emitted { t with cur := t.cur + chunk.length }

/-- Emit records one chunk each, in order; the first failing chunk decides (R288(d)). -/
def emitRecords : List Instr → State → EmitResult
  | [], s => .emitted s
  | i :: is, s =>
    match emit (encode i) s with
    | .failed s1 => .failed s1
    | .emitted s1 => emitRecords is s1

/-! ### The pixel ports -/

/-- A pass that has yielded its last pixel leaves D_BODY (R147, R231). -/
def closeDecodeBody (s : State) : State :=
  if s.pxcnt = s.pxtotal then { s with phase := if s.params.strictTrailer then .dTrl else .done } else s

/-- `Yield(p)` and the bookkeeping that ends every decode body step (R12, R220, R231). -/
def yieldPixel (px : Pixel) (s : State) : State :=
  closeDecodeBody { s with pxcnt := s.pxcnt + 1, ports := { s.ports with sink := s.ports.sink ++ [px] } }

/-- The common tail of INDEX, DIFF, LUMA, RGB and RGBA (R229). -/
def reconstruct (px : Pixel) (s : State) : State :=
  yieldPixel px { s with codec := { cacheUpdate px s.codec with prev := px } }

end Sys2Proof.Machine
end

