-- ==== Sys2Proof/Machine/Framing.lean ====
section
/-! DEFINITION. The framing records HEADER and TRAILER (40_framing.md): what the decoder does with them, and the two framing steps of
an encode pass. -/

namespace Sys2Proof.Machine

/-- Header checks 2 to 5 in their order; check 1, the magic, is the decoder's (R145). -/
def headerFault (w h : Word32) (c sp : Byte) : Option ErrorCause :=
  if sp ≠ 0#8 ∧ sp ≠ 1#8 then some .badColorspace else descriptorFault w h c

/-- Header acceptance (R146). -/
def acceptHeader (w h : Word32) (c sp : Byte) (s : State) : State :=
  { s with
    desc := { width := w, height := h, channels := c, colorspace := sp.extractLsb' 0 1 },
    pxtotal := pixelTotal w h,
    phase := .dBody }

/-- HEADER: validate, then accept or raise (R145, R146). -/
def execHeader (w h : Word32) (c sp : Byte) (s : State) : Host.Outcome State Fault Refusal :=
  match headerFault w h c sp with
  | some cause => .next (raiseError cause s)
  | none => .next (acceptHeader w h c sp s)

/-- TRAILER: the pass is done (R147). -/
def execTrailer (s : State) : Host.Outcome State Fault Refusal :=
  .next { s with phase := .done }

/-- The HEADER record of a descriptor (R141, R142). -/
def headerRecord (d : Descriptor) : Instr :=
  .header d.width d.height d.channels (d.colorspace.setWidth 8)

/-- Step E_HDR: emit the header of the latched descriptor, then open the body (R142). -/
def emitHeader (s : State) : State :=
  match emitRecords [headerRecord s.latched] s with
  | .failed t => raiseError .writer t
  | .emitted t => { t with pxtotal := pixelTotal s.latched.width s.latched.height, phase := .eBody }

/-- The RUN record that flushes a pending run, if there is one (R183, R190). -/
def flushRun (run : Nat) : List Instr := if 0 < run then [.run run] else []

/-- Step E_TRL: final flush, then the trailer (R143, R190). -/
def emitTrailer (s : State) : State :=
  match emitRecords (flushRun s.codec.run ++ [.trailer]) s with
  | .failed t => raiseError .writer t
  | .emitted t => { t with codec := { t.codec with run := 0 }, phase := .done }

end Sys2Proof.Machine
end

