-- ==== Sys2Proof/Machine/Opcodes.lean ====
section
/-! DEFINITION. What each of the six opcodes does when the decoder executes it (43_decoder.md), its bytes already pulled. The step
(Machine/Engine.lean) fetches and runs an opcode only in phase D_BODY with no run left (R220). -/

namespace Sys2Proof.Machine

/-- RGB: absolute channels, alpha from `prev` (R226). -/
def execRgb (r g b : Byte) (s : State) : Host.Outcome State Fault Refusal :=
  .next (reconstruct ⟨r, g, b, s.codec.prev.a⟩ s)

/-- RGBA: all four channels from the record (R227). -/
def execRgba (r g b a : Byte) (s : State) : Host.Outcome State Fault Refusal :=
  .next (reconstruct ⟨r, g, b, a⟩ s)

/-- INDEX: the pixel a slot holds, written in this pass or not (R223, R166). -/
def execIndex (i : Fin 64) (s : State) : Host.Outcome State Fault Refusal :=
  .next (reconstruct (slotAt i s.codec) s)

/-- DIFF: `prev` moved by the three deltas (R224). -/
def execDiff (dr dg db : Int) (s : State) : Host.Outcome State Fault Refusal :=
  .next (reconstruct (shiftPixel s.codec.prev dr dg db) s)

/-- LUMA: `dr = dg + drg`, `db = dg + dbg` (R225). -/
def execLuma (dg drg dbg : Int) (s : State) : Host.Outcome State Fault Refusal :=
  .next (reconstruct (shiftPixel s.codec.prev (dg + drg) dg (dg + dbg)) s)

/-- Run re-yield, the action of a decode step with `run > 0` and the second half of RUN (R222). -/
def reYield (s : State) : State :=
  yieldPixel s.codec.prev { s with codec := { s.codec with run := s.codec.run - 1 } }

/-- RUN: the run length is set, the cache refreshed only under `RUN_CACHE_REFRESH`, and the first repeat yielded in the same step
(R228). -/
def execRun (len : Nat) (s : State) : Host.Outcome State Fault Refusal :=
  let codec := if s.params.runCacheRefresh then cacheUpdate s.codec.prev s.codec else s.codec
  .next (reYield { s with codec := { codec with run := len } })

end Sys2Proof.Machine
end

