-- ==== Sys2Proof/Machine/Encoder.lean ====
section
/-! DEFINITION. The encode body step (42_encoder.md): which records one accepted pixel emits and what it does to the Codec State. -/

namespace Sys2Proof.Machine

/-- The record of a pixel that differs from `prev` in colour or alpha and misses the cache: with alpha unchanged DIFF, else LUMA, else
RGB; with alpha changed always RGBA (R185 to R189). -/
def missRecord (wrap : Bool) (px prev : Pixel) : Instr :=
  if px.a = prev.a then
    let d := deltas wrap px prev
    if fitsDiff d then .diff d.dr d.dg d.db
    else if fitsLuma d then .luma d.dg d.drg d.dbg
    else .rgb px.r px.g px.b
  else .rgba px.r px.g px.b px.a

/-- What one pixel emits and leaves in the Codec State (R180): the run counter with its flush at 62 and at the last pixel (R181, R182),
else the flush of a pending run (R183), the cache lookup and its miss path (R184) and the previous-pixel update (R191). -/
def encodeStep (wrap last : Bool) (px : Pixel) (c : Codec) : List Instr × Codec :=
  if px = c.prev then
    if c.run + 1 = Config.runMax ∨ last then ([.run (c.run + 1)], { c with run := 0 })
    else ([], { c with run := c.run + 1 })
  else if cacheHit px c then
    (flushRun c.run ++ [.index (pixelHash px)], { c with run := 0, prev := px })
  else
    (flushRun c.run ++ [missRecord wrap px c.prev], { cacheUpdate px c with run := 0, prev := px })

/-- `TakePixel()`: the next pixel leaves the source (R12, R68). -/
def takePixel (s : State) : State :=
  { s with ports := { s.ports with source := s.ports.source.tail } }

/-- The step's records have been handed over: the Codec State is written and the pixel counted (R192). -/
def pixelEncoded (c : Codec) (s : State) : State :=
  { s with codec := c, pxcnt := s.pxcnt + 1, phase := if s.pxcnt + 1 = s.pxtotal then .eTrl else s.phase }

/-- The encode body step for an accepted pixel (R180); on a Writer failure only the ports show it (R193, R285, R286). -/
def encodePixel (px : Pixel) (s : State) : State :=
  let step := encodeStep s.params.encDeltaWrap (decide (s.pxcnt + 1 = s.pxtotal)) px s.codec
  match emitRecords step.1 (takePixel s) with
  | .failed t => raiseError .writer t
  | .emitted t => pixelEncoded step.2 t

end Sys2Proof.Machine
end

