-- ==== Sys2Proof/Machine/HostPort.lean ====
section
/-! DEFINITION. What the host does to the engine: the commands ENCODE, DECODE and ABORT, the register accesses by name and through
`REGMAP`, and the connection of the ports (44_commands.md, 70_reset_and_hazards.md rules R322 to R324). -/

namespace Sys2Proof.Machine

/-- ENCODE accepted (R260): pass start, latch, then the descriptor check in its order. -/
def startEncode (s : State) : State :=
  let t := { passStart .enc s with latched := s.desc }
  match descriptorFault s.desc.width s.desc.height s.desc.channels with
  | some cause => raiseError cause t
  | none => { t with phase := .eHdr }

/-- DECODE accepted (R261). -/
def startDecode (s : State) : State := { passStart .dec s with phase := .dHdr }

/-- A command write: ENCODE and DECODE only when not BUSY, ABORT always (R260 to R263). -/
def command (c : Command) (s : State) : State :=
  match c with
  | .encode => if busy s then s else startEncode s
  | .decode => if busy s then s else startDecode s
  | .abort => leaveToIdle s

/-- The value a host read returns (R264). -/
def regValue (r : HostReg) (s : State) : Nat :=
  match r with
  | .width => s.desc.width.toNat
  | .height => s.desc.height.toNat
  | .channels => s.desc.channels.toNat
  | .colorspace => s.desc.colorspace.toNat
  | .status => (statusWord s).toNat
  | .err => (errWord s).toNat
  | .cur => s.cur
  | .pxcnt => s.pxcnt
  | .cmd => 0

/-- The first entry a table of numbers has for a number. -/
def lookup {α : Type} : List (Nat × α) → Nat → Option α
  | [], _ => none
  | (k, v) :: rest, x => if x = k then some v else lookup rest x

/-- A host register write (R264): the descriptor registers take the value truncated to their width when not BUSY (R26), `CMD` takes a
command (R33), the others ignore it. -/
def writeReg (r : HostReg) (v : Nat) (s : State) : State :=
  match r with
  | .width => if busy s then s else { s with desc := { s.desc with width := BitVec.ofNat 32 v } }
  | .height => if busy s then s else { s with desc := { s.desc with height := BitVec.ofNat 32 v } }
  | .channels => if busy s then s else { s with desc := { s.desc with channels := BitVec.ofNat 8 v } }
  | .colorspace => if busy s then s else { s with desc := { s.desc with colorspace := BitVec.ofNat 1 v } }
  | .cmd => match lookup s.params.regmap.commands v with
    | some c => command c s
    | none => s
  | .status => s
  | .err => s
  | .cur => s
  | .pxcnt => s

/-- A host register read: the value goes to the host, the engine does not change (R264). -/
def readReg (r : HostReg) (s : State) : State := { s with hostRead := some (r, regValue r s) }

/-- Connect a Reader at the first byte of a stream (R323). -/
def connectReader (bytes : List Byte) (answers : List ReaderAnswer) (s : State) : State :=
  { s with ports := { s.ports with reader := Memory.ofBytes bytes, readerPos := 0, readerAnswers := answers } }

/-- Connect a Writer to which nothing has been appended (R322). -/
def connectWriter (answers : List WriterAnswer) (s : State) : State :=
  { s with ports := { s.ports with writer := [], writerPos := 0, writerAnswers := answers } }

/-- Connect a pixel source (R322). -/
def connectSource (pixels : List Pixel) (s : State) : State :=
  { s with ports := { s.ports with source := pixels } }

/-- Connect a pixel sink (R323). -/
def connectSink (s : State) : State :=
  { s with ports := { s.ports with sink := [], pulls := 0 } }

/-- A port may be connected between passes only (log entry 11). -/
def betweenPasses (s t : State) : Host.Outcome State Fault Refusal :=
  if busy s then .refused .reconnectedInPass else .next t

/-- The host's turn. -/
def hostTurn (op : HostOp) (s : State) : Host.Outcome State Fault Refusal :=
  match op with
  | .command c => .next (command c s)
  | .write r v => .next (writeReg r v s)
  | .read r => .next (readReg r s)
  | .busWrite address v => match lookup s.params.regmap.addresses address with
    | some r => .next (writeReg r v s)
    | none => .next s
  | .busRead address => match lookup s.params.regmap.addresses address with
    | some r => .next (readReg r s)
    | none => .next s
  | .connectReader bytes answers => betweenPasses s (connectReader bytes answers s)
  | .connectWriter answers => betweenPasses s (connectWriter answers s)
  | .connectSource pixels => betweenPasses s (connectSource pixels s)
  | .connectSink => betweenPasses s (connectSink s)

end Sys2Proof.Machine
end

