-- ==== Sys2Proof/Machine/Engine.lean ====
section
/-! DEFINITION. The engine's own turn: what each phase enables (00_scope.md rule R13, 40_framing.md rule R140), with the fetch of a
record's bytes in a decode pass; and the turns of the other agents. -/

namespace Sys2Proof.Machine

/-- The error a rejected record raises (R144, R145, R147, R221). -/
def rejectCause : DecodeReject → ErrorCause
  | .truncatedHeader => .truncatedHeader
  | .badMagic => .badMagic
  | .truncatedBody => .truncatedBody
  | .truncatedPayload => .truncatedPayload
  | .badTrailer => .badTrailer

/-- Run the record these pulled bytes are, or raise why they are none. -/
def runRecord (at_ : Position) (bytes : List Byte) (s : State) : Host.Outcome State Fault Refusal :=
  match decode at_ bytes with
  | .ok (i, _) => exec i s
  | .error why => .next (raiseError (rejectCause why) s)

/-- Step D_HDR: all 14 bytes first, then the header's checks (R144 to R146). -/
def decodeHeaderStep (s : State) : Host.Outcome State Fault Refusal :=
  match pullBytes Config.hdrLen s with
  | .stopped why t => .next (raiseError (stopCause .truncatedHeader why) t)
  | .got bytes t => runRecord .header bytes t

/-- Fetch and run one opcode: the tag byte, then the payload its length calls for (R110, R220, R221). -/
def decodeOpcode (s : State) : Host.Outcome State Fault Refusal :=
  match pullBytes 1 s with
  | .stopped why t => .next (raiseError (stopCause .truncatedBody why) t)
  | .got tag t =>
    match pullBytes (recordLength (tag.headD 0#8) - 1) t with
    | .stopped why u => .next (raiseError (stopCause .truncatedPayload why) u)
    | .got payload u => runRecord .body (tag ++ payload) u

/-- The decode body step: re-yield while a run lasts, else the next opcode (R220, R222). -/
def decodeBodyStep (s : State) : Host.Outcome State Fault Refusal :=
  if 0 < s.codec.run then .next (reYield s) else decodeOpcode s

/-- The sink's pull is being answered (R69). -/
def takePull (s : State) : State := { s with ports := { s.ports with pulls := s.ports.pulls - 1 } }

/-- Pull the trailer byte by byte, stopping at the first that is missing or differs; then run TRAILER (R147). -/
def checkTrailer : List Byte → State → Host.Outcome State Fault Refusal
  | [], s => exec .trailer s
  | expected :: rest, s =>
    match nextByte s with
    | .stopped why t => .next (raiseError (stopCause .badTrailer why) t)
    | .got b t => if b = [expected] then checkTrailer rest t else .next (raiseError .badTrailer t)

/-- The engine's turn: the step its phase enables, or a wait, which changes no state (R13, R30, R140, R292). -/
def engineTurn (s : State) : Host.Outcome State Fault Refusal :=
  match s.phase with
  | .idle => .next s
  | .eHdr => .next (emitHeader s)
  | .eBody => match s.ports.source with
    | [] => .next s
    | px :: _ => .next (encodePixel px s)
  | .eTrl => .next (emitTrailer s)
  | .dHdr => decodeHeaderStep s
  | .dBody => if s.ports.pulls = 0 then .next s else decodeBodyStep (takePull s)
  | .dTrl => checkTrailer Config.trailerBytes s
  | .done => .next s
  | .err => .next s

/-- The source offers a pixel; it stays on offer until a body step accepts it (R68).
DESIGN CHOICE: so also outside E_BODY and past the end of a pass, where the spec says only that it is not accepted (R68, U16): a later
encode pass accepts it (log entry 23). -/
def offerPixel (px : Pixel) (s : State) : State :=
  { s with ports := { s.ports with source := s.ports.source ++ [px] } }

/-- The sink asks for a pixel; the pull waits until a body step answers it (R69).
DESIGN CHOICE: so also where no body step can answer it (outside D_BODY, or still waiting when a pass ends by DONE, ERR or ABORT), of which
the spec says nothing: a later decode pass answers it (log entry 22). -/
def askPixel (s : State) : State := { s with ports := { s.ports with pulls := s.ports.pulls + 1 } }

/-- Another agent changes a byte of the Reader's stream; the stream's length is not its to change: end-of-input is permanent (R67, R76). -/
def changeByte (offset : Nat) (v : Byte) (s : State) : State :=
  match Memory.read s.ports.reader offset with
  | none => s
  | some _ => { s with ports := { s.ports with reader := Memory.write s.ports.reader offset v } }

/-- The turn of the agent named (R14, R266). -/
def takeTurn (t : Turn) (s : State) : Host.Outcome State Fault Refusal :=
  match t with
  | .engine => engineTurn s
  | .stall => .next s
  | .host op => hostTurn op s
  | .offer px => .next (offerPixel px s)
  | .pull => .next (askPixel s)
  | .changeByte offset v => .next (changeByte offset v s)

/-- The next turn: the first of the schedule, or the engine's when the schedule is used up (log entry 1). -/
def nextTurn (s : State) : Host.Outcome State Fault Refusal :=
  match s.turns with
  | [] => engineTurn s
  | t :: rest => takeTurn t { s with turns := rest }

/-- The phase that fetches a record of this position (R100). -/
def fetchPhase : Position → Phase
  | .header => .dHdr
  | .body => .dBody
  | .trailer => .dTrl

/-- The pixel total that keeps a placed record's phase possible: a pixel still due in the body, none after it (R30). -/
def placedTotal (at_ : Position) (s : State) : Nat :=
  match at_ with
  | .header => s.pxtotal
  | .body => max s.pxtotal (s.pxcnt + 1)
  | .trailer => s.pxcnt

/-- Bytes placed where the engine's next fetch of a record of this position finds them: at the Reader's position, served, in the phase
that fetches it (D_TRL exists only under `STRICT_TRAILER`), with a pull waiting and no run left (log entry 15). -/
def placeRecord (at_ : Position) (bytes : List Byte) (s : State) : State :=
  { s with
    mode := .dec,
    phase := fetchPhase at_,
    err := none,
    codec := { s.codec with run := 0 },
    pxtotal := placedTotal at_ s,
    params := { s.params with strictTrailer := s.params.strictTrailer || decide (at_ = .trailer) },
    turns := .engine :: s.turns,
    ports := { s.ports with
      reader := Memory.writeBytes s.ports.reader s.ports.readerPos bytes,
      readerAnswers := [],
      pulls := s.ports.pulls + 1 } }

end Sys2Proof.Machine
end

