-- ==== Sys2Proof/Machine/Step.lean ====
section
/-! DEFINITION. One step of the machine: the next agent's turn. -/

namespace Sys2Proof.Machine

/-- One step (R13, R266). -/
def step (s : State) : Host.Outcome State Fault Refusal := nextTurn s

/-- The state with this table word placed where the next step fetches a record of that row's position. -/
def State.withFetchWord (s : State) (nbits w : Nat) : State :=
  placeRecord (tablePosition nbits) (tableBytes nbits w) s

end Sys2Proof.Machine
end

