-- ==== Sys2Proof/Safety.lean ====
section
/-! DEFINITION. The words in which claims about the engine are made: how a pass ends, what is observed of it, what the ports do, the
invariants that rule out states no run reaches, and the encoder seen from outside. -/

namespace Sys2Proof

open Sys2Proof.Machine

/-! ### How a pass ends, and what is observed -/

/-- A pass has ended successfully exactly when the phase is DONE (R336). -/
def endedWell (s : State) : Prop := s.phase = .done

/-- A pass has ended with an error exactly when the phase is ERR (R18, R285). -/
def endedInError (s : State) : Prop := s.phase = .err

/-- The bytes a stream lists from an offset on, in order. -/
def bytesFrom (offset : Nat) (m : Memory) : List Byte := (m.filter (fun c => decide (offset ≤ c.1))).map (fun c => c.2)

/-- The observation of a pass (R15), of an encode pass and of a decode pass. -/
inductive Observation where
  /-- the bytes appended to the Writer in the pass, in order, with the final STATUS and ERR. -/
  | encode (appended : List Byte) (status error : Word32)
  /-- the descriptor written to the registers (none where the pass accepted no header), the pixels yielded in the pass, in order, and the
  final `cur`, STATUS and ERR. -/
  | decode (written : Option Descriptor) (yielded : List Pixel) (cur : Nat) (status error : Word32)
  deriving DecidableEq, Repr

/-- What is observed of the pass that began at one state and ended at another, the ports connected throughout (R15): what the Writer and
the sink held before the pass is no part of it.
A pass has a pixel total exactly when it has accepted a header (R29, R146). -/
def observe (start finish : State) : Observation :=
  match finish.mode with
  | .enc => .encode (bytesFrom start.ports.writerPos finish.ports.writer) (statusWord finish) (errWord finish)
  | .dec => .decode (if finish.pxtotal = 0 then none else some finish.desc) (finish.ports.sink.drop start.ports.sink.length) finish.cur
      (statusWord finish) (errWord finish)

/-! ### What the ports do -/

/-- The Reader will serve these bytes at the next pulls. -/
def serves (bytes : List Byte) (s : State) : Prop :=
  (∀ a ∈ s.ports.readerAnswers.take bytes.length, a = .serve) ∧
  ∀ k, k < bytes.length → Memory.read s.ports.reader (s.ports.readerPos + k) = bytes[k]?

/-- The Reader will serve these bytes and then signal end-of-input. -/
def servesThenEnds (bytes : List Byte) (s : State) : Prop :=
  serves bytes s ∧ (∀ a ∈ s.ports.readerAnswers.take (bytes.length + 1), a = .serve) ∧
  Memory.read s.ports.reader (s.ports.readerPos + bytes.length) = none

/-- The Reader will serve these bytes and then report a failure. -/
def servesThenFails (bytes : List Byte) (s : State) : Prop :=
  serves bytes s ∧ s.ports.readerAnswers[bytes.length]? = some .fail

/-- The Reader has signalled end-of-input, or can do nothing but signal it: nothing else is left to answer (R67). -/
def readerEnded (s : State) : Prop :=
  s.ports.readerAnswers = [] ∧ Memory.read s.ports.reader s.ports.readerPos = none

/-- The Writer will accept the next `n` chunks. -/
def accepts (n : Nat) (s : State) : Prop := ∀ a ∈ s.ports.writerAnswers.take n, a = .accept

/-- The state after `n` bytes have been pulled: `cur` and the Reader's position `n` further, nothing else changed (R67). -/
def afterPulls (n : Nat) (s : State) : State :=
  { s with cur := s.cur + n,
           ports := { s.ports with readerPos := s.ports.readerPos + n, readerAnswers := s.ports.readerAnswers.drop n } }

/-- The state after bytes have been handed over in `n` chunks: appended after everything the Writer holds, `cur` as many further,
nothing else changed (R66). -/
def afterEmits (n : Nat) (bytes : List Byte) (s : State) : State :=
  { s with cur := s.cur + bytes.length,
           ports := { s.ports with
             writer := Memory.writeBytes s.ports.writer s.ports.writerPos bytes,
             writerPos := s.ports.writerPos + bytes.length,
             writerAnswers := s.ports.writerAnswers.drop n } }

/-- `t` is `s` with one more pixel yielded and the bookkeeping that follows a yield (R231): the sink, `pxcnt` and the phase. -/
structure Yields (px : Pixel) (s t : State) : Prop where
  sink  : t.ports.sink = s.ports.sink ++ [px]
  pxcnt : t.pxcnt = s.pxcnt + 1
  phase : t.phase =
    if s.pxcnt + 1 = s.pxtotal then (if s.params.strictTrailer then .dTrl else .done) else s.phase

/-- Everything an opcode of the body never touches: parameters, descriptor, cursor, totals, mode, error, the host's read value, the
schedule, every byte of both streams and the ports' positions. -/
structure OpcodeFrame (s t : State) : Prop where
  params  : t.params = s.params
  desc    : t.desc = s.desc
  latched : t.latched = s.latched
  cur     : t.cur = s.cur
  pxtotal : t.pxtotal = s.pxtotal
  mode    : t.mode = s.mode
  err     : t.err = s.err
  hostRead : t.hostRead = s.hostRead
  turns   : t.turns = s.turns
  readerBytes : ∀ x, Memory.read t.ports.reader x = Memory.read s.ports.reader x
  writerBytes : ∀ x, Memory.read t.ports.writer x = Memory.read s.ports.writer x
  readerPos : t.ports.readerPos = s.ports.readerPos
  writerPos : t.ports.writerPos = s.ports.writerPos
  readerAnswers : t.ports.readerAnswers = s.ports.readerAnswers
  writerAnswers : t.ports.writerAnswers = s.ports.writerAnswers
  source : t.ports.source = s.ports.source
  pulls : t.ports.pulls = s.ports.pulls

/-! ### Invariants -/

/-- Both streams in canonical form. -/
def StreamsCanonical (s : State) : Prop := Memory.wf s.ports.reader ∧ Memory.wf s.ports.writer

/-- The slot invariant (R168): a slot is untouched or holds a pixel of its own hash. -/
def SlotsHashed (c : Codec) : Prop := ∀ k : Fin 64, slotAt k c = Config.slotInit ∨ pixelHash (slotAt k c) = k

/-- The Codec State between steps: `run` at most 61 (R22) and the slot invariant. -/
structure CodecInv (c : Codec) : Prop where
  run   : c.run ≤ 61
  slots : SlotsHashed c

/-- An encode pass is running. -/
def encoding (s : State) : Prop := s.phase = .eHdr ∨ s.phase = .eBody ∨ s.phase = .eTrl

/-- A decode pass is running. -/
def decoding (s : State) : Prop := s.phase = .dHdr ∨ s.phase = .dBody ∨ s.phase = .dTrl

/-- How phase, mode, error, descriptor and counters hang together between steps (R26 to R32, R35). -/
structure PassInv (s : State) : Prop where
  /-- `ERR` holds an error exactly in phase ERR (R32). -/
  error    : s.err.isSome ↔ s.phase = .err
  /-- the mode is the running pass's (R31). -/
  encMode  : encoding s → s.mode = .enc
  decMode  : decoding s → s.mode = .dec
  /-- before the header nothing has happened (R142, R144). -/
  fresh    : s.phase = .eHdr ∨ s.phase = .dHdr → s.cur = 0 ∧ s.pxcnt = 0 ∧ s.pxtotal = 0 ∧ s.codec = Codec.initial
  /-- in the body a pixel is still due (R180, R220). -/
  body     : s.phase = .eBody ∨ s.phase = .dBody → s.pxcnt < s.pxtotal
  /-- after the body none is (R143, R147, R336). -/
  finished : s.phase = .eTrl ∨ s.phase = .dTrl ∨ s.phase = .done → s.pxcnt = s.pxtotal
  /-- D_TRL exists only under `STRICT_TRAILER` (R30). -/
  strict   : s.phase = .dTrl → s.params.strictTrailer = true
  /-- no run is pending at the trailer (R190). -/
  flushed  : s.phase = .eTrl → s.codec.run = 0
  /-- a running encode pass has a valid latched descriptor (R260). -/
  latched  : encoding s → descriptorFault s.latched.width s.latched.height s.latched.channels = none
  /-- after header acceptance the registers hold a valid descriptor (R146). -/
  accepted : s.phase = .dBody ∨ s.phase = .dTrl → descriptorFault s.desc.width s.desc.height s.desc.channels = none
  /-- the pixel total is the product of the dimensions (R29). -/
  encTotal : s.phase = .eBody ∨ s.phase = .eTrl → s.pxtotal = pixelTotal s.latched.width s.latched.height
  decTotal : s.phase = .dBody ∨ s.phase = .dTrl → s.pxtotal = pixelTotal s.desc.width s.desc.height

/-- A pending run still owes its byte. -/
def owedByte (s : State) : Nat := if s.codec.run = 0 then 0 else 1

/-- How far the counters can have come (R27 to R29, R196). -/
structure CursorInv (s : State) : Prop where
  pixels  : s.pxcnt ≤ s.pxtotal
  total   : s.pxtotal ≤ (2 ^ 32 - 1) * (2 ^ 32 - 1)
  cursor  : s.cur ≤ 22 + 5 * s.pxtotal
  encBody : s.phase = .eBody ∨ s.phase = .eTrl → s.cur + owedByte s ≤ 14 + 5 * s.pxcnt
  decBody : s.phase = .dBody ∨ s.phase = .dTrl → s.cur ≤ 14 + 5 * s.pxcnt

/-- The invariant of the machine. -/
structure Inv (s : State) : Prop where
  streams : StreamsCanonical s
  codec   : CodecInv s.codec
  pass    : PassInv s
  cursor  : CursorInv s

/-! ### The two directions against each other -/

/-- The decoder's cache against the encoder's along a canonical stream: equal, but that a refreshed slot 53 may already hold the
pass-start pixel where the encoder's is untouched (R36, R236(b)). -/
def CachesAgree (enc dec : Codec) : Prop :=
  ∀ k : Fin 64, slotAt k dec = slotAt k enc ∨
    (k = pixelHash Config.prevInit ∧ slotAt k enc = Config.slotInit ∧ slotAt k dec = Config.prevInit)

/-- The records the encoder emits for a list of pixels, the last of which is the last of the image (R180). -/
def bodyRecords (wrap : Bool) : Codec → List Pixel → List Instr
  | _, [] => []
  | c, px :: rest =>
    let step := encodeStep wrap rest.isEmpty px c
    step.1 ++ bodyRecords wrap step.2 rest

/-- The encoder's Codec State after these pixels, none of which is the last of the image (R180). -/
def codecAfter (wrap : Bool) : Codec → List Pixel → Codec
  | c, [] => c
  | c, px :: rest => codecAfter wrap (encodeStep wrap false px c).2 rest

/-- The bytes of records back to back (R62). -/
def bytesOf (records : List Instr) : List Byte := records.flatMap encode

/-- The whole stream of an image: `HeaderBytes ++ body ++ TrailerBytes` (R204). -/
def canonicalStream (wrap : Bool) (d : Descriptor) (pixels : List Pixel) : List Byte :=
  encode (headerRecord d) ++ bytesOf (bodyRecords wrap Codec.initial pixels) ++ encode .trailer

/-- A legal descriptor with exactly the pixels it calls for (R25, R68). -/
def validImage (d : Descriptor) (pixels : List Pixel) : Prop :=
  descriptorFault d.width d.height d.channels = none ∧ pixels.length = pixelTotal d.width d.height

/-- An engine with these parameters, its descriptor written, a Writer that answers so and this source connected, about to take ENCODE
(R322).
The pixels are on offer before the command (log entry 23) and every later turn is the engine's (log entry 1). -/
def encodeLaunch (p : Params) (d : Descriptor) (answers : List WriterAnswer) (pixels : List Pixel) : State :=
  { State.reset with
    params := p, desc := d, turns := [.host (.command .encode)],
    ports := { Ports.unconnected with source := pixels, writerAnswers := answers } }

/-- An engine with these parameters, a Reader of these bytes that answers so and a sink that asks for `n` pixels connected, about to take
DECODE (R323).
The pulls wait from before the command (log entry 22) and every later turn is the engine's (log entry 1). -/
def decodeLaunch (p : Params) (bytes : List Byte) (answers : List ReaderAnswer) (n : Nat) : State :=
  { State.reset with
    params := p, turns := [.host (.command .decode)],
    ports := { Ports.unconnected with reader := Memory.ofBytes bytes, readerAnswers := answers, pulls := n } }

/-! ### Outcomes -/

/-- A step's next state, if it answers one. -/
def nextOf {φ ρ : Type} (o : Host.Outcome State φ ρ) : Option State :=
  match o with
  | .next s => some s
  | .fault _ => none
  | .refused _ => none

/-- The same outcome with its next state changed. -/
def mapNext {φ ρ : Type} (f : State → State) (o : Host.Outcome State φ ρ) : Host.Outcome State φ ρ :=
  match o with
  | .next s => .next (f s)
  | .fault r => .fault r
  | .refused r => .refused r

end Sys2Proof
end

