-- ==== Sys2Proof/Certificates/Slice0/Obligations.lean ====
section
/-! DEFINITION. The statements for the provers. Each docstring names the rule of spec/ it formalises. -/

open Sys2Proof Sys2Proof.Machine

/-! ### Encoding -/

/-- R112 with R111, R101, R102: no bit of an encoding is dropped, for every well-formed record and whatever follows it. -/
def Obligations.DecodeOfEncodeIsIdentity : Prop :=
  ∀ (i : Instr) (rest : List Byte), i.wellFormed = true → decode i.position (encode i ++ rest) = .ok (i, rest)

/-- R103, R111, R112: what the decoder accepts is a well-formed record of its position, and exactly its bytes. -/
def Obligations.EncodeOfDecodeIsIdentity : Prop :=
  ∀ (p : Position) (bytes rest : List Byte) (i : Instr), decode p bytes = .ok (i, rest) →
    i.wellFormed = true ∧ i.position = p ∧ encode i ++ rest = bytes

/-- R112: the bytes of the six opcodes as numbers, and decoding them returns the operands. -/
def Obligations.EncodedBytesFollowTheTable : Prop :=
  (∀ i : Fin 64, (encode (.index i)).map BitVec.toNat = [i.val]) ∧
  (∀ dr dg db : Int, (Instr.diff dr dg db).wellFormed = true →
    (encode (.diff dr dg db)).map (fun b => (b.toNat : Int)) = [0x40 + (dr + 2) * 16 + (dg + 2) * 4 + (db + 2)]) ∧
  (∀ dg drg dbg : Int, (Instr.luma dg drg dbg).wellFormed = true →
    (encode (.luma dg drg dbg)).map (fun b => (b.toNat : Int)) = [0x80 + (dg + 32), (drg + 8) * 16 + (dbg + 8)]) ∧
  (∀ len : Nat, (Instr.run len).wellFormed = true → (encode (.run len)).map BitVec.toNat = [0xC0 + (len - 1)]) ∧
  (∀ r g b : Byte, encode (.rgb r g b) = [0xFE#8, r, g, b]) ∧
  (∀ r g b a : Byte, encode (.rgba r g b a) = [0xFF#8, r, g, b, a]) ∧
  (∀ i : Instr, i.wellFormed = true → i.position = .body → decode .body (encode i) = .ok (i, []))

/-- R103: the complete map of the 256 tag bytes, with the operands each opcode's fields hold. -/
def Obligations.EveryTagByteSelectsOneOpcode : Prop :=
  ∀ (b1 b2 b3 b4 b5 : Byte) (rest : List Byte),
    decode .body (b1 :: b2 :: b3 :: b4 :: b5 :: rest) = .ok (
      if b1.toNat ≤ 0x3F then (.index (Fin.ofNat 64 b1.toNat), b2 :: b3 :: b4 :: b5 :: rest)
      else if b1.toNat ≤ 0x7F then
        (.diff ((b1.toNat / 16 % 4 : Nat) - 2 : Int) ((b1.toNat / 4 % 4 : Nat) - 2 : Int) ((b1.toNat % 4 : Nat) - 2 : Int),
          b2 :: b3 :: b4 :: b5 :: rest)
      else if b1.toNat ≤ 0xBF then
        (.luma ((b1.toNat % 64 : Nat) - 32 : Int) ((b2.toNat / 16 : Nat) - 8 : Int) ((b2.toNat % 16 : Nat) - 8 : Int),
          b3 :: b4 :: b5 :: rest)
      else if b1.toNat ≤ 0xFD then (.run (b1.toNat - 0xC0 + 1), b2 :: b3 :: b4 :: b5 :: rest)
      else if b1.toNat = 0xFE then (.rgb b2 b3 b4, b5 :: rest)
      else (.rgba b2 b3 b4 b5, rest))

/-- R113: in the body the only encodings that are rejected are incomplete ones, each by its own name. -/
def Obligations.OnlyIncompleteRecordsAreRejected : Prop :=
  ∀ (bytes : List Byte) (why : DecodeReject), decode .body bytes = .error why ↔
    (bytes = [] ∧ why = .truncatedBody) ∨
    (∃ b1 p, bytes = b1 :: p ∧ bytes.length < recordLength b1 ∧ why = .truncatedPayload)

/-- 95_test_vectors.md sections 1, 2.4 and P1: words of every family, written out from the spec's encodings, decode to what they stand for. -/
def Obligations.SpecWordsDecode : Prop :=
  decode .body [0x79#8] = .ok (.diff 1 0 (-1), []) ∧
  decode .body [0xAA#8, 0x88#8] = .ok (.luma 10 0 0, []) ∧
  decode .body [0x0B#8] = .ok (.index 11, []) ∧
  decode .body [0xFD#8] = .ok (.run 62, []) ∧
  decode .body [0xFE#8, 0x01#8, 0x02#8, 0x03#8] = .ok (.rgb 1 2 3, []) ∧
  decode .body [0xFF#8, 0xC8#8, 0x64#8, 0x32#8, 0x80#8] = .ok (.rgba 200 100 50 128, []) ∧
  decode .header [0x71#8, 0x6F#8, 0x69#8, 0x66#8, 0#8, 0#8, 0#8, 4#8, 0#8, 0#8, 0#8, 1#8, 4#8, 0#8] = .ok (.header 4 1 4 0, []) ∧
  decode .trailer [0#8, 0#8, 0#8, 0#8, 0#8, 0#8, 0#8, 1#8] = .ok (.trailer, [])

/-- R11, R63: `be32` is most significant byte first and `unbe32` is its inverse. -/
def Obligations.HeaderIntegersAreBigEndian : Prop :=
  (∀ v : Word32, (be32 v).map BitVec.toNat =
    [v.toNat / 2 ^ 24, v.toNat / 2 ^ 16 % 256, v.toNat / 2 ^ 8 % 256, v.toNat % 256]) ∧
  (∀ v : Word32, be32 v = [v.extractLsb' 24 8, v.extractLsb' 16 8, v.extractLsb' 8 8, v.extractLsb' 0 8] ∧
    unbe32 (v.extractLsb' 24 8) (v.extractLsb' 16 8) (v.extractLsb' 8 8) (v.extractLsb' 0 8) = v) ∧
  (∀ b3 b2 b1 b0 : Byte, be32 (unbe32 b3 b2 b1 b0) = [b3, b2, b1, b0])

/-! ### Cache controller -/

/-- R160: the hash is the weighted sum mod 64, which is the low six bits of an exact 13-bit sum. -/
def Obligations.HashIsWeightedSumMod64 : Prop :=
  ∀ px : Pixel,
    (pixelHash px).val = (px.r.toNat * 3 + px.g.toNat * 5 + px.b.toNat * 7 + px.a.toNat * 11) % 64 ∧
    px.r.toNat * 3 + px.g.toNat * 5 + px.b.toNat * 7 + px.a.toNat * 11 ≤ 6630 ∧
    (pixelHash px).val =
      ((BitVec.ofNat 13 (3 * px.r.toNat + 5 * px.g.toNat + 7 * px.b.toNat + 11 * px.a.toNat)).extractLsb' 0 6).toNat

/-- R162: the hash depends only on the low six bits of each channel; and the rule's reference values. -/
def Obligations.HashIgnoresTheTopTwoBits : Prop :=
  (∀ p q : Pixel, p.r.toNat % 64 = q.r.toNat % 64 → p.g.toNat % 64 = q.g.toNat % 64 →
    p.b.toNat % 64 = q.b.toNat % 64 → p.a.toNat % 64 = q.a.toNat % 64 → pixelHash p = pixelHash q) ∧
  pixelHash ⟨0, 0, 0, 0⟩ = 0 ∧ pixelHash ⟨0, 0, 0, 255⟩ = 53 ∧ pixelHash ⟨255, 255, 255, 255⟩ = 38 ∧ pixelHash ⟨10, 10, 10, 255⟩ = 11 ∧
  pixelHash ⟨11, 10, 9, 255⟩ = 7 ∧ pixelHash ⟨128, 0, 0, 255⟩ = 53 ∧ pixelHash ⟨64, 0, 0, 255⟩ = 53 ∧ pixelHash ⟨1, 2, 3, 4⟩ = 14 ∧
  pixelHash ⟨200, 100, 50, 128⟩ = 42

/-- R168: at reset and after every step every slot is untouched or holds a pixel of its own hash, so INDEX yields one of the two. -/
def Obligations.SlotInvariantHoldsAtEveryStep : Prop :=
  SlotsHashed State.reset.codec ∧
  (∀ s t : State, SlotsHashed s.codec → step s = .next t → SlotsHashed t.codec) ∧
  (∀ (i : Fin 64) (s t : State), SlotsHashed s.codec → exec (.index i) s = .next t →
    t.codec.prev = ⟨0, 0, 0, 0⟩ ∨ pixelHash t.codec.prev = i)

/-- R169: INDEX of an untouched slot other than 0 clears slot 0 and leaves its own slot untouched; otherwise INDEX changes no slot. -/
def Obligations.IndexOfUntouchedSlotEvictsSlotZero : Prop :=
  ∀ (i : Fin 64) (s : State), SlotsHashed s.codec → ∃ t, exec (.index i) s = .next t ∧
    (i ≠ 0 → slotAt i s.codec = ⟨0, 0, 0, 0⟩ →
      t.codec.prev = ⟨0, 0, 0, 0⟩ ∧ slotAt 0 t.codec = ⟨0, 0, 0, 0⟩ ∧ slotAt i t.codec = ⟨0, 0, 0, 0⟩ ∧
      ∀ k : Fin 64, k ≠ 0 → slotAt k t.codec = slotAt k s.codec) ∧
    (i = 0 ∨ slotAt i s.codec ≠ ⟨0, 0, 0, 0⟩ → ∀ k : Fin 64, slotAt k t.codec = slotAt k s.codec)

/-- R170: once Y, of the same hash, has taken X's slot and X has not come back, X when it recurs is not emitted as INDEX (nor as RUN) but
as one of the other four opcodes, and takes the slot back from Y. -/
def Obligations.EvictedPixelIsNotIndexed : Prop :=
  ∀ (wrap last : Bool) (x y : Pixel) (c : Codec) (between : List Pixel), pixelHash y = pixelHash x → y ≠ x → y ≠ c.prev →
    x ∉ between →
    let d := codecAfter wrap c (y :: between)
    ∃ i, (encodeStep wrap last x d).1 = (if d.run = 0 then [] else [.run d.run]) ++ [i] ∧
      (∀ k : Fin 64, i ≠ .index k) ∧ (∀ n : Nat, i ≠ .run n) ∧
      slotAt (pixelHash x) (encodeStep wrap last x d).2 = x

/-! ### Invariants of the machine -/

/-- R321, R35: power-on reset meets the whole invariant.
That the ports hold nothing at reset is the model's choice (log entry 2). -/
def Obligations.ResetSatisfiesTheInvariant : Prop := Inv State.reset

/-- R22, R26 to R32, R35, R168, R190, R196: every step of every agent keeps the whole invariant. -/
def Obligations.EveryStepKeepsTheInvariant : Prop :=
  ∀ s t : State, Inv s → step s = .next t → Inv t

/-- R27 to R29: the counters, kept as unbounded naturals, always fit the widths the spec gives their registers.
That the counters are unbounded naturals is the model's choice (log entry 14). -/
def Obligations.CountersFitTheirRegisters : Prop :=
  ∀ s : State, Inv s → s.cur < 2 ^ 67 ∧ s.pxcnt < 2 ^ 64 ∧ s.pxtotal < 2 ^ 64

/-- R8, R37: the implementation parameters are fixed for the life of the instance.
That the parameters stand in the state is the model's choice (log entry 3). -/
def Obligations.NoStepChangesTheParameters : Prop :=
  ∀ s t : State, step s = .next t → t.params = s.params

/-! ### Reset, commands, registers -/

/-- R321: the power-on values, and that nothing is fetched until a DECODE command. -/
def Obligations.PowerOnResetValues : Prop :=
  State.reset.phase = .idle ∧ statusWord State.reset = 0#32 ∧ errWord State.reset = 0#32 ∧
  State.reset.desc = ⟨0, 0, 0, 0⟩ ∧ State.reset.cur = 0 ∧ State.reset.pxcnt = 0 ∧ State.reset.pxtotal = 0 ∧
  State.reset.codec.prev = ⟨0, 0, 0, 255⟩ ∧ State.reset.codec.run = 0 ∧
  (∀ k : Fin 64, slotAt k State.reset.codec = ⟨0, 0, 0, 0⟩) ∧
  engineTurn State.reset = .next State.reset

/-- R260: ENCODE resets the pass, latches the descriptor and checks width, height, channels in that order; ignored while BUSY.
That pulls and pixels waiting at the ports stay is the model's choice (log entries 22 and 23). -/
def Obligations.EncodeCommandStartsOrRefusesAPass : Prop :=
  ∀ s : State,
    (busy s = true → hostTurn (.command .encode) s = .next s) ∧
    (busy s = false → ∃ t, hostTurn (.command .encode) s = .next t ∧
      t.mode = .enc ∧ t.cur = 0 ∧ t.pxcnt = 0 ∧ t.pxtotal = 0 ∧ t.codec.prev = ⟨0, 0, 0, 255⟩ ∧ t.codec.run = 0 ∧
      (∀ k : Fin 64, slotAt k t.codec = ⟨0, 0, 0, 0⟩) ∧ t.latched = s.desc ∧
      t.desc = s.desc ∧ t.ports = s.ports ∧ t.params = s.params ∧ t.hostRead = s.hostRead ∧ t.turns = s.turns ∧
      (if s.desc.width = 0 then t.phase = .err ∧ t.err = some .zeroWidth
       else if s.desc.height = 0 then t.phase = .err ∧ t.err = some .zeroHeight
       else if s.desc.channels ≠ 3 ∧ s.desc.channels ≠ 4 then t.phase = .err ∧ t.err = some .badChannels
       else t.phase = .eHdr ∧ t.err = none))

/-- R261: DECODE resets the pass and leaves the descriptor registers; ignored while BUSY.
That pulls and pixels waiting at the ports stay is the model's choice (log entries 22 and 23). -/
def Obligations.DecodeCommandStartsAPass : Prop :=
  ∀ s : State,
    (busy s = true → hostTurn (.command .decode) s = .next s) ∧
    (busy s = false → ∃ t, hostTurn (.command .decode) s = .next t ∧
      t.err = none ∧ t.mode = .dec ∧ t.cur = 0 ∧ t.pxcnt = 0 ∧ t.pxtotal = 0 ∧
      t.codec.prev = ⟨0, 0, 0, 255⟩ ∧ t.codec.run = 0 ∧ (∀ k : Fin 64, slotAt k t.codec = ⟨0, 0, 0, 0⟩) ∧
      t.phase = .dHdr ∧ t.desc = s.desc ∧ t.latched = s.latched ∧ t.ports = s.ports ∧ t.params = s.params ∧
      t.hostRead = s.hostRead ∧ t.turns = s.turns)

/-- R262: ABORT goes to IDLE and clears ERR in any phase, and changes nothing else: no byte, no pixel, no counter.
That pulls and pixels waiting at the ports stay is the model's choice (log entries 22 and 23). -/
def Obligations.AbortReturnsToIdle : Prop :=
  ∀ s : State, hostTurn (.command .abort) s = .next { s with phase := .idle, err := none }

/-- R263: ENCODE and DECODE are accepted only when not BUSY, ABORT always, and the only way the host ends a pass early is ABORT.
That pulls and pixels waiting at the ports stay is the model's choice (log entries 22 and 23). -/
def Obligations.CommandsAreAcceptedOnlyBetweenPasses : Prop :=
  (∀ s : State, busy s = true →
    hostTurn (.command .encode) s = .next s ∧ hostTurn (.command .decode) s = .next s) ∧
  (∀ s : State, busy s = false → ∃ t u,
    hostTurn (.command .encode) s = .next t ∧ t.mode = .enc ∧ t.phase ≠ .idle ∧ t.phase ≠ .done ∧
    hostTurn (.command .decode) s = .next u ∧ u.mode = .dec ∧ u.phase = .dHdr) ∧
  (∀ s : State, ∃ t, hostTurn (.command .abort) s = .next t ∧ t.phase = .idle) ∧
  (∀ (op : HostOp) (s t : State), busy s = true → hostTurn op s = .next t → busy t = false →
    t = { s with phase := .idle, err := none })

/-- R264, R33, R8: what a host read returns and that it has no other effect; which writes store, truncated; which are ignored; what a
write to CMD selects; and that an access at a bus address is the access to the register `REGMAP` gives it.
The field that holds what the host has read is the model's own (log entry 18), and so is that an unmapped address and an unlisted command
value change nothing (log entry 12). -/
def Obligations.HostRegisterAccess : Prop :=
  (∀ (r : HostReg) (s : State), hostTurn (.read r) s = .next { s with hostRead := some (r,
    match r with
    | .width => s.desc.width.toNat
    | .height => s.desc.height.toNat
    | .channels => s.desc.channels.toNat
    | .colorspace => s.desc.colorspace.toNat
    | .status => (statusWord s).toNat
    | .err => (errWord s).toNat
    | .cur => s.cur
    | .pxcnt => s.pxcnt
    | .cmd => 0) }) ∧
  (∀ (v : Nat) (s : State), busy s = false → ∃ tw th tc ts,
    hostTurn (.write .width v) s = .next tw ∧ tw.desc.width.toNat = v % 2 ^ 32 ∧
      tw = { s with desc := { s.desc with width := tw.desc.width } } ∧
    hostTurn (.write .height v) s = .next th ∧ th.desc.height.toNat = v % 2 ^ 32 ∧
      th = { s with desc := { s.desc with height := th.desc.height } } ∧
    hostTurn (.write .channels v) s = .next tc ∧ tc.desc.channels.toNat = v % 2 ^ 8 ∧
      tc = { s with desc := { s.desc with channels := tc.desc.channels } } ∧
    hostTurn (.write .colorspace v) s = .next ts ∧ ts.desc.colorspace.toNat = v % 2 ∧
      ts = { s with desc := { s.desc with colorspace := ts.desc.colorspace } }) ∧
  (∀ (v : Nat) (s : State), busy s = true →
    hostTurn (.write .width v) s = .next s ∧ hostTurn (.write .height v) s = .next s ∧
    hostTurn (.write .channels v) s = .next s ∧ hostTurn (.write .colorspace v) s = .next s) ∧
  (∀ (v : Nat) (s : State),
    hostTurn (.write .status v) s = .next s ∧ hostTurn (.write .err v) s = .next s ∧
    hostTurn (.write .cur v) s = .next s ∧ hostTurn (.write .pxcnt v) s = .next s) ∧
  (∀ (v : Nat) (s : State), hostTurn (.write .cmd v) s = (match lookup s.params.regmap.commands v with
    | some c => hostTurn (.command c) s
    | none => .next s)) ∧
  (∀ (address v : Nat) (s : State),
    hostTurn (.busWrite address v) s = (match lookup s.params.regmap.addresses address with
      | some r => hostTurn (.write r v) s
      | none => .next s) ∧
    hostTurn (.busRead address) s = (match lookup s.params.regmap.addresses address with
      | some r => hostTurn (.read r) s
      | none => .next s))

/-- R31: every bit of STATUS. -/
def Obligations.StatusWordBits : Prop :=
  ∀ s : State,
    ((statusWord s).getLsbD 0 = true ↔ s.phase = .eHdr ∨ s.phase = .eBody ∨ s.phase = .eTrl ∨
      s.phase = .dHdr ∨ s.phase = .dBody ∨ s.phase = .dTrl) ∧
    ((statusWord s).getLsbD 1 = true ↔ s.phase = .done) ∧
    ((statusWord s).getLsbD 2 = true ↔ s.phase = .err) ∧
    ((statusWord s).getLsbD 3 = true ↔ s.mode = .dec) ∧
    ((statusWord s).getLsbD 4 = true ↔ s.phase = .dBody ∧ s.pxcnt < s.pxtotal) ∧
    ((statusWord s).getLsbD 5 = true ↔ s.phase = .eBody) ∧
    (statusWord s).extractLsb' 6 2 = 0#2 ∧
    ((statusWord s).extractLsb' 8 4).toNat = (match s.phase with
      | .idle => 0 | .eHdr => 1 | .eBody => 2 | .eTrl => 3 | .dHdr => 4 | .dBody => 5 | .dTrl => 6 | .done => 7 | .err => 8) ∧
    (statusWord s).extractLsb' 12 20 = 0#20

/-- R32, R281: the fields of ERR, and that ERR, CUR and PXCNT stand still from the error until the next command. -/
def Obligations.ErrRegisterIsStickyAndCoded : Prop :=
  (∀ s : State, s.err = none → errWord s = 0#32) ∧
  (∀ (s : State) (c : ErrorCause), s.err = some c →
    ((errWord s).extractLsb' 0 4).toNat = (match c with
      | .truncatedHeader | .badMagic | .badColorspace | .truncatedPayload | .truncatedBody | .badTrailer => 1
      | .zeroWidth | .zeroHeight | .badChannels => 2
      | .writer | .reader => 3) ∧
    ((errWord s).extractLsb' 4 4).toNat = (match c with
      | .truncatedHeader => 1 | .badMagic => 2 | .badColorspace => 3 | .truncatedPayload => 4 | .truncatedBody => 5
      | .badTrailer => 6 | .zeroWidth => 1 | .zeroHeight => 2 | .badChannels => 3 | .writer => 1 | .reader => 2) ∧
    (errWord s).extractLsb' 8 24 = 0#24) ∧
  (∀ s t : State, s.phase = .err → step s = .next t →
    (∀ c, s.turns.head? ≠ some (.host (.command c))) → (∀ v, s.turns.head? ≠ some (.host (.write .cmd v))) →
    (∀ a v, s.turns.head? ≠ some (.host (.busWrite a v))) →
    t.phase = .err ∧ t.err = s.err ∧ t.cur = s.cur ∧ t.pxcnt = s.pxcnt)

/-- R290: the interrupt output is absent unless `IRQ_PRESENT`, follows DONE and ERR, and falls when the next command is accepted; the
parameter adds no state and no rule depends on it: the same steps are taken with and without it. -/
def Obligations.InterruptLineIsAnObserverOnly : Prop :=
  (∀ s : State, s.params.irqPresent = false → irqLine s = none) ∧
  (∀ s : State, s.params.irqPresent = true → (irqLine s = some true ↔ s.phase = .done ∨ s.phase = .err) ∧
    (irqLine s = some false ↔ s.phase ≠ .done ∧ s.phase ≠ .err)) ∧
  (∀ s t : State, s.params.irqPresent = true → busy s = false → hostTurn (.command .decode) s = .next t →
    irqLine t = some false) ∧
  (∀ (present : Bool) (s : State),
    step { s with params := { s.params with irqPresent := present } } =
      mapNext (fun t => { t with params := { t.params with irqPresent := present } }) (step s))

/-- R320, R332: nothing of an earlier pass is left after an accepted DECODE or ENCODE: the next state does not depend on the Codec
State, counters, mode, phase or error before it. -/
def Obligations.PassStartForgetsEarlierPasses : Prop :=
  ∀ s s' : State, busy s = false → busy s' = false → s.params = s'.params → s.desc = s'.desc → s.ports = s'.ports →
    s.hostRead = s'.hostRead → s.turns = s'.turns →
    hostTurn (.command .encode) s = hostTurn (.command .encode) s' ∧
    (s.latched = s'.latched → hostTurn (.command .decode) s = hostTurn (.command .decode) s')

/-- R26, R331: while BUSY no step of any agent changes the descriptor registers or the latched copy, but header acceptance. -/
def Obligations.DescriptorIsStableWhileBusy : Prop :=
  ∀ s t : State, busy s = true → step s = .next t →
    t.latched = s.latched ∧ (s.phase ≠ .dHdr → t.desc = s.desc)

/-! ### Errors and waits -/

/-- R285, R286: a step of the engine that raises records a cause, enters ERR, and leaves the Codec State, the counters of pixels, the
descriptor and the pixels yielded as they were; only the ports and `cur` show it.
What a failing step leaves of the ports is log entries 6, 9 and 19; the ENCODE command's refusal is log entry 10. -/
def Obligations.FailingStepIsPrecise : Prop :=
  ∀ s t : State, s.phase ≠ .err → engineTurn s = .next t → t.phase = .err →
    (∃ c, t.err = some c) ∧ t.codec = s.codec ∧ t.pxcnt = s.pxcnt ∧ t.pxtotal = s.pxtotal ∧ t.desc = s.desc ∧
    t.latched = s.latched ∧ t.mode = s.mode ∧ t.ports.sink = s.ports.sink ∧ s.cur ≤ t.cur ∧
    (decoding s → t.cur + s.ports.readerPos = s.cur + t.ports.readerPos ∧ t.ports.writer = s.ports.writer ∧
      t.ports.writerPos = s.ports.writerPos) ∧
    (encoding s → t.ports.reader = s.ports.reader ∧ t.ports.readerPos = s.ports.readerPos ∧
      t.cur + s.ports.writerPos ≤ s.cur + t.ports.writerPos ∧
      ∀ x, x < s.ports.writerPos → Memory.read t.ports.writer x = Memory.read s.ports.writer x)

/-- R70, R286, R288(d): where the Writer fails in a body step, the chunks before the failing one are appended and counted in `cur`, and
any prefix of the failing chunk is appended and not counted.
The length of the prefix is the Writer's input (log entries 6 and 19). -/
def Obligations.WriterFailureLeavesAPrefix : Prop :=
  ∀ (s t : State) (px : Pixel) (rest : List Pixel), s.phase = .eBody → s.ports.source = px :: rest →
    engineTurn s = .next t → t.phase = .err →
    t.err = some .writer ∧
    ∃ (before after : List Instr) (i : Instr) (n : Nat),
      (encodeStep s.params.encDeltaWrap (decide (s.pxcnt + 1 = s.pxtotal)) px s.codec).1 = before ++ i :: after ∧
      t.cur = s.cur + (bytesOf before).length ∧
      t.ports.writer = Memory.writeBytes s.ports.writer s.ports.writerPos (bytesOf before ++ (encode i).take n)

/-- R292: every phase has an enabled step or a defined wait; waits change no state; the engine is never stuck. The one turn without a
next state is the model's own refusal (log entry 11): the host connects a port in the middle of a pass. -/
def Obligations.EngineIsNeverStuck : Prop :=
  (∀ s : State, ∃ t, engineTurn s = .next t) ∧
  (∀ s : State, s.phase = .idle ∨ s.phase = .done ∨ s.phase = .err → engineTurn s = .next s) ∧
  (∀ s : State, s.phase = .eBody → s.ports.source = [] → engineTurn s = .next s) ∧
  (∀ s : State, s.phase = .dBody → s.ports.pulls = 0 → engineTurn s = .next s) ∧
  (∀ s : State, takeTurn .stall s = .next s) ∧
  (∀ s : State, (∃ t, step s = .next t) ∨ (step s = .refused .reconnectedInPass ∧ busy s = true ∧
    ∃ op rest, s.turns = .host op :: rest ∧
      ((∃ bs as, op = .connectReader bs as) ∨ (∃ as, op = .connectWriter as) ∨ (∃ ps, op = .connectSource ps) ∨
        op = .connectSink)))

/-- R79, R66: no step retracts or rewrites a byte the Writer has received, unless the host connects another Writer. -/
def Obligations.WrittenBytesAreNeverRewritten : Prop :=
  ∀ s t : State, (∀ as, s.turns.head? ≠ some (.host (.connectWriter as))) → step s = .next t →
    s.ports.writerPos ≤ t.ports.writerPos ∧
    ∀ x, x < s.ports.writerPos → Memory.read t.ports.writer x = Memory.read s.ports.writer x

/-- R67, R241, R232: in a decode pass `cur` advances exactly with the Reader's position, by at most one record, and never back; and once
a pull has been answered with end-of-input every later pull is, whatever any agent does, until the host connects another Reader.
The Reader's script of answers is the model's own (log entry 19). -/
def Obligations.CursorCountsConsumedBytes : Prop :=
  (∀ s t : State, decoding s → engineTurn s = .next t →
    t.cur + s.ports.readerPos = s.cur + t.ports.readerPos ∧ s.cur ≤ t.cur ∧
    t.cur ≤ s.cur + (if s.phase = .dHdr then 14 else if s.phase = .dBody then 5 else 8)) ∧
  (∀ s t : State, nextByte s = .stopped .endOfInput t → readerEnded t) ∧
  (∀ s t : State, readerEnded s → (∀ bytes answers, s.turns.head? ≠ some (.host (.connectReader bytes answers))) →
    step s = .next t → readerEnded t) ∧
  (∀ s : State, readerEnded s → nextByte s = .stopped .endOfInput s)

/-! ### Framing -/

/-- R142: step E_HDR, when the Writer accepts and when it fails.
The Writer's script of answers is the model's own (log entry 19). -/
def Obligations.HeaderEmission : Prop :=
  ∀ s : State, s.phase = .eHdr →
    (accepts 1 s → engineTurn s = .next { afterEmits 1
        ([0x71#8, 0x6F#8, 0x69#8, 0x66#8] ++ be32 s.latched.width ++ be32 s.latched.height ++
          [s.latched.channels, s.latched.colorspace.setWidth 8]) s with
      pxtotal := s.latched.width.toNat * s.latched.height.toNat, phase := .eBody }) ∧
    (∀ n rest, s.ports.writerAnswers = .fail n :: rest → ∃ t, engineTurn s = .next t ∧
      t.phase = .err ∧ t.err = some .writer ∧ t.cur = s.cur ∧
      t.ports.writer = Memory.writeBytes s.ports.writer s.ports.writerPos
        (([0x71#8, 0x6F#8, 0x69#8, 0x66#8] ++ be32 s.latched.width ++ be32 s.latched.height ++
          [s.latched.channels, s.latched.colorspace.setWidth 8]).take n))

/-- R143, R190: step E_TRL flushes a pending run, then emits the trailer, then the pass is DONE.
The Writer's script of answers is the model's own (log entry 19). -/
def Obligations.TrailerEmission : Prop :=
  ∀ s : State, s.phase = .eTrl →
    (s.codec.run = 0 → accepts 1 s →
      engineTurn s = .next { afterEmits 1 [0#8, 0#8, 0#8, 0#8, 0#8, 0#8, 0#8, 1#8] s with phase := .done }) ∧
    (0 < s.codec.run → s.codec.run ≤ 62 → accepts 2 s →
      engineTurn s = .next { afterEmits 2 ([0xC0#8 ||| BitVec.ofNat 8 (s.codec.run - 1)] ++
          [0#8, 0#8, 0#8, 0#8, 0#8, 0#8, 0#8, 1#8]) s with
        codec := { s.codec with run := 0 }, phase := .done }) ∧
    (∀ n rest, s.ports.writerAnswers = .fail n :: rest → ∃ t, engineTurn s = .next t ∧ t.phase = .err ∧ t.err = some .writer)

/-- R144: fewer than 14 bytes raise TRUNCATED_HEADER with `cur` at what was there, whatever the bytes are; a Reader failure raises
IOError.
The Reader's script of answers, and that a failed pull loses no byte of the Reader's, are the model's choice (log entry 19). -/
def Obligations.HeaderFetchStopsAtTheFirstMissingByte : Prop :=
  ∀ (s : State) (bytes : List Byte), s.phase = .dHdr → bytes.length < 14 →
    (servesThenEnds bytes s → ∃ t, engineTurn s = .next t ∧ t.phase = .err ∧ t.err = some .truncatedHeader ∧
      t.cur = s.cur + bytes.length ∧ t.ports.readerPos = s.ports.readerPos + bytes.length ∧
      t.codec = s.codec ∧ t.desc = s.desc ∧ t.pxcnt = s.pxcnt) ∧
    (servesThenFails bytes s → ∃ t, engineTurn s = .next t ∧ t.phase = .err ∧ t.err = some .reader ∧
      t.cur = s.cur + bytes.length ∧ t.ports.readerPos = s.ports.readerPos + bytes.length ∧
      t.codec = s.codec ∧ t.desc = s.desc ∧ t.pxcnt = s.pxcnt)

/-- R145: the five header checks in their order, first failure wins, `cur` 14 further at every raise. -/
def Obligations.HeaderChecksInOrder : Prop :=
  ∀ (s : State) (m0 m1 m2 m3 w3 w2 w1 w0 h3 h2 h1 h0 c sp : Byte), s.phase = .dHdr →
    serves [m0, m1, m2, m3, w3, w2, w1, w0, h3, h2, h1, h0, c, sp] s →
    ∃ t, engineTurn s = .next t ∧ t.cur = s.cur + 14 ∧
      (if [m0, m1, m2, m3] ≠ [0x71#8, 0x6F#8, 0x69#8, 0x66#8] then
        t.phase = .err ∧ t.err = some .badMagic ∧ t.desc = s.desc
       else if sp ≠ 0 ∧ sp ≠ 1 then t.phase = .err ∧ t.err = some .badColorspace ∧ t.desc = s.desc
       else if unbe32 w3 w2 w1 w0 = 0 then t.phase = .err ∧ t.err = some .zeroWidth ∧ t.desc = s.desc
       else if unbe32 h3 h2 h1 h0 = 0 then t.phase = .err ∧ t.err = some .zeroHeight ∧ t.desc = s.desc
       else if c ≠ 3 ∧ c ≠ 4 then t.phase = .err ∧ t.err = some .badChannels ∧ t.desc = s.desc
       else t.phase = .dBody ∧ t.err = s.err)

/-- R146: HEADER completes: a legal header is accepted, its fields reach the registers, the body opens and (no
pixel yielded yet) HASMORE is 1; nothing else changes.
That a pull made before the body waits for it is the model's choice (log entry 22). -/
def Obligations.HeaderAcceptanceWritesTheDescriptor : Prop :=
  ∀ (w h : Word32) (c sp : Byte) (s : State), w ≠ 0 → h ≠ 0 → c = 3 ∨ c = 4 → sp = 0 ∨ sp = 1 →
    ∃ t, exec (.header w h c sp) s = .next t ∧
      t = { s with desc := ⟨w, h, c, sp.extractLsb' 0 1⟩, pxtotal := w.toNat * h.toNat, phase := .dBody } ∧
      (s.pxcnt = 0 → hasMore t = true)

/-- R147: the end of a decode pass: TRAILER completes and leaves DONE, nothing else changed; which phase follows the last pixel; and the
strict check, byte by byte as pulled.
The Reader's script of answers is the model's own (log entry 19), and so is that pulls still waiting stay (log entry 22). -/
def Obligations.TrailerEndsThePassOrRaises : Prop :=
  (∀ s : State, exec .trailer s = .next { s with phase := .done }) ∧
  (∀ s t : State, s.phase = .dBody → s.ports.pulls ≠ 0 → engineTurn s = .next t → t.phase ≠ .err → t.pxcnt = t.pxtotal →
    t.phase = if s.params.strictTrailer then .dTrl else .done) ∧
  (∀ s : State, s.phase = .dTrl → serves [0#8, 0#8, 0#8, 0#8, 0#8, 0#8, 0#8, 1#8] s →
    engineTurn s = .next { afterPulls 8 s with phase := .done }) ∧
  (∀ (s : State) (k : Nat) (x : Byte), s.phase = .dTrl → k < 8 →
    some x ≠ ([0#8, 0#8, 0#8, 0#8, 0#8, 0#8, 0#8, 1#8] : List Byte)[k]? →
    serves (([0#8, 0#8, 0#8, 0#8, 0#8, 0#8, 0#8, 1#8] : List Byte).take k ++ [x]) s →
    engineTurn s = .next { afterPulls (k + 1) s with err := some .badTrailer, phase := .err }) ∧
  (∀ (s : State) (k : Nat), s.phase = .dTrl → k < 8 →
    servesThenEnds (([0#8, 0#8, 0#8, 0#8, 0#8, 0#8, 0#8, 1#8] : List Byte).take k) s →
    ∃ t, engineTurn s = .next t ∧ t.phase = .err ∧ t.err = some .badTrailer ∧ t.cur = s.cur + k ∧
      t.ports.sink = s.ports.sink) ∧
  (∀ (s : State) (k : Nat), s.phase = .dTrl → k < 8 →
    servesThenFails (([0#8, 0#8, 0#8, 0#8, 0#8, 0#8, 0#8, 1#8] : List Byte).take k) s →
    ∃ t, engineTurn s = .next t ∧ t.phase = .err ∧ t.err = some .reader ∧ t.cur = s.cur + k)

/-- R153: the descriptor an encode pass emits is the one a decode pass writes to the registers. -/
def Obligations.DescriptorRoundTrip : Prop :=
  ∀ (d : Descriptor) (s : State), descriptorFault d.width d.height d.channels = none →
    ∃ i t, decode .header (encode (headerRecord d)) = .ok (i, []) ∧ exec i s = .next t ∧ t.desc = d ∧ t.phase = .dBody ∧
      t.pxtotal = d.width.toNat * d.height.toNat

/-! ### Opcodes -/

/-- R226: RGB completes with the record's colour and the alpha of `prev`; its encoding; its truncations. -/
def Obligations.RgbSetsColourAndKeepsAlpha : Prop :=
  ∀ r g b : Byte,
    (∀ s : State, ∃ t, exec (.rgb r g b) s = .next t ∧ Yields ⟨r, g, b, s.codec.prev.a⟩ s t ∧
      t.codec.prev = ⟨r, g, b, s.codec.prev.a⟩ ∧ t.codec.run = s.codec.run ∧
      (∀ k : Fin 64, slotAt k t.codec =
        if k = pixelHash ⟨r, g, b, s.codec.prev.a⟩ then ⟨r, g, b, s.codec.prev.a⟩ else slotAt k s.codec) ∧
      OpcodeFrame s t) ∧
    decode .body [0xFE#8, r, g, b] = .ok (.rgb r g b, []) ∧
    (∀ k, 1 ≤ k → k ≤ 3 → decode .body ([0xFE#8, r, g, b].take k) = .error .truncatedPayload)

/-- R227: RGBA completes with all four channels of the record; its encoding; its truncations. -/
def Obligations.RgbaSetsAllChannels : Prop :=
  ∀ r g b a : Byte,
    (∀ s : State, ∃ t, exec (.rgba r g b a) s = .next t ∧ Yields ⟨r, g, b, a⟩ s t ∧
      t.codec.prev = ⟨r, g, b, a⟩ ∧ t.codec.run = s.codec.run ∧
      (∀ k : Fin 64, slotAt k t.codec = if k = pixelHash ⟨r, g, b, a⟩ then ⟨r, g, b, a⟩ else slotAt k s.codec) ∧
      OpcodeFrame s t) ∧
    decode .body [0xFF#8, r, g, b, a] = .ok (.rgba r g b a, []) ∧
    (∀ k, 1 ≤ k → k ≤ 4 → decode .body ([0xFF#8, r, g, b, a].take k) = .error .truncatedPayload)

/-- R223: INDEX completes with the slot's pixel, all four channels, then the common tail. -/
def Obligations.IndexYieldsTheSlot : Prop :=
  ∀ i : Fin 64,
    (∀ s : State, ∃ t, exec (.index i) s = .next t ∧ Yields (slotAt i s.codec) s t ∧
      t.codec.prev = slotAt i s.codec ∧ t.codec.run = s.codec.run ∧
      (∀ k : Fin 64, slotAt k t.codec = if k = pixelHash (slotAt i s.codec) then slotAt i s.codec else slotAt k s.codec) ∧
      OpcodeFrame s t) ∧
    decode .body [BitVec.ofNat 8 i.val] = .ok (.index i, [])

/-- R224: DIFF completes with each colour channel moved by its delta mod 256 and alpha kept.
That deltas outside -2..1, which spell no record (R105, R116), are added as well is the model's choice (log entry 21). -/
def Obligations.DiffMovesTheChannels : Prop :=
  ∀ (dr dg db : Int) (s : State), ∃ t px, exec (.diff dr dg db) s = .next t ∧
    (px.r.toNat : Int) = (s.codec.prev.r.toNat + dr) % 256 ∧ (px.g.toNat : Int) = (s.codec.prev.g.toNat + dg) % 256 ∧
    (px.b.toNat : Int) = (s.codec.prev.b.toNat + db) % 256 ∧ px.a = s.codec.prev.a ∧
    Yields px s t ∧ t.codec.prev = px ∧ t.codec.run = s.codec.run ∧
    (∀ k : Fin 64, slotAt k t.codec = if k = pixelHash px then px else slotAt k s.codec) ∧ OpcodeFrame s t

/-- R225: LUMA completes with green moved by dg, red by dg + drg, blue by dg + dbg, mod 256, and alpha kept.
That operands outside the ranges of R106, which spell no record (R116), are added as well is the model's choice (log entry 21). -/
def Obligations.LumaMovesTheChannels : Prop :=
  ∀ (dg drg dbg : Int) (s : State), ∃ t px, exec (.luma dg drg dbg) s = .next t ∧
    (px.r.toNat : Int) = (s.codec.prev.r.toNat + (dg + drg)) % 256 ∧ (px.g.toNat : Int) = (s.codec.prev.g.toNat + dg) % 256 ∧
    (px.b.toNat : Int) = (s.codec.prev.b.toNat + (dg + dbg)) % 256 ∧ px.a = s.codec.prev.a ∧
    Yields px s t ∧ t.codec.prev = px ∧ t.codec.run = s.codec.run ∧
    (∀ k : Fin 64, slotAt k t.codec = if k = pixelHash px then px else slotAt k s.codec) ∧ OpcodeFrame s t

/-- R228: RUN completes: one repeat of `prev` now, n more owed; the cache is written only under `RUN_CACHE_REFRESH`. -/
def Obligations.RunRepeatsThePreviousPixel : Prop :=
  ∀ (n : Nat) (s : State), n ≤ 61 →
    (∃ t, exec (.run (n + 1)) s = .next t ∧ Yields s.codec.prev s t ∧ t.codec.prev = s.codec.prev ∧ t.codec.run = n ∧
      (∀ k : Fin 64, slotAt k t.codec =
        if s.params.runCacheRefresh = true ∧ k = pixelHash s.codec.prev then s.codec.prev else slotAt k s.codec) ∧
      OpcodeFrame s t) ∧
    decode .body [BitVec.ofNat 8 (0xC0 + n)] = .ok (.run (n + 1), [])

/-- R222: with a run left the step yields `prev` again, counts the run down and touches neither Reader nor cache. -/
def Obligations.RunIsReYieldedWithoutReading : Prop :=
  ∀ s : State, s.phase = .dBody → s.ports.pulls ≠ 0 → 0 < s.codec.run →
    ∃ t, engineTurn s = .next t ∧ Yields s.codec.prev s t ∧ t.codec = { s.codec with run := s.codec.run - 1 } ∧
      t.ports.pulls = s.ports.pulls - 1 ∧ OpcodeFrame (takePull s) t

/-- A step runs the decoded record: when the bytes at the cursor decode to an instruction, the engine's turn is exec of it after those
bytes are pulled (and, in the body, the sink's pull is taken); and a step is the engine's turn when the schedule says so.
The schedule of turns is the model's choice (log entry 1). -/
def Obligations.StepRunsTheDecodedRecord : Prop :=
  (∀ (s : State) (bytes : List Byte) (i : Instr), s.phase = .dBody → s.ports.pulls ≠ 0 → s.codec.run = 0 →
    decode .body bytes = .ok (i, []) → serves bytes s →
    engineTurn s = exec i (afterPulls bytes.length (takePull s))) ∧
  (∀ (s : State) (bytes : List Byte) (i : Instr), s.phase = .dHdr →
    decode .header bytes = .ok (i, []) → serves bytes s → engineTurn s = exec i (afterPulls bytes.length s)) ∧
  (∀ (s : State) (bytes : List Byte) (i : Instr), s.phase = .dTrl →
    decode .trailer bytes = .ok (i, []) → serves bytes s → engineTurn s = exec i (afterPulls bytes.length s)) ∧
  (∀ s : State, s.turns = [] → step s = engineTurn s) ∧
  (∀ (s : State) (rest : List Turn), s.turns = .engine :: rest → step s = engineTurn { s with turns := rest })

/-- R221: end-of-input at the tag or in the payload, and a Reader failure, each with its error, `cur` at the bytes pulled and the
Codec State, `pxcnt` and the pixels yielded as before the step.
The Reader's script of answers is the model's own (log entry 19). -/
def Obligations.TruncatedOpcodeRaises : Prop :=
  ∀ (s : State), s.phase = .dBody → s.ports.pulls ≠ 0 →
    (s.codec.run = 0 → servesThenEnds [] s → ∃ t, engineTurn s = .next t ∧ t.phase = .err ∧ t.err = some .truncatedBody ∧
      t.cur = s.cur ∧ t.codec = s.codec ∧ t.pxcnt = s.pxcnt ∧ t.ports.sink = s.ports.sink) ∧
    (∀ (b1 : Byte) (p : List Byte), s.codec.run = 0 → (b1 :: p).length < recordLength b1 → servesThenEnds (b1 :: p) s →
      ∃ t, engineTurn s = .next t ∧ t.phase = .err ∧ t.err = some .truncatedPayload ∧
        t.cur = s.cur + (b1 :: p).length ∧ t.codec = s.codec ∧ t.pxcnt = s.pxcnt ∧ t.ports.sink = s.ports.sink) ∧
    (∀ bytes : List Byte, s.codec.run = 0 → bytes.length < (match bytes with | [] => 1 | b1 :: _ => recordLength b1) →
      servesThenFails bytes s → ∃ t, engineTurn s = .next t ∧ t.phase = .err ∧ t.err = some .reader ∧
        t.cur = s.cur + bytes.length ∧ t.codec = s.codec ∧ t.pxcnt = s.pxcnt ∧ t.ports.sink = s.ports.sink) ∧
    (0 < s.codec.run → ∃ t, engineTurn s = .next t ∧ t.cur = s.cur ∧ t.ports.readerPos = s.ports.readerPos)

/-- R231: a body step that does not raise yields exactly one pixel, and the phase leaves D_BODY with HASMORE 0 exactly at the last. -/
def Obligations.EachBodyStepYieldsOnePixel : Prop :=
  ∀ s t : State, s.phase = .dBody → s.ports.pulls ≠ 0 → engineTurn s = .next t → t.phase ≠ .err →
    (∃ px, t.ports.sink = s.ports.sink ++ [px]) ∧ t.pxcnt = s.pxcnt + 1 ∧
    (t.pxcnt = t.pxtotal ↔ t.phase ≠ .dBody) ∧ (t.pxcnt = t.pxtotal → hasMore t = false)

/-- R239, R292: a decode pass over any bytes, under any parameters and any answers of the Reader, with a sink that keeps pulling, ends in
DONE or ERR within `pxtotal` + 3 steps; in DONE exactly `pxtotal` pixels have been yielded (R231).
The Reader's script of answers is the model's own (log entry 19), and so are that the pulls wait from before DECODE (log entry 22)
and that every turn after DECODE is the engine's (log entry 1). -/
def Obligations.EveryDecodePassEnds : Prop :=
  ∀ (p : Params) (bytes : List Byte) (answers : List ReaderAnswer), ∃ n t,
    Sys2Proof.core.run n (decodeLaunch p bytes answers ((2 ^ 32 - 1) * (2 ^ 32 - 1))) = .next t ∧
    (t.phase = .done ∨ t.phase = .err) ∧ n ≤ t.pxtotal + 3 ∧ (t.phase = .done → t.ports.sink.length = t.pxtotal)

/-! ### Encoder -/

/-- R182 with R181: a pixel equal to `prev` is counted; at 62 or at the last pixel the RUN byte is emitted and the count cleared, or the
Writer's failure raised.
The Writer's script of answers is the model's own (log entry 19). -/
def Obligations.EqualPixelIsCountedIntoTheRun : Prop :=
  ∀ (s : State) (rest : List Pixel), s.phase = .eBody → s.ports.source = s.codec.prev :: rest → s.codec.run ≤ 61 →
    (s.codec.run + 1 = 62 ∨ s.pxcnt + 1 = s.pxtotal → accepts 1 s → engineTurn s = .next { afterEmits 1
        [BitVec.ofNat 8 (0xC0 + s.codec.run)] (takePixel s) with
      codec := { s.codec with run := 0 }, pxcnt := s.pxcnt + 1,
      phase := if s.pxcnt + 1 = s.pxtotal then .eTrl else .eBody }) ∧
    (s.codec.run + 1 ≠ 62 → s.pxcnt + 1 ≠ s.pxtotal → engineTurn s = .next { takePixel s with
      codec := { s.codec with run := s.codec.run + 1 }, pxcnt := s.pxcnt + 1 }) ∧
    (∀ n later, s.codec.run + 1 = 62 ∨ s.pxcnt + 1 = s.pxtotal → s.ports.writerAnswers = .fail n :: later →
      ∃ t, engineTurn s = .next t ∧ t.phase = .err ∧ t.err = some .writer ∧ t.codec = s.codec ∧ t.cur = s.cur)

/-- R183, R184, R191: a different pixel first flushes a pending run; on a cache hit it is emitted as INDEX and the cache stays.
The Writer's script of answers is the model's own (log entry 19). -/
def Obligations.CacheHitIsEmittedAsIndex : Prop :=
  ∀ (s : State) (px : Pixel) (rest : List Pixel), s.phase = .eBody → s.ports.source = px :: rest → px ≠ s.codec.prev →
    slotAt (pixelHash px) s.codec = px → s.codec.run ≤ 61 → accepts 2 s →
    ∃ n, engineTurn s = .next { afterEmits n
        ((if s.codec.run = 0 then [] else [BitVec.ofNat 8 (0xC0 + (s.codec.run - 1))]) ++
          [BitVec.ofNat 8 (pixelHash px).val]) (takePixel s) with
      codec := { s.codec with run := 0, prev := px }, pxcnt := s.pxcnt + 1,
      phase := if s.pxcnt + 1 = s.pxtotal then .eTrl else .eBody }

/-- R183 to R189, R191: a different pixel that misses the cache is written to its slot and emitted as DIFF, LUMA or RGB when alpha is
unchanged, by the range tests in that order, and as RGBA when alpha changed.
The Writer's script of answers is the model's own (log entry 19). -/
def Obligations.CacheMissIsEmittedByTheDeltas : Prop :=
  ∀ (s : State) (px : Pixel) (rest : List Pixel), s.phase = .eBody → s.ports.source = px :: rest → px ≠ s.codec.prev →
    slotAt (pixelHash px) s.codec ≠ px → s.codec.run ≤ 61 → accepts 2 s →
    ∃ t n bytes, engineTurn s = .next t ∧
      t = { afterEmits n ((if s.codec.run = 0 then [] else [BitVec.ofNat 8 (0xC0 + (s.codec.run - 1))]) ++ bytes)
          (takePixel s) with
        codec := t.codec, pxcnt := s.pxcnt + 1, phase := if s.pxcnt + 1 = s.pxtotal then .eTrl else .eBody } ∧
      t.codec.prev = px ∧ t.codec.run = 0 ∧
      (∀ k : Fin 64, slotAt k t.codec = if k = pixelHash px then px else slotAt k s.codec) ∧
      (let d := deltas s.params.encDeltaWrap px s.codec.prev
       bytes.map (fun b => (b.toNat : Int)) = (
        if px.a ≠ s.codec.prev.a then [0xFF, (px.r.toNat : Int), px.g.toNat, px.b.toNat, px.a.toNat]
        else if -2 ≤ d.dr ∧ d.dr ≤ 1 ∧ -2 ≤ d.dg ∧ d.dg ≤ 1 ∧ -2 ≤ d.db ∧ d.db ≤ 1 then
          [0x40 + (d.dr + 2) * 16 + (d.dg + 2) * 4 + (d.db + 2)]
        else if -32 ≤ d.dg ∧ d.dg ≤ 31 ∧ -8 ≤ d.drg ∧ d.drg ≤ 7 ∧ -8 ≤ d.dbg ∧ d.dbg ≤ 7 then
          [0x80 + (d.dg + 32), (d.drg + 8) * 16 + (d.dbg + 8)]
        else [0xFE, (px.r.toNat : Int), px.g.toNat, px.b.toNat] : List Int))

/-- R185: the deltas under both settings of `ENC_DELTA_WRAP`, with their ranges. -/
def Obligations.DeltasUnderBothSettings : Prop :=
  ∀ px prev : Pixel,
    (let d := deltas false px prev
     d.dr = px.r.toNat - prev.r.toNat ∧ d.dg = px.g.toNat - prev.g.toNat ∧ d.db = px.b.toNat - prev.b.toNat ∧
     d.drg = d.dr - d.dg ∧ d.dbg = d.db - d.dg ∧
     -255 ≤ d.dr ∧ d.dr ≤ 255 ∧ -255 ≤ d.dg ∧ d.dg ≤ 255 ∧ -255 ≤ d.db ∧ d.db ≤ 255 ∧
     -510 ≤ d.drg ∧ d.drg ≤ 510 ∧ -510 ≤ d.dbg ∧ d.dbg ≤ 510) ∧
    (let d := deltas true px prev
     let sext : Int → Int := fun v => if v % 256 < 128 then v % 256 else v % 256 - 256
     d.dr = sext (px.r.toNat - prev.r.toNat) ∧ d.dg = sext (px.g.toNat - prev.g.toNat) ∧
     d.db = sext (px.b.toNat - prev.b.toNat) ∧ d.drg = sext (d.dr - d.dg) ∧ d.dbg = sext (d.db - d.dg) ∧
     -128 ≤ d.dr ∧ d.dr ≤ 127 ∧ -128 ≤ d.dg ∧ d.dg ≤ 127 ∧ -128 ≤ d.db ∧ d.db ≤ 127 ∧
     -128 ≤ d.drg ∧ d.drg ≤ 127 ∧ -128 ≤ d.dbg ∧ d.dbg ≤ 127)

/-- R196, R198, R203: whatever the pixel, a body step emits only well-formed opcodes, 0 to 6 bytes, and leaves `run` at most 61. -/
def Obligations.EncoderEmitsOnlyWellFormedOpcodes : Prop :=
  ∀ (wrap last : Bool) (px : Pixel) (c : Codec), c.run ≤ 61 →
    (∀ i ∈ (encodeStep wrap last px c).1, i.wellFormed = true ∧ i.position = .body) ∧
    (bytesOf (encodeStep wrap last px c).1).length ≤ 6 ∧ (encodeStep wrap last px c).2.run ≤ 61

/-- R194: 62 repeats followed by a different pixel give exactly one RUN 62, then that pixel's own opcode. -/
def Obligations.RunOfSixtyTwoIsOneRecord : Prop :=
  ∀ (wrap : Bool) (c : Codec) (q : Pixel) (rest : List Pixel), c.run = 0 → q ≠ c.prev →
    bodyRecords wrap c (List.replicate 62 c.prev ++ q :: rest) = .run 62 :: bodyRecords wrap c (q :: rest) ∧
    (∃ i, (encodeStep wrap rest.isEmpty q c).1 = [i] ∧ ∀ n, i ≠ .run n) ∧ encode (.run 62) = [0xC0#8 ||| 61#8]

/-- R199: an image whose every pixel has alpha 255 is encoded without RGBA. -/
def Obligations.OpaqueImagesUseNoRgba : Prop :=
  ∀ (wrap : Bool) (c : Codec) (pixels : List Pixel), c.prev.a = 255 → (∀ px ∈ pixels, px.a = 255) →
    ∀ i ∈ bodyRecords wrap c pixels, ∀ r g b a, i ≠ .rgba r g b a

/-! ### The two directions together -/

/-- R234, R236: the record the encoder chooses for a pixel that differs from `prev` makes a decoder with the same `prev` and an agreeing
cache yield that pixel, and leaves the two Codec States agreeing. -/
def Obligations.ChosenRecordReconstructsThePixel : Prop :=
  ∀ (last : Bool) (px : Pixel) (c : Codec) (s : State) (wrap : Bool), px ≠ c.prev → c.run = 0 →
    s.codec.prev = c.prev → s.codec.run = 0 → CachesAgree c s.codec →
    ∃ i t, (encodeStep wrap last px c).1 = [i] ∧ exec i s = .next t ∧ Yields px s t ∧
      t.codec.prev = (encodeStep wrap last px c).2.prev ∧ t.codec.run = 0 ∧ CachesAgree (encodeStep wrap last px c).2 t.codec

/-- R204: an encode pass over a valid image, whatever the Writer answers, ends in DONE with the Writer holding exactly header, body and
trailer and `cur` at their length, or (only if the Writer failed a chunk) in ERR with the Writer holding a prefix of them; and that is
what is observed of the pass (R15).
The Writer's script of answers is the model's own (log entry 19), and so are that the pixels are on offer from before ENCODE (log
entry 23) and that every turn after ENCODE is the engine's (log entry 1). -/
def Obligations.EncodePassWritesTheCanonicalStream : Prop :=
  ∀ (p : Params) (d : Descriptor) (answers : List WriterAnswer) (pixels : List Pixel), validImage d pixels →
    ∃ n t, Sys2Proof.core.run n (encodeLaunch p d answers pixels) = .next t ∧
      ((t.phase = .done ∧ t.err = none ∧ t.ports.writer = Memory.ofBytes (canonicalStream p.encDeltaWrap d pixels) ∧
          t.cur = (canonicalStream p.encDeltaWrap d pixels).length ∧ t.pxcnt = pixels.length ∧ t.ports.source = [] ∧
          observe (encodeLaunch p d answers pixels) t = .encode (canonicalStream p.encDeltaWrap d pixels) 0x702 0) ∨
       (t.phase = .err ∧ t.err = some .writer ∧ (∃ k, WriterAnswer.fail k ∈ answers) ∧
          ∃ written, written <+: canonicalStream p.encDeltaWrap d pixels ∧ t.ports.writer = Memory.ofBytes written ∧
            observe (encodeLaunch p d answers pixels) t = .encode written 0x804 0x13))

/-- R234: for every valid descriptor, every pixel list of its length and whatever the parameters of the two engines: the encode pass ends
in DONE, and the decode pass over the bytes it wrote ends in DONE, yields exactly the pixels and leaves the descriptor in the registers;
what is observed of the decode pass (R15) is these, with `cur` before or (strict) behind the trailer.
That the pixels are on offer from before ENCODE (log entry 23), that the pulls wait from before DECODE (log entry 22) and that every turn
after the command is the engine's (log entry 1) are the model's choice. -/
def Obligations.RoundTripIsExact : Prop :=
  ∀ (p : Params) (d : Descriptor) (pixels : List Pixel), validImage d pixels →
    ∃ m e bytes, Sys2Proof.core.run m (encodeLaunch p d [] pixels) = .next e ∧ e.phase = .done ∧
      e.ports.writer = Memory.ofBytes bytes ∧
      ∀ q : Params, ∃ n t, Sys2Proof.core.run n (decodeLaunch q bytes [] pixels.length) = .next t ∧
        t.phase = .done ∧ t.ports.sink = pixels ∧ t.desc = d ∧ t.err = none ∧
        observe (decodeLaunch q bytes [] pixels.length) t =
          .decode (some d) pixels (bytes.length - if q.strictTrailer then 0 else 8) 0x70A 0
end

