-- ==== Sys2Proof/Laws/State.lean ====
section
/-! SUPPORT. One lemma per field for each named update of the state, so that no later proof unfolds a record update. -/

namespace Sys2Proof.Machine

/-! #### `passStart` -/

@[simp] theorem passStart_params (m : Mode) (s : State) : (passStart m s).params = s.params := rfl
@[simp] theorem passStart_codec (m : Mode) (s : State) : (passStart m s).codec = Codec.initial := rfl
@[simp] theorem passStart_desc (m : Mode) (s : State) : (passStart m s).desc = s.desc := rfl
@[simp] theorem passStart_latched (m : Mode) (s : State) : (passStart m s).latched = s.latched := rfl
@[simp] theorem passStart_cur (m : Mode) (s : State) : (passStart m s).cur = 0 := rfl
@[simp] theorem passStart_pxcnt (m : Mode) (s : State) : (passStart m s).pxcnt = 0 := rfl
@[simp] theorem passStart_pxtotal (m : Mode) (s : State) : (passStart m s).pxtotal = 0 := rfl
@[simp] theorem passStart_phase (m : Mode) (s : State) : (passStart m s).phase = s.phase := rfl
@[simp] theorem passStart_mode (m : Mode) (s : State) : (passStart m s).mode = m := rfl
@[simp] theorem passStart_err (m : Mode) (s : State) : (passStart m s).err = none := rfl
@[simp] theorem passStart_hostRead (m : Mode) (s : State) : (passStart m s).hostRead = s.hostRead := rfl
@[simp] theorem passStart_turns (m : Mode) (s : State) : (passStart m s).turns = s.turns := rfl
@[simp] theorem passStart_ports (m : Mode) (s : State) : (passStart m s).ports = s.ports := rfl

/-! #### `raiseError` -/

@[simp] theorem raiseError_params (c : ErrorCause) (s : State) : (raiseError c s).params = s.params := rfl
@[simp] theorem raiseError_codec (c : ErrorCause) (s : State) : (raiseError c s).codec = s.codec := rfl
@[simp] theorem raiseError_desc (c : ErrorCause) (s : State) : (raiseError c s).desc = s.desc := rfl
@[simp] theorem raiseError_latched (c : ErrorCause) (s : State) : (raiseError c s).latched = s.latched := rfl
@[simp] theorem raiseError_cur (c : ErrorCause) (s : State) : (raiseError c s).cur = s.cur := rfl
@[simp] theorem raiseError_pxcnt (c : ErrorCause) (s : State) : (raiseError c s).pxcnt = s.pxcnt := rfl
@[simp] theorem raiseError_pxtotal (c : ErrorCause) (s : State) : (raiseError c s).pxtotal = s.pxtotal := rfl
@[simp] theorem raiseError_phase (c : ErrorCause) (s : State) : (raiseError c s).phase = .err := rfl
@[simp] theorem raiseError_mode (c : ErrorCause) (s : State) : (raiseError c s).mode = s.mode := rfl
@[simp] theorem raiseError_err (c : ErrorCause) (s : State) : (raiseError c s).err = some c := rfl
@[simp] theorem raiseError_hostRead (c : ErrorCause) (s : State) : (raiseError c s).hostRead = s.hostRead := rfl
@[simp] theorem raiseError_turns (c : ErrorCause) (s : State) : (raiseError c s).turns = s.turns := rfl
@[simp] theorem raiseError_ports (c : ErrorCause) (s : State) : (raiseError c s).ports = s.ports := rfl

/-! #### `leaveToIdle` -/

@[simp] theorem leaveToIdle_params (s : State) : (leaveToIdle s).params = s.params := rfl
@[simp] theorem leaveToIdle_codec (s : State) : (leaveToIdle s).codec = s.codec := rfl
@[simp] theorem leaveToIdle_desc (s : State) : (leaveToIdle s).desc = s.desc := rfl
@[simp] theorem leaveToIdle_latched (s : State) : (leaveToIdle s).latched = s.latched := rfl
@[simp] theorem leaveToIdle_cur (s : State) : (leaveToIdle s).cur = s.cur := rfl
@[simp] theorem leaveToIdle_pxcnt (s : State) : (leaveToIdle s).pxcnt = s.pxcnt := rfl
@[simp] theorem leaveToIdle_pxtotal (s : State) : (leaveToIdle s).pxtotal = s.pxtotal := rfl
@[simp] theorem leaveToIdle_phase (s : State) : (leaveToIdle s).phase = .idle := rfl
@[simp] theorem leaveToIdle_mode (s : State) : (leaveToIdle s).mode = s.mode := rfl
@[simp] theorem leaveToIdle_err (s : State) : (leaveToIdle s).err = none := rfl
@[simp] theorem leaveToIdle_hostRead (s : State) : (leaveToIdle s).hostRead = s.hostRead := rfl
@[simp] theorem leaveToIdle_turns (s : State) : (leaveToIdle s).turns = s.turns := rfl
@[simp] theorem leaveToIdle_ports (s : State) : (leaveToIdle s).ports = s.ports := rfl

/-! #### `acceptHeader` -/

@[simp] theorem acceptHeader_params (w h : Word32) (c sp : Byte) (s : State) : (acceptHeader w h c sp s).params = s.params := rfl
@[simp] theorem acceptHeader_codec (w h : Word32) (c sp : Byte) (s : State) : (acceptHeader w h c sp s).codec = s.codec := rfl
@[simp] theorem acceptHeader_desc (w h : Word32) (c sp : Byte) (s : State) : (acceptHeader w h c sp s).desc = ⟨w, h, c, sp.extractLsb' 0 1⟩ := rfl
@[simp] theorem acceptHeader_latched (w h : Word32) (c sp : Byte) (s : State) : (acceptHeader w h c sp s).latched = s.latched := rfl
@[simp] theorem acceptHeader_cur (w h : Word32) (c sp : Byte) (s : State) : (acceptHeader w h c sp s).cur = s.cur := rfl
@[simp] theorem acceptHeader_pxcnt (w h : Word32) (c sp : Byte) (s : State) : (acceptHeader w h c sp s).pxcnt = s.pxcnt := rfl
@[simp] theorem acceptHeader_pxtotal (w h : Word32) (c sp : Byte) (s : State) : (acceptHeader w h c sp s).pxtotal = pixelTotal w h := rfl
@[simp] theorem acceptHeader_phase (w h : Word32) (c sp : Byte) (s : State) : (acceptHeader w h c sp s).phase = .dBody := rfl
@[simp] theorem acceptHeader_mode (w h : Word32) (c sp : Byte) (s : State) : (acceptHeader w h c sp s).mode = s.mode := rfl
@[simp] theorem acceptHeader_err (w h : Word32) (c sp : Byte) (s : State) : (acceptHeader w h c sp s).err = s.err := rfl
@[simp] theorem acceptHeader_hostRead (w h : Word32) (c sp : Byte) (s : State) : (acceptHeader w h c sp s).hostRead = s.hostRead := rfl
@[simp] theorem acceptHeader_turns (w h : Word32) (c sp : Byte) (s : State) : (acceptHeader w h c sp s).turns = s.turns := rfl
@[simp] theorem acceptHeader_ports (w h : Word32) (c sp : Byte) (s : State) : (acceptHeader w h c sp s).ports = s.ports := rfl

/-! #### `pixelEncoded` -/

@[simp] theorem pixelEncoded_params (c : Codec) (s : State) : (pixelEncoded c s).params = s.params := rfl
@[simp] theorem pixelEncoded_codec (c : Codec) (s : State) : (pixelEncoded c s).codec = c := rfl
@[simp] theorem pixelEncoded_desc (c : Codec) (s : State) : (pixelEncoded c s).desc = s.desc := rfl
@[simp] theorem pixelEncoded_latched (c : Codec) (s : State) : (pixelEncoded c s).latched = s.latched := rfl
@[simp] theorem pixelEncoded_cur (c : Codec) (s : State) : (pixelEncoded c s).cur = s.cur := rfl
@[simp] theorem pixelEncoded_pxcnt (c : Codec) (s : State) : (pixelEncoded c s).pxcnt = s.pxcnt + 1 := rfl
@[simp] theorem pixelEncoded_pxtotal (c : Codec) (s : State) : (pixelEncoded c s).pxtotal = s.pxtotal := rfl
@[simp] theorem pixelEncoded_phase (c : Codec) (s : State) : (pixelEncoded c s).phase = (if s.pxcnt + 1 = s.pxtotal then .eTrl else s.phase) := rfl
@[simp] theorem pixelEncoded_mode (c : Codec) (s : State) : (pixelEncoded c s).mode = s.mode := rfl
@[simp] theorem pixelEncoded_err (c : Codec) (s : State) : (pixelEncoded c s).err = s.err := rfl
@[simp] theorem pixelEncoded_hostRead (c : Codec) (s : State) : (pixelEncoded c s).hostRead = s.hostRead := rfl
@[simp] theorem pixelEncoded_turns (c : Codec) (s : State) : (pixelEncoded c s).turns = s.turns := rfl
@[simp] theorem pixelEncoded_ports (c : Codec) (s : State) : (pixelEncoded c s).ports = s.ports := rfl

/-! #### `takeReaderAnswer` -/

@[simp] theorem takeReaderAnswer_params (s : State) : (takeReaderAnswer s).params = s.params := rfl
@[simp] theorem takeReaderAnswer_codec (s : State) : (takeReaderAnswer s).codec = s.codec := rfl
@[simp] theorem takeReaderAnswer_desc (s : State) : (takeReaderAnswer s).desc = s.desc := rfl
@[simp] theorem takeReaderAnswer_latched (s : State) : (takeReaderAnswer s).latched = s.latched := rfl
@[simp] theorem takeReaderAnswer_cur (s : State) : (takeReaderAnswer s).cur = s.cur := rfl
@[simp] theorem takeReaderAnswer_pxcnt (s : State) : (takeReaderAnswer s).pxcnt = s.pxcnt := rfl
@[simp] theorem takeReaderAnswer_pxtotal (s : State) : (takeReaderAnswer s).pxtotal = s.pxtotal := rfl
@[simp] theorem takeReaderAnswer_phase (s : State) : (takeReaderAnswer s).phase = s.phase := rfl
@[simp] theorem takeReaderAnswer_mode (s : State) : (takeReaderAnswer s).mode = s.mode := rfl
@[simp] theorem takeReaderAnswer_err (s : State) : (takeReaderAnswer s).err = s.err := rfl
@[simp] theorem takeReaderAnswer_hostRead (s : State) : (takeReaderAnswer s).hostRead = s.hostRead := rfl
@[simp] theorem takeReaderAnswer_turns (s : State) : (takeReaderAnswer s).turns = s.turns := rfl
@[simp] theorem takeReaderAnswer_reader (s : State) : (takeReaderAnswer s).ports.reader = s.ports.reader := rfl
@[simp] theorem takeReaderAnswer_readerPos (s : State) : (takeReaderAnswer s).ports.readerPos = s.ports.readerPos := rfl
@[simp] theorem takeReaderAnswer_readerAnswers (s : State) : (takeReaderAnswer s).ports.readerAnswers = s.ports.readerAnswers.tail := rfl
@[simp] theorem takeReaderAnswer_writer (s : State) : (takeReaderAnswer s).ports.writer = s.ports.writer := rfl
@[simp] theorem takeReaderAnswer_writerPos (s : State) : (takeReaderAnswer s).ports.writerPos = s.ports.writerPos := rfl
@[simp] theorem takeReaderAnswer_writerAnswers (s : State) : (takeReaderAnswer s).ports.writerAnswers = s.ports.writerAnswers := rfl
@[simp] theorem takeReaderAnswer_source (s : State) : (takeReaderAnswer s).ports.source = s.ports.source := rfl
@[simp] theorem takeReaderAnswer_sink (s : State) : (takeReaderAnswer s).ports.sink = s.ports.sink := rfl
@[simp] theorem takeReaderAnswer_pulls (s : State) : (takeReaderAnswer s).ports.pulls = s.ports.pulls := rfl

/-! #### `stopReader` -/

@[simp] theorem stopReader_params (why : ReaderStop) (s : State) : (stopReader why s).params = s.params := rfl
@[simp] theorem stopReader_codec (why : ReaderStop) (s : State) : (stopReader why s).codec = s.codec := rfl
@[simp] theorem stopReader_desc (why : ReaderStop) (s : State) : (stopReader why s).desc = s.desc := rfl
@[simp] theorem stopReader_latched (why : ReaderStop) (s : State) : (stopReader why s).latched = s.latched := rfl
@[simp] theorem stopReader_cur (why : ReaderStop) (s : State) : (stopReader why s).cur = s.cur := rfl
@[simp] theorem stopReader_pxcnt (why : ReaderStop) (s : State) : (stopReader why s).pxcnt = s.pxcnt := rfl
@[simp] theorem stopReader_pxtotal (why : ReaderStop) (s : State) : (stopReader why s).pxtotal = s.pxtotal := rfl
@[simp] theorem stopReader_phase (why : ReaderStop) (s : State) : (stopReader why s).phase = s.phase := rfl
@[simp] theorem stopReader_mode (why : ReaderStop) (s : State) : (stopReader why s).mode = s.mode := rfl
@[simp] theorem stopReader_err (why : ReaderStop) (s : State) : (stopReader why s).err = s.err := rfl
@[simp] theorem stopReader_hostRead (why : ReaderStop) (s : State) : (stopReader why s).hostRead = s.hostRead := rfl
@[simp] theorem stopReader_turns (why : ReaderStop) (s : State) : (stopReader why s).turns = s.turns := rfl
@[simp] theorem stopReader_reader (why : ReaderStop) (s : State) : (stopReader why s).ports.reader = s.ports.reader := rfl
@[simp] theorem stopReader_readerPos (why : ReaderStop) (s : State) : (stopReader why s).ports.readerPos = s.ports.readerPos := rfl
@[simp] theorem stopReader_writer (why : ReaderStop) (s : State) : (stopReader why s).ports.writer = s.ports.writer := rfl
@[simp] theorem stopReader_writerPos (why : ReaderStop) (s : State) : (stopReader why s).ports.writerPos = s.ports.writerPos := rfl
@[simp] theorem stopReader_writerAnswers (why : ReaderStop) (s : State) : (stopReader why s).ports.writerAnswers = s.ports.writerAnswers := rfl
@[simp] theorem stopReader_source (why : ReaderStop) (s : State) : (stopReader why s).ports.source = s.ports.source := rfl
@[simp] theorem stopReader_sink (why : ReaderStop) (s : State) : (stopReader why s).ports.sink = s.ports.sink := rfl
@[simp] theorem stopReader_pulls (why : ReaderStop) (s : State) : (stopReader why s).ports.pulls = s.ports.pulls := rfl
@[simp] theorem stopReader_endOfInput_readerAnswers (s : State) : (stopReader .endOfInput s).ports.readerAnswers = [] := rfl
@[simp] theorem stopReader_failed_readerAnswers (s : State) :
    (stopReader .failed s).ports.readerAnswers = s.ports.readerAnswers.tail := rfl

/-! #### `advanceReader` -/

@[simp] theorem advanceReader_params (s : State) : (advanceReader s).params = s.params := rfl
@[simp] theorem advanceReader_codec (s : State) : (advanceReader s).codec = s.codec := rfl
@[simp] theorem advanceReader_desc (s : State) : (advanceReader s).desc = s.desc := rfl
@[simp] theorem advanceReader_latched (s : State) : (advanceReader s).latched = s.latched := rfl
@[simp] theorem advanceReader_cur (s : State) : (advanceReader s).cur = s.cur + 1 := rfl
@[simp] theorem advanceReader_pxcnt (s : State) : (advanceReader s).pxcnt = s.pxcnt := rfl
@[simp] theorem advanceReader_pxtotal (s : State) : (advanceReader s).pxtotal = s.pxtotal := rfl
@[simp] theorem advanceReader_phase (s : State) : (advanceReader s).phase = s.phase := rfl
@[simp] theorem advanceReader_mode (s : State) : (advanceReader s).mode = s.mode := rfl
@[simp] theorem advanceReader_err (s : State) : (advanceReader s).err = s.err := rfl
@[simp] theorem advanceReader_hostRead (s : State) : (advanceReader s).hostRead = s.hostRead := rfl
@[simp] theorem advanceReader_turns (s : State) : (advanceReader s).turns = s.turns := rfl
@[simp] theorem advanceReader_reader (s : State) : (advanceReader s).ports.reader = s.ports.reader := rfl
@[simp] theorem advanceReader_readerPos (s : State) : (advanceReader s).ports.readerPos = s.ports.readerPos + 1 := rfl
@[simp] theorem advanceReader_readerAnswers (s : State) : (advanceReader s).ports.readerAnswers = s.ports.readerAnswers := rfl
@[simp] theorem advanceReader_writer (s : State) : (advanceReader s).ports.writer = s.ports.writer := rfl
@[simp] theorem advanceReader_writerPos (s : State) : (advanceReader s).ports.writerPos = s.ports.writerPos := rfl
@[simp] theorem advanceReader_writerAnswers (s : State) : (advanceReader s).ports.writerAnswers = s.ports.writerAnswers := rfl
@[simp] theorem advanceReader_source (s : State) : (advanceReader s).ports.source = s.ports.source := rfl
@[simp] theorem advanceReader_sink (s : State) : (advanceReader s).ports.sink = s.ports.sink := rfl
@[simp] theorem advanceReader_pulls (s : State) : (advanceReader s).ports.pulls = s.ports.pulls := rfl

/-! #### `takeWriterAnswer` -/

@[simp] theorem takeWriterAnswer_params (s : State) : (takeWriterAnswer s).params = s.params := rfl
@[simp] theorem takeWriterAnswer_codec (s : State) : (takeWriterAnswer s).codec = s.codec := rfl
@[simp] theorem takeWriterAnswer_desc (s : State) : (takeWriterAnswer s).desc = s.desc := rfl
@[simp] theorem takeWriterAnswer_latched (s : State) : (takeWriterAnswer s).latched = s.latched := rfl
@[simp] theorem takeWriterAnswer_cur (s : State) : (takeWriterAnswer s).cur = s.cur := rfl
@[simp] theorem takeWriterAnswer_pxcnt (s : State) : (takeWriterAnswer s).pxcnt = s.pxcnt := rfl
@[simp] theorem takeWriterAnswer_pxtotal (s : State) : (takeWriterAnswer s).pxtotal = s.pxtotal := rfl
@[simp] theorem takeWriterAnswer_phase (s : State) : (takeWriterAnswer s).phase = s.phase := rfl
@[simp] theorem takeWriterAnswer_mode (s : State) : (takeWriterAnswer s).mode = s.mode := rfl
@[simp] theorem takeWriterAnswer_err (s : State) : (takeWriterAnswer s).err = s.err := rfl
@[simp] theorem takeWriterAnswer_hostRead (s : State) : (takeWriterAnswer s).hostRead = s.hostRead := rfl
@[simp] theorem takeWriterAnswer_turns (s : State) : (takeWriterAnswer s).turns = s.turns := rfl
@[simp] theorem takeWriterAnswer_reader (s : State) : (takeWriterAnswer s).ports.reader = s.ports.reader := rfl
@[simp] theorem takeWriterAnswer_readerPos (s : State) : (takeWriterAnswer s).ports.readerPos = s.ports.readerPos := rfl
@[simp] theorem takeWriterAnswer_readerAnswers (s : State) : (takeWriterAnswer s).ports.readerAnswers = s.ports.readerAnswers := rfl
@[simp] theorem takeWriterAnswer_writer (s : State) : (takeWriterAnswer s).ports.writer = s.ports.writer := rfl
@[simp] theorem takeWriterAnswer_writerPos (s : State) : (takeWriterAnswer s).ports.writerPos = s.ports.writerPos := rfl
@[simp] theorem takeWriterAnswer_writerAnswers (s : State) : (takeWriterAnswer s).ports.writerAnswers = s.ports.writerAnswers.tail := rfl
@[simp] theorem takeWriterAnswer_source (s : State) : (takeWriterAnswer s).ports.source = s.ports.source := rfl
@[simp] theorem takeWriterAnswer_sink (s : State) : (takeWriterAnswer s).ports.sink = s.ports.sink := rfl
@[simp] theorem takeWriterAnswer_pulls (s : State) : (takeWriterAnswer s).ports.pulls = s.ports.pulls := rfl

/-! #### `appendBytes` -/

@[simp] theorem appendBytes_params (bytes : List Byte) (s : State) : (appendBytes bytes s).params = s.params := rfl
@[simp] theorem appendBytes_codec (bytes : List Byte) (s : State) : (appendBytes bytes s).codec = s.codec := rfl
@[simp] theorem appendBytes_desc (bytes : List Byte) (s : State) : (appendBytes bytes s).desc = s.desc := rfl
@[simp] theorem appendBytes_latched (bytes : List Byte) (s : State) : (appendBytes bytes s).latched = s.latched := rfl
@[simp] theorem appendBytes_cur (bytes : List Byte) (s : State) : (appendBytes bytes s).cur = s.cur := rfl
@[simp] theorem appendBytes_pxcnt (bytes : List Byte) (s : State) : (appendBytes bytes s).pxcnt = s.pxcnt := rfl
@[simp] theorem appendBytes_pxtotal (bytes : List Byte) (s : State) : (appendBytes bytes s).pxtotal = s.pxtotal := rfl
@[simp] theorem appendBytes_phase (bytes : List Byte) (s : State) : (appendBytes bytes s).phase = s.phase := rfl
@[simp] theorem appendBytes_mode (bytes : List Byte) (s : State) : (appendBytes bytes s).mode = s.mode := rfl
@[simp] theorem appendBytes_err (bytes : List Byte) (s : State) : (appendBytes bytes s).err = s.err := rfl
@[simp] theorem appendBytes_hostRead (bytes : List Byte) (s : State) : (appendBytes bytes s).hostRead = s.hostRead := rfl
@[simp] theorem appendBytes_turns (bytes : List Byte) (s : State) : (appendBytes bytes s).turns = s.turns := rfl
@[simp] theorem appendBytes_reader (bytes : List Byte) (s : State) : (appendBytes bytes s).ports.reader = s.ports.reader := rfl
@[simp] theorem appendBytes_readerPos (bytes : List Byte) (s : State) : (appendBytes bytes s).ports.readerPos = s.ports.readerPos := rfl
@[simp] theorem appendBytes_readerAnswers (bytes : List Byte) (s : State) : (appendBytes bytes s).ports.readerAnswers = s.ports.readerAnswers := rfl
@[simp] theorem appendBytes_writer (bytes : List Byte) (s : State) : (appendBytes bytes s).ports.writer = Memory.writeBytes s.ports.writer s.ports.writerPos bytes := rfl
@[simp] theorem appendBytes_writerPos (bytes : List Byte) (s : State) : (appendBytes bytes s).ports.writerPos = s.ports.writerPos + bytes.length := rfl
@[simp] theorem appendBytes_writerAnswers (bytes : List Byte) (s : State) : (appendBytes bytes s).ports.writerAnswers = s.ports.writerAnswers := rfl
@[simp] theorem appendBytes_source (bytes : List Byte) (s : State) : (appendBytes bytes s).ports.source = s.ports.source := rfl
@[simp] theorem appendBytes_sink (bytes : List Byte) (s : State) : (appendBytes bytes s).ports.sink = s.ports.sink := rfl
@[simp] theorem appendBytes_pulls (bytes : List Byte) (s : State) : (appendBytes bytes s).ports.pulls = s.ports.pulls := rfl

/-! #### `takePixel` -/

@[simp] theorem takePixel_params (s : State) : (takePixel s).params = s.params := rfl
@[simp] theorem takePixel_codec (s : State) : (takePixel s).codec = s.codec := rfl
@[simp] theorem takePixel_desc (s : State) : (takePixel s).desc = s.desc := rfl
@[simp] theorem takePixel_latched (s : State) : (takePixel s).latched = s.latched := rfl
@[simp] theorem takePixel_cur (s : State) : (takePixel s).cur = s.cur := rfl
@[simp] theorem takePixel_pxcnt (s : State) : (takePixel s).pxcnt = s.pxcnt := rfl
@[simp] theorem takePixel_pxtotal (s : State) : (takePixel s).pxtotal = s.pxtotal := rfl
@[simp] theorem takePixel_phase (s : State) : (takePixel s).phase = s.phase := rfl
@[simp] theorem takePixel_mode (s : State) : (takePixel s).mode = s.mode := rfl
@[simp] theorem takePixel_err (s : State) : (takePixel s).err = s.err := rfl
@[simp] theorem takePixel_hostRead (s : State) : (takePixel s).hostRead = s.hostRead := rfl
@[simp] theorem takePixel_turns (s : State) : (takePixel s).turns = s.turns := rfl
@[simp] theorem takePixel_reader (s : State) : (takePixel s).ports.reader = s.ports.reader := rfl
@[simp] theorem takePixel_readerPos (s : State) : (takePixel s).ports.readerPos = s.ports.readerPos := rfl
@[simp] theorem takePixel_readerAnswers (s : State) : (takePixel s).ports.readerAnswers = s.ports.readerAnswers := rfl
@[simp] theorem takePixel_writer (s : State) : (takePixel s).ports.writer = s.ports.writer := rfl
@[simp] theorem takePixel_writerPos (s : State) : (takePixel s).ports.writerPos = s.ports.writerPos := rfl
@[simp] theorem takePixel_writerAnswers (s : State) : (takePixel s).ports.writerAnswers = s.ports.writerAnswers := rfl
@[simp] theorem takePixel_source (s : State) : (takePixel s).ports.source = s.ports.source.tail := rfl
@[simp] theorem takePixel_sink (s : State) : (takePixel s).ports.sink = s.ports.sink := rfl
@[simp] theorem takePixel_pulls (s : State) : (takePixel s).ports.pulls = s.ports.pulls := rfl

/-! #### `takePull` -/

@[simp] theorem takePull_params (s : State) : (takePull s).params = s.params := rfl
@[simp] theorem takePull_codec (s : State) : (takePull s).codec = s.codec := rfl
@[simp] theorem takePull_desc (s : State) : (takePull s).desc = s.desc := rfl
@[simp] theorem takePull_latched (s : State) : (takePull s).latched = s.latched := rfl
@[simp] theorem takePull_cur (s : State) : (takePull s).cur = s.cur := rfl
@[simp] theorem takePull_pxcnt (s : State) : (takePull s).pxcnt = s.pxcnt := rfl
@[simp] theorem takePull_pxtotal (s : State) : (takePull s).pxtotal = s.pxtotal := rfl
@[simp] theorem takePull_phase (s : State) : (takePull s).phase = s.phase := rfl
@[simp] theorem takePull_mode (s : State) : (takePull s).mode = s.mode := rfl
@[simp] theorem takePull_err (s : State) : (takePull s).err = s.err := rfl
@[simp] theorem takePull_hostRead (s : State) : (takePull s).hostRead = s.hostRead := rfl
@[simp] theorem takePull_turns (s : State) : (takePull s).turns = s.turns := rfl
@[simp] theorem takePull_reader (s : State) : (takePull s).ports.reader = s.ports.reader := rfl
@[simp] theorem takePull_readerPos (s : State) : (takePull s).ports.readerPos = s.ports.readerPos := rfl
@[simp] theorem takePull_readerAnswers (s : State) : (takePull s).ports.readerAnswers = s.ports.readerAnswers := rfl
@[simp] theorem takePull_writer (s : State) : (takePull s).ports.writer = s.ports.writer := rfl
@[simp] theorem takePull_writerPos (s : State) : (takePull s).ports.writerPos = s.ports.writerPos := rfl
@[simp] theorem takePull_writerAnswers (s : State) : (takePull s).ports.writerAnswers = s.ports.writerAnswers := rfl
@[simp] theorem takePull_source (s : State) : (takePull s).ports.source = s.ports.source := rfl
@[simp] theorem takePull_sink (s : State) : (takePull s).ports.sink = s.ports.sink := rfl
@[simp] theorem takePull_pulls (s : State) : (takePull s).ports.pulls = s.ports.pulls - 1 := rfl

/-! #### `afterPulls` -/

@[simp] theorem afterPulls_params (n : Nat) (s : State) : (afterPulls n s).params = s.params := rfl
@[simp] theorem afterPulls_codec (n : Nat) (s : State) : (afterPulls n s).codec = s.codec := rfl
@[simp] theorem afterPulls_desc (n : Nat) (s : State) : (afterPulls n s).desc = s.desc := rfl
@[simp] theorem afterPulls_latched (n : Nat) (s : State) : (afterPulls n s).latched = s.latched := rfl
@[simp] theorem afterPulls_cur (n : Nat) (s : State) : (afterPulls n s).cur = s.cur + n := rfl
@[simp] theorem afterPulls_pxcnt (n : Nat) (s : State) : (afterPulls n s).pxcnt = s.pxcnt := rfl
@[simp] theorem afterPulls_pxtotal (n : Nat) (s : State) : (afterPulls n s).pxtotal = s.pxtotal := rfl
@[simp] theorem afterPulls_phase (n : Nat) (s : State) : (afterPulls n s).phase = s.phase := rfl
@[simp] theorem afterPulls_mode (n : Nat) (s : State) : (afterPulls n s).mode = s.mode := rfl
@[simp] theorem afterPulls_err (n : Nat) (s : State) : (afterPulls n s).err = s.err := rfl
@[simp] theorem afterPulls_hostRead (n : Nat) (s : State) : (afterPulls n s).hostRead = s.hostRead := rfl
@[simp] theorem afterPulls_turns (n : Nat) (s : State) : (afterPulls n s).turns = s.turns := rfl
@[simp] theorem afterPulls_reader (n : Nat) (s : State) : (afterPulls n s).ports.reader = s.ports.reader := rfl
@[simp] theorem afterPulls_readerPos (n : Nat) (s : State) : (afterPulls n s).ports.readerPos = s.ports.readerPos + n := rfl
@[simp] theorem afterPulls_readerAnswers (n : Nat) (s : State) : (afterPulls n s).ports.readerAnswers = s.ports.readerAnswers.drop n := rfl
@[simp] theorem afterPulls_writer (n : Nat) (s : State) : (afterPulls n s).ports.writer = s.ports.writer := rfl
@[simp] theorem afterPulls_writerPos (n : Nat) (s : State) : (afterPulls n s).ports.writerPos = s.ports.writerPos := rfl
@[simp] theorem afterPulls_writerAnswers (n : Nat) (s : State) : (afterPulls n s).ports.writerAnswers = s.ports.writerAnswers := rfl
@[simp] theorem afterPulls_source (n : Nat) (s : State) : (afterPulls n s).ports.source = s.ports.source := rfl
@[simp] theorem afterPulls_sink (n : Nat) (s : State) : (afterPulls n s).ports.sink = s.ports.sink := rfl
@[simp] theorem afterPulls_pulls (n : Nat) (s : State) : (afterPulls n s).ports.pulls = s.ports.pulls := rfl

/-! #### `afterEmits` -/

@[simp] theorem afterEmits_params (n : Nat) (bytes : List Byte) (s : State) : (afterEmits n bytes s).params = s.params := rfl
@[simp] theorem afterEmits_codec (n : Nat) (bytes : List Byte) (s : State) : (afterEmits n bytes s).codec = s.codec := rfl
@[simp] theorem afterEmits_desc (n : Nat) (bytes : List Byte) (s : State) : (afterEmits n bytes s).desc = s.desc := rfl
@[simp] theorem afterEmits_latched (n : Nat) (bytes : List Byte) (s : State) : (afterEmits n bytes s).latched = s.latched := rfl
@[simp] theorem afterEmits_cur (n : Nat) (bytes : List Byte) (s : State) : (afterEmits n bytes s).cur = s.cur + bytes.length := rfl
@[simp] theorem afterEmits_pxcnt (n : Nat) (bytes : List Byte) (s : State) : (afterEmits n bytes s).pxcnt = s.pxcnt := rfl
@[simp] theorem afterEmits_pxtotal (n : Nat) (bytes : List Byte) (s : State) : (afterEmits n bytes s).pxtotal = s.pxtotal := rfl
@[simp] theorem afterEmits_phase (n : Nat) (bytes : List Byte) (s : State) : (afterEmits n bytes s).phase = s.phase := rfl
@[simp] theorem afterEmits_mode (n : Nat) (bytes : List Byte) (s : State) : (afterEmits n bytes s).mode = s.mode := rfl
@[simp] theorem afterEmits_err (n : Nat) (bytes : List Byte) (s : State) : (afterEmits n bytes s).err = s.err := rfl
@[simp] theorem afterEmits_hostRead (n : Nat) (bytes : List Byte) (s : State) : (afterEmits n bytes s).hostRead = s.hostRead := rfl
@[simp] theorem afterEmits_turns (n : Nat) (bytes : List Byte) (s : State) : (afterEmits n bytes s).turns = s.turns := rfl
@[simp] theorem afterEmits_reader (n : Nat) (bytes : List Byte) (s : State) : (afterEmits n bytes s).ports.reader = s.ports.reader := rfl
@[simp] theorem afterEmits_readerPos (n : Nat) (bytes : List Byte) (s : State) : (afterEmits n bytes s).ports.readerPos = s.ports.readerPos := rfl
@[simp] theorem afterEmits_readerAnswers (n : Nat) (bytes : List Byte) (s : State) : (afterEmits n bytes s).ports.readerAnswers = s.ports.readerAnswers := rfl
@[simp] theorem afterEmits_writer (n : Nat) (bytes : List Byte) (s : State) : (afterEmits n bytes s).ports.writer = Memory.writeBytes s.ports.writer s.ports.writerPos bytes := rfl
@[simp] theorem afterEmits_writerPos (n : Nat) (bytes : List Byte) (s : State) : (afterEmits n bytes s).ports.writerPos = s.ports.writerPos + bytes.length := rfl
@[simp] theorem afterEmits_writerAnswers (n : Nat) (bytes : List Byte) (s : State) : (afterEmits n bytes s).ports.writerAnswers = s.ports.writerAnswers.drop n := rfl
@[simp] theorem afterEmits_source (n : Nat) (bytes : List Byte) (s : State) : (afterEmits n bytes s).ports.source = s.ports.source := rfl
@[simp] theorem afterEmits_sink (n : Nat) (bytes : List Byte) (s : State) : (afterEmits n bytes s).ports.sink = s.ports.sink := rfl
@[simp] theorem afterEmits_pulls (n : Nat) (bytes : List Byte) (s : State) : (afterEmits n bytes s).ports.pulls = s.ports.pulls := rfl

/-! #### `closeDecodeBody` -/

@[simp] theorem closeDecodeBody_params (s : State) : (closeDecodeBody s).params = s.params := by unfold closeDecodeBody; split <;> rfl
@[simp] theorem closeDecodeBody_codec (s : State) : (closeDecodeBody s).codec = s.codec := by unfold closeDecodeBody; split <;> rfl
@[simp] theorem closeDecodeBody_desc (s : State) : (closeDecodeBody s).desc = s.desc := by unfold closeDecodeBody; split <;> rfl
@[simp] theorem closeDecodeBody_latched (s : State) : (closeDecodeBody s).latched = s.latched := by unfold closeDecodeBody; split <;> rfl
@[simp] theorem closeDecodeBody_cur (s : State) : (closeDecodeBody s).cur = s.cur := by unfold closeDecodeBody; split <;> rfl
@[simp] theorem closeDecodeBody_pxcnt (s : State) : (closeDecodeBody s).pxcnt = s.pxcnt := by unfold closeDecodeBody; split <;> rfl
@[simp] theorem closeDecodeBody_pxtotal (s : State) : (closeDecodeBody s).pxtotal = s.pxtotal := by unfold closeDecodeBody; split <;> rfl
@[simp] theorem closeDecodeBody_mode (s : State) : (closeDecodeBody s).mode = s.mode := by unfold closeDecodeBody; split <;> rfl
@[simp] theorem closeDecodeBody_err (s : State) : (closeDecodeBody s).err = s.err := by unfold closeDecodeBody; split <;> rfl
@[simp] theorem closeDecodeBody_hostRead (s : State) : (closeDecodeBody s).hostRead = s.hostRead := by unfold closeDecodeBody; split <;> rfl
@[simp] theorem closeDecodeBody_turns (s : State) : (closeDecodeBody s).turns = s.turns := by unfold closeDecodeBody; split <;> rfl
@[simp] theorem closeDecodeBody_ports (s : State) : (closeDecodeBody s).ports = s.ports := by unfold closeDecodeBody; split <;> rfl

theorem closeDecodeBody_phase (s : State) : (closeDecodeBody s).phase =
    if s.pxcnt = s.pxtotal then (if s.params.strictTrailer then .dTrl else .done) else s.phase := by
  unfold closeDecodeBody; split <;> rfl


/-! #### `yieldPixel` -/

@[simp] theorem yieldPixel_params (px : Pixel) (s : State) : (yieldPixel px s).params = s.params := by simp [yieldPixel]
@[simp] theorem yieldPixel_codec (px : Pixel) (s : State) : (yieldPixel px s).codec = s.codec := by simp [yieldPixel]
@[simp] theorem yieldPixel_desc (px : Pixel) (s : State) : (yieldPixel px s).desc = s.desc := by simp [yieldPixel]
@[simp] theorem yieldPixel_latched (px : Pixel) (s : State) : (yieldPixel px s).latched = s.latched := by simp [yieldPixel]
@[simp] theorem yieldPixel_cur (px : Pixel) (s : State) : (yieldPixel px s).cur = s.cur := by simp [yieldPixel]
@[simp] theorem yieldPixel_pxcnt (px : Pixel) (s : State) : (yieldPixel px s).pxcnt = s.pxcnt + 1 := by simp [yieldPixel]
@[simp] theorem yieldPixel_pxtotal (px : Pixel) (s : State) : (yieldPixel px s).pxtotal = s.pxtotal := by simp [yieldPixel]
@[simp] theorem yieldPixel_mode (px : Pixel) (s : State) : (yieldPixel px s).mode = s.mode := by simp [yieldPixel]
@[simp] theorem yieldPixel_err (px : Pixel) (s : State) : (yieldPixel px s).err = s.err := by simp [yieldPixel]
@[simp] theorem yieldPixel_hostRead (px : Pixel) (s : State) : (yieldPixel px s).hostRead = s.hostRead := by simp [yieldPixel]
@[simp] theorem yieldPixel_turns (px : Pixel) (s : State) : (yieldPixel px s).turns = s.turns := by simp [yieldPixel]
@[simp] theorem yieldPixel_reader (px : Pixel) (s : State) : (yieldPixel px s).ports.reader = s.ports.reader := by simp [yieldPixel]
@[simp] theorem yieldPixel_readerPos (px : Pixel) (s : State) : (yieldPixel px s).ports.readerPos = s.ports.readerPos := by simp [yieldPixel]
@[simp] theorem yieldPixel_readerAnswers (px : Pixel) (s : State) : (yieldPixel px s).ports.readerAnswers = s.ports.readerAnswers := by simp [yieldPixel]
@[simp] theorem yieldPixel_writer (px : Pixel) (s : State) : (yieldPixel px s).ports.writer = s.ports.writer := by simp [yieldPixel]
@[simp] theorem yieldPixel_writerPos (px : Pixel) (s : State) : (yieldPixel px s).ports.writerPos = s.ports.writerPos := by simp [yieldPixel]
@[simp] theorem yieldPixel_writerAnswers (px : Pixel) (s : State) : (yieldPixel px s).ports.writerAnswers = s.ports.writerAnswers := by simp [yieldPixel]
@[simp] theorem yieldPixel_source (px : Pixel) (s : State) : (yieldPixel px s).ports.source = s.ports.source := by simp [yieldPixel]
@[simp] theorem yieldPixel_sink (px : Pixel) (s : State) : (yieldPixel px s).ports.sink = s.ports.sink ++ [px] := by simp [yieldPixel]
@[simp] theorem yieldPixel_pulls (px : Pixel) (s : State) : (yieldPixel px s).ports.pulls = s.ports.pulls := by simp [yieldPixel]

theorem yieldPixel_phase (px : Pixel) (s : State) : (yieldPixel px s).phase =
    if s.pxcnt + 1 = s.pxtotal then (if s.params.strictTrailer then .dTrl else .done) else s.phase := by
  simp [yieldPixel, closeDecodeBody_phase]


/-! #### `reconstruct` -/

@[simp] theorem reconstruct_params (px : Pixel) (s : State) : (reconstruct px s).params = s.params := by simp [reconstruct]
@[simp] theorem reconstruct_codec (px : Pixel) (s : State) : (reconstruct px s).codec = { cacheUpdate px s.codec with prev := px } := by simp [reconstruct]
@[simp] theorem reconstruct_desc (px : Pixel) (s : State) : (reconstruct px s).desc = s.desc := by simp [reconstruct]
@[simp] theorem reconstruct_latched (px : Pixel) (s : State) : (reconstruct px s).latched = s.latched := by simp [reconstruct]
@[simp] theorem reconstruct_cur (px : Pixel) (s : State) : (reconstruct px s).cur = s.cur := by simp [reconstruct]
@[simp] theorem reconstruct_pxcnt (px : Pixel) (s : State) : (reconstruct px s).pxcnt = s.pxcnt + 1 := by simp [reconstruct]
@[simp] theorem reconstruct_pxtotal (px : Pixel) (s : State) : (reconstruct px s).pxtotal = s.pxtotal := by simp [reconstruct]
@[simp] theorem reconstruct_mode (px : Pixel) (s : State) : (reconstruct px s).mode = s.mode := by simp [reconstruct]
@[simp] theorem reconstruct_err (px : Pixel) (s : State) : (reconstruct px s).err = s.err := by simp [reconstruct]
@[simp] theorem reconstruct_hostRead (px : Pixel) (s : State) : (reconstruct px s).hostRead = s.hostRead := by simp [reconstruct]
@[simp] theorem reconstruct_turns (px : Pixel) (s : State) : (reconstruct px s).turns = s.turns := by simp [reconstruct]
@[simp] theorem reconstruct_reader (px : Pixel) (s : State) : (reconstruct px s).ports.reader = s.ports.reader := by simp [reconstruct]
@[simp] theorem reconstruct_readerPos (px : Pixel) (s : State) : (reconstruct px s).ports.readerPos = s.ports.readerPos := by simp [reconstruct]
@[simp] theorem reconstruct_readerAnswers (px : Pixel) (s : State) : (reconstruct px s).ports.readerAnswers = s.ports.readerAnswers := by simp [reconstruct]
@[simp] theorem reconstruct_writer (px : Pixel) (s : State) : (reconstruct px s).ports.writer = s.ports.writer := by simp [reconstruct]
@[simp] theorem reconstruct_writerPos (px : Pixel) (s : State) : (reconstruct px s).ports.writerPos = s.ports.writerPos := by simp [reconstruct]
@[simp] theorem reconstruct_writerAnswers (px : Pixel) (s : State) : (reconstruct px s).ports.writerAnswers = s.ports.writerAnswers := by simp [reconstruct]
@[simp] theorem reconstruct_source (px : Pixel) (s : State) : (reconstruct px s).ports.source = s.ports.source := by simp [reconstruct]
@[simp] theorem reconstruct_sink (px : Pixel) (s : State) : (reconstruct px s).ports.sink = s.ports.sink ++ [px] := by simp [reconstruct]
@[simp] theorem reconstruct_pulls (px : Pixel) (s : State) : (reconstruct px s).ports.pulls = s.ports.pulls := by simp [reconstruct]

theorem reconstruct_phase (px : Pixel) (s : State) : (reconstruct px s).phase =
    if s.pxcnt + 1 = s.pxtotal then (if s.params.strictTrailer then .dTrl else .done) else s.phase := by
  simp [reconstruct, yieldPixel_phase]


/-! #### `reYield` -/

@[simp] theorem reYield_params (s : State) : (reYield s).params = s.params := by simp [reYield]
@[simp] theorem reYield_codec (s : State) : (reYield s).codec = { s.codec with run := s.codec.run - 1 } := by simp [reYield]
@[simp] theorem reYield_desc (s : State) : (reYield s).desc = s.desc := by simp [reYield]
@[simp] theorem reYield_latched (s : State) : (reYield s).latched = s.latched := by simp [reYield]
@[simp] theorem reYield_cur (s : State) : (reYield s).cur = s.cur := by simp [reYield]
@[simp] theorem reYield_pxcnt (s : State) : (reYield s).pxcnt = s.pxcnt + 1 := by simp [reYield]
@[simp] theorem reYield_pxtotal (s : State) : (reYield s).pxtotal = s.pxtotal := by simp [reYield]
@[simp] theorem reYield_mode (s : State) : (reYield s).mode = s.mode := by simp [reYield]
@[simp] theorem reYield_err (s : State) : (reYield s).err = s.err := by simp [reYield]
@[simp] theorem reYield_hostRead (s : State) : (reYield s).hostRead = s.hostRead := by simp [reYield]
@[simp] theorem reYield_turns (s : State) : (reYield s).turns = s.turns := by simp [reYield]
@[simp] theorem reYield_reader (s : State) : (reYield s).ports.reader = s.ports.reader := by simp [reYield]
@[simp] theorem reYield_readerPos (s : State) : (reYield s).ports.readerPos = s.ports.readerPos := by simp [reYield]
@[simp] theorem reYield_readerAnswers (s : State) : (reYield s).ports.readerAnswers = s.ports.readerAnswers := by simp [reYield]
@[simp] theorem reYield_writer (s : State) : (reYield s).ports.writer = s.ports.writer := by simp [reYield]
@[simp] theorem reYield_writerPos (s : State) : (reYield s).ports.writerPos = s.ports.writerPos := by simp [reYield]
@[simp] theorem reYield_writerAnswers (s : State) : (reYield s).ports.writerAnswers = s.ports.writerAnswers := by simp [reYield]
@[simp] theorem reYield_source (s : State) : (reYield s).ports.source = s.ports.source := by simp [reYield]
@[simp] theorem reYield_sink (s : State) : (reYield s).ports.sink = s.ports.sink ++ [s.codec.prev] := by simp [reYield]
@[simp] theorem reYield_pulls (s : State) : (reYield s).ports.pulls = s.ports.pulls := by simp [reYield]

theorem reYield_phase (s : State) : (reYield s).phase =
    if s.pxcnt + 1 = s.pxtotal then (if s.params.strictTrailer then .dTrl else .done) else s.phase := by
  simp [reYield, yieldPixel_phase]


end Sys2Proof.Machine
end

