-- ==== Sys2Proof/Laws/Codec.lean ====
section
/-! SUPPORT. The cache operations by slot, and the codec invariant under each of them (41_cache_controller.md). -/

namespace Sys2Proof.Machine

theorem slotAt_cacheUpdate (px : Pixel) (c : Codec) (i : Fin 64) :
    slotAt i (cacheUpdate px c) = if i = pixelHash px then px else slotAt i c := by
  simp only [slotAt, cacheUpdate, Fin.getElem_fin, Vector.getElem_set, Fin.ext_iff, eq_comm]

@[simp] theorem slotAt_cacheUpdate_self (px : Pixel) (c : Codec) : slotAt (pixelHash px) (cacheUpdate px c) = px := by
  simp [slotAt_cacheUpdate]

@[simp] theorem cacheUpdate_prev (px : Pixel) (c : Codec) : (cacheUpdate px c).prev = c.prev := rfl
@[simp] theorem cacheUpdate_run (px : Pixel) (c : Codec) : (cacheUpdate px c).run = c.run := rfl

/-- Slots read the cache alone. -/
@[simp] theorem slotAt_mk (i : Fin 64) (p : Pixel) (n : Nat) (c : Codec) : slotAt i ⟨p, n, c.cache⟩ = slotAt i c := rfl

@[simp] theorem slotAt_initial (i : Fin 64) : slotAt i Codec.initial = Config.slotInit := by
  simp [slotAt, Codec.initial]

theorem SlotsHashed_initial : SlotsHashed Codec.initial := fun k => .inl (slotAt_initial k)

theorem SlotsHashed_mk {c : Codec} (h : SlotsHashed c) (p : Pixel) (n : Nat) : SlotsHashed ⟨p, n, c.cache⟩ := h

/-- The one write of the cache keeps the slot invariant (R168). -/
theorem SlotsHashed_cacheUpdate {c : Codec} (h : SlotsHashed c) (px : Pixel) : SlotsHashed (cacheUpdate px c) := by
  intro k
  rw [slotAt_cacheUpdate]
  split
  · next hk => exact .inr hk.symm
  · exact h k

theorem CodecInv_initial : CodecInv Codec.initial := ⟨by decide, SlotsHashed_initial⟩

/-- The hit test is exact equality (R163, R173). -/
theorem cacheHit_iff (px : Pixel) (c : Codec) : cacheHit px c = true ↔ slotAt (pixelHash px) c = px := by
  simp [cacheHit]

/-- Writing a slot with what it holds changes nothing (R169, R175). -/
theorem cacheUpdate_of_hit {px : Pixel} {c : Codec} (h : slotAt (pixelHash px) c = px) (i : Fin 64) :
    slotAt i (cacheUpdate px c) = slotAt i c := by
  rw [slotAt_cacheUpdate]
  split
  · next hi => rw [hi, h]
  · rfl

end Sys2Proof.Machine
end

