-- ==== Sys2Proof/Laws/Encoding.lean ====
section
/-! SUPPORT. The decoder and the encoder as arithmetic on byte values (30_encoding.md): one lemma per field, and the body decoder as a
case split on the tag byte's number. -/

namespace Sys2Proof

/-! ### Operand ranges -/

theorem wf_diff {dr dg db : Int} : (Instr.diff dr dg db).wellFormed = true ↔ (-2 ≤ dr ∧ dr ≤ 1) ∧ (-2 ≤ dg ∧ dg ≤ 1) ∧ (-2 ≤ db ∧ db ≤ 1) := by
  simp [Instr.wellFormed, inDiffRange, and_assoc]
theorem wf_luma {dg drg dbg : Int} : (Instr.luma dg drg dbg).wellFormed = true ↔ (-32 ≤ dg ∧ dg ≤ 31) ∧ (-8 ≤ drg ∧ drg ≤ 7) ∧ (-8 ≤ dbg ∧ dbg ≤ 7) := by
  simp [Instr.wellFormed, inLumaGreenRange, inLumaCrossRange, and_assoc]
theorem wf_run {n : Nat} : (Instr.run n).wellFormed = true ↔ 1 ≤ n ∧ n ≤ 62 := by
  simp [Instr.wellFormed, inRunRange]

/-! ### Fields as arithmetic -/

theorem field_eq (b : Byte) (lo w : Nat) : field b lo w = b.toNat / 2 ^ lo % 2 ^ w := by
  simp [field, BitVec.extractLsb'_toNat, Nat.shiftRight_eq_div_pow]

theorem top2 (b : Byte) (k : Nat) (hk : k < 4): (b.extractLsb' 6 2 = BitVec.ofNat 2 k) ↔ b.toNat / 64 = k := by
  rw [← BitVec.toNat_inj, BitVec.extractLsb'_toNat, Nat.shiftRight_eq_div_pow, BitVec.toNat_ofNat]
  have := b.isLt
  omega

/-- The body decoder as a case split on the tag byte's number (R103, R111). -/
theorem decodeBody_cons (b1 : Byte) (rest : List Byte) : decodeBody (b1 :: rest) =
   if b1.toNat = 0xFE then (match rest with | r :: g :: b :: rest' => .ok (.rgb r g b, rest') | _ => .error .truncatedPayload)
   else if b1.toNat = 0xFF then (match rest with | r :: g :: b :: a :: rest' => .ok (.rgba r g b a, rest') | _ => .error .truncatedPayload)
   else if b1.toNat ≤ 0x3F then .ok (.index (Fin.ofNat 64 b1.toNat), rest)
   else if b1.toNat ≤ 0x7F then .ok (.diff ((b1.toNat / 16 % 4 : Nat) - 2 : Int) ((b1.toNat / 4 % 4 : Nat) - 2 : Int) ((b1.toNat % 4 : Nat) - 2 : Int), rest)
   else if b1.toNat ≤ 0xBF then (match rest with
      | b2 :: rest' => .ok (.luma ((b1.toNat % 64 : Nat) - 32 : Int) ((b2.toNat / 16 : Nat) - 8 : Int) ((b2.toNat % 16 : Nat) - 8 : Int), rest')
      | _ => .error .truncatedPayload)
   else .ok (.run (b1.toNat - 0xC0 + 1), rest) := by
  have hlt := b1.isLt
  have e1 : (b1 = Config.tagRgb) ↔ b1.toNat = 0xFE := by rw [← BitVec.toNat_inj]; rfl
  have e2 : (b1 = Config.tagRgba) ↔ b1.toNat = 0xFF := by rw [← BitVec.toNat_inj]; rfl
  have t0 := top2 b1 0 (by omega)
  have t1 := top2 b1 1 (by omega)
  have t2 := top2 b1 2 (by omega)
  simp only [decodeBody, e1, e2, t0, t1, t2]
  split
  · rfl
  split
  · rfl
  rename_i n1 n2
  by_cases h0 : b1.toNat / 64 = 0
  · rw [if_pos h0, if_pos (show b1.toNat ≤ 0x3F by omega)]
    have : (b1.extractLsb' 0 6).toFin = Fin.ofNat 64 b1.toNat := by
      apply Fin.ext
      show (b1.extractLsb' 0 6).toNat = b1.toNat % 64
      simp
    exact congrArg (fun k => Except.ok (Instr.index k, rest)) this
  rw [if_neg h0, if_neg (show ¬ b1.toNat ≤ 0x3F by omega)]
  by_cases h1 : b1.toNat / 64 = 1
  · rw [if_pos h1, if_pos (show b1.toNat ≤ 0x7F by omega)]
    simp [unbias, field_eq, Config.diffBias]
  rw [if_neg h1, if_neg (show ¬ b1.toNat ≤ 0x7F by omega)]
  by_cases h2 : b1.toNat / 64 = 2
  · rw [if_pos h2, if_pos (show b1.toNat ≤ 0xBF by omega)]
    cases rest with
    | nil => rfl
    | cons b2 r =>
      have := b2.isLt
      have e : b2.toNat / 2 ^ 4 % 2 ^ 4 = b2.toNat / 16 := by omega
      simp only [unbias, field_eq, Config.lumaGBias, Config.lumaXBias, Nat.pow_zero, Nat.div_one, e]
      rfl
  · rw [if_neg h2, if_neg (show ¬ b1.toNat ≤ 0xBF by omega)]
    have : field b1 0 6 + Config.runBias = b1.toNat - 0xC0 + 1 := by
      simp only [field_eq, Config.runBias]; omega
    rw [this]

/-! ### Encoded bytes as arithmetic -/

theorem toNat_index (i : Fin 64) : (0x00#8 ||| BitVec.ofNat 8 i.val).toNat = i.val := by revert i; decide
theorem toNat_run (n : Fin 64) : (0xC0#8 ||| BitVec.ofNat 8 n.val).toNat = 0xC0 + n.val := by revert n; decide
theorem toNat_diff : ∀ x y z : Fin 4, (0x40#8 ||| (biased ((x.val:Int)-2) Config.diffBias <<< 4) ||| (biased ((y.val:Int)-2) Config.diffBias <<< 2) ||| biased ((z.val:Int)-2) Config.diffBias).toNat = 0x40 + x.val*16 + y.val*4 + z.val := by decide
theorem toNat_luma1 : ∀ x : Fin 64, (0x80#8 ||| biased ((x.val:Int)-32) Config.lumaGBias).toNat = 0x80 + x.val := by decide
theorem toNat_luma2 : ∀ x y : Fin 16, ((biased ((x.val:Int)-8) Config.lumaXBias <<< 4) ||| biased ((y.val:Int)-8) Config.lumaXBias).toNat = x.val*16 + y.val := by decide

theorem int_repr (d bias : Int) (n : Nat) (h1 : -bias ≤ d) (h2 : d < n - bias) : ∃ x : Fin n, d = (x.val : Int) - bias :=
  ⟨⟨(d + bias).toNat, by omega⟩, by simp; omega⟩

theorem toNat_append' {n m : Nat} (x : BitVec n) (y : BitVec m) : (x ++ y).toNat = x.toNat * 2 ^ m + y.toNat := by
  rw [BitVec.toNat_append, ← Nat.shiftLeft_add_eq_or_of_lt y.isLt, Nat.shiftLeft_eq]

theorem unbe32_toNat (b3 b2 b1 b0 : Byte) : (unbe32 b3 b2 b1 b0).toNat = ((b3.toNat * 256 + b2.toNat) * 256 + b1.toNat) * 256 + b0.toNat := by
  show ((b3 ++ b2 ++ b1 ++ b0 : BitVec (8+8+8+8))).toNat = _
  rw [toNat_append', toNat_append', toNat_append']; rfl

theorem unbe32_be32 (v : Word32) : unbe32 (v.extractLsb' 24 8) (v.extractLsb' 16 8) (v.extractLsb' 8 8) (v.extractLsb' 0 8) = v := by
  apply BitVec.eq_of_toNat_eq
  rw [unbe32_toNat]
  simp only [BitVec.extractLsb'_toNat, Nat.shiftRight_eq_div_pow]
  have := v.isLt
  omega

theorem be32_unbe32 (b3 b2 b1 b0 : Byte) : be32 (unbe32 b3 b2 b1 b0) = [b3, b2, b1, b0] := by
  have h := unbe32_toNat b3 b2 b1 b0
  have := b3.isLt; have := b2.isLt; have := b1.isLt; have := b0.isLt
  have e : ∀ (x y : Byte), x.toNat = y.toNat → x = y := fun x y => BitVec.eq_of_toNat_eq
  unfold be32
  refine congrArg₂ _ (e _ _ ?_) (congrArg₂ _ (e _ _ ?_) (congrArg₂ _ (e _ _ ?_) (congrArg₂ _ (e _ _ ?_) rfl))) <;>
  (simp only [BitVec.extractLsb'_toNat, Nat.shiftRight_eq_div_pow, h]; omega)

theorem be32_toNat (v : Word32) : (be32 v).map BitVec.toNat =
    [v.toNat / 2 ^ 24, v.toNat / 2 ^ 16 % 256, v.toNat / 2 ^ 8 % 256, v.toNat % 256] := by
  have := v.isLt
  simp only [be32, List.map_cons, List.map_nil, BitVec.extractLsb'_toNat, Nat.shiftRight_eq_div_pow]
  have : v.toNat / 2^24 % 2^8 = v.toNat / 2^24 := by omega
  rw [this]; simp

theorem byte_ext {x y : Byte} (h : x.toNat = y.toNat) : x = y := BitVec.eq_of_toNat_eq h

/-! ### Record lengths and complete records -/

/-- `len(b1)` by the tag byte's number (R110). -/
theorem recordLength_eq (b1 : Byte) : recordLength b1 = if b1.toNat = 0xFE then 4 else if b1.toNat = 0xFF then 5 else if 0x80 ≤ b1.toNat ∧ b1.toNat ≤ 0xBF then 2 else 1 := by
  have hlt := b1.isLt
  have e1 : (b1 = Config.tagRgb) ↔ b1.toNat = 0xFE := by rw [← BitVec.toNat_inj]; rfl
  have e2 : (b1 = Config.tagRgba) ↔ b1.toNat = 0xFF := by rw [← BitVec.toNat_inj]; rfl
  have t2 := top2 b1 2 (by omega)
  simp only [recordLength, e1, e2, t2]
  repeat' split
  all_goals omega

/-- A tag byte with its whole payload is a record of exactly its length; with less it is truncated (R110, R113). -/
theorem decodeBody_short (b1 : Byte) (p : List Byte) : 
   ((b1 :: p).length < recordLength b1 → decodeBody (b1::p) = .error .truncatedPayload) ∧
   (recordLength b1 ≤ (b1 :: p).length → ∃ i, decodeBody (b1 :: p) = .ok (i, (b1 :: p).drop (recordLength b1))) := by
  rw [decodeBody_cons, recordLength_eq]
  have := b1.isLt
  split
  · rcases p with _ | ⟨x, _ | ⟨y, _ | ⟨z, p⟩⟩⟩ <;> simp
  split
  · rcases p with _ | ⟨x, _ | ⟨y, _ | ⟨z, _ | ⟨w, p⟩⟩⟩⟩ <;> simp
  by_cases hl : 0x80 ≤ b1.toNat ∧ b1.toNat ≤ 0xBF
  · rw [if_pos hl, if_neg (show ¬ b1.toNat ≤ 0x3F by omega), if_neg (show ¬ b1.toNat ≤ 0x7F by omega), if_pos (show b1.toNat ≤ 0xBF by omega)]
    rcases p with _ | ⟨x, p⟩ <;> simp
  · rw [if_neg hl]
    repeat' split
    all_goals first | omega | simp

/-- What the body decoder accepts is in range and an opcode (R111). -/
theorem decodeBody_wellFormed {bytes rest : List Byte} {i : Instr} (h : decodeBody bytes = .ok (i, rest)) :
    i.wellFormed = true ∧ i.position = .body := by
  cases bytes with
  | nil => simp [decodeBody] at h
  | cons b1 r =>
    have hb := b1.isLt
    rw [decodeBody_cons] at h
    split at h
    · split at h <;> cases h; exact ⟨rfl, rfl⟩
    split at h
    · split at h <;> cases h; exact ⟨rfl, rfl⟩
    split at h
    · cases h; exact ⟨rfl, rfl⟩
    split at h
    · cases h; exact ⟨wf_diff.2 ⟨by omega, by omega, by omega⟩, rfl⟩
    split at h
    · split at h <;> cases h
      rename_i b2
      have hb2 := b2.isLt
      exact ⟨wf_luma.2 ⟨by omega, by omega, by omega⟩, rfl⟩
    · cases h; exact ⟨wf_run.2 ⟨by omega, by omega⟩, rfl⟩

theorem recordLength_pos (b1 : Byte) : 1 ≤ recordLength b1 ∧ recordLength b1 ≤ 5 := by
  rw [recordLength_eq]; repeat' split
  all_goals omega

end Sys2Proof
end

