-- ==== Sys2Proof/Laws/Memory.lean ====
section
/-! SUPPORT. A stream reads back what was written and nothing else, and every write keeps the canonical form. -/

namespace Sys2Proof.Machine

@[simp] theorem Memory.read_nil (x : Nat) : Memory.read [] x = none := rfl

theorem Memory.read_write (m : Memory) (a : Nat) (v : Byte) (x : Nat) :
    Memory.read (Memory.write m a v) x = if x = a then some v else Memory.read m x := by
  induction m with
  | nil => simp [Memory.write, Memory.read]
  | cons c m ih =>
    obtain ⟨k, b⟩ := c
    simp only [Memory.write]
    split
    · simp [Memory.read]
    · split
      · next h => subst h; simp only [Memory.read]; split <;> rfl
      · simp only [Memory.read, ih]
        split
        · next h1 h2 h3 => subst h3; rw [if_neg (Ne.symm h2)]
        · rfl

/-- A run of written bytes reads back; every other offset reads as before. -/
theorem Memory.read_writeBytes (m : Memory) (a : Nat) (bs : List Byte) (x : Nat) :
    Memory.read (Memory.writeBytes m a bs) x =
      if a ≤ x ∧ x < a + bs.length then bs[x - a]? else Memory.read m x := by
  induction bs generalizing m a with
  | nil => simp only [Memory.writeBytes, List.length_nil]; rw [if_neg (by omega)]
  | cons b bs ih =>
    simp only [Memory.writeBytes, ih, Memory.read_write, List.length_cons]
    by_cases hx : x = a
    · subst hx
      rw [if_neg (by omega), if_pos rfl, if_pos (by omega)]
      simp
    · by_cases h : a + 1 ≤ x ∧ x < a + 1 + bs.length
      · rw [if_pos h, if_pos (by omega)]
        have : x - a = (x - (a + 1)) + 1 := by omega
        rw [this, List.getElem?_cons_succ]
      · rw [if_neg h, if_neg hx, if_neg (by omega)]

theorem Memory.fst_mem_write (m : Memory) (a : Nat) (v : Byte) :
    ∀ e ∈ Memory.write m a v, e.1 = a ∨ e ∈ m := by
  induction m with
  | nil => simp [Memory.write]
  | cons c m ih =>
    obtain ⟨k, b⟩ := c
    intro e he
    simp only [Memory.write] at he
    split at he
    · simp only [List.mem_cons] at he ⊢
      rcases he with rfl | h
      · exact .inl rfl
      · exact .inr h
    · split at he
      · simp only [List.mem_cons] at he ⊢
        rcases he with rfl | h
        · exact .inl rfl
        · exact .inr (.inr h)
      · simp only [List.mem_cons] at he ⊢
        rcases he with rfl | h
        · exact .inr (.inl rfl)
        · rcases ih e h with h | h
          · exact .inl h
          · exact .inr (.inr h)

theorem Memory.wf_write {m : Memory} (h : Memory.wf m) (a : Nat) (v : Byte) : Memory.wf (Memory.write m a v) := by
  induction m with
  | nil => simp [Memory.write, Memory.wf]
  | cons c m ih =>
    obtain ⟨k, b⟩ := c
    have hm : Memory.wf m := (List.pairwise_cons.1 h).2
    have hk : ∀ e ∈ m, k < e.1 := (List.pairwise_cons.1 h).1
    simp only [Memory.write]
    split
    · next hlt =>
      refine List.pairwise_cons.2 ⟨?_, h⟩
      intro e he
      rcases List.mem_cons.1 he with rfl | he
      · exact hlt
      · exact Nat.lt_trans hlt (hk e he)
    · split
      · next _ heq => subst heq; exact List.pairwise_cons.2 ⟨hk, hm⟩
      · next h1 h2 =>
        refine List.pairwise_cons.2 ⟨?_, ih hm⟩
        intro e he
        rcases Memory.fst_mem_write m a v e he with h | h
        · show k < e.1; omega
        · exact hk e h

theorem Memory.wf_writeBytes {m : Memory} (h : Memory.wf m) (a : Nat) (bs : List Byte) :
    Memory.wf (Memory.writeBytes m a bs) := by
  induction bs generalizing m a with
  | nil => exact h
  | cons b bs ih => exact ih (Memory.wf_write h a b) (a + 1)

theorem Memory.wf_ofBytes (bs : List Byte) : Memory.wf (Memory.ofBytes bs) :=
  Memory.wf_writeBytes List.Pairwise.nil 0 bs

/-- The stream of a byte list reads as the list. -/
theorem Memory.read_ofBytes (bs : List Byte) (x : Nat) : Memory.read (Memory.ofBytes bs) x = bs[x]? := by
  rw [Memory.ofBytes, Memory.read_writeBytes]
  by_cases h : x < bs.length
  · rw [if_pos (by omega), Nat.sub_zero]
  · rw [if_neg (by omega), Memory.read_nil, List.getElem?_eq_none (by omega)]

/-- A byte written after everything a stream lists is its last entry. -/
theorem Memory.write_after {m : Memory} {x : Nat} (h : ∀ c ∈ m, c.1 < x) (v : Byte) : Memory.write m x v = m ++ [(x, v)] := by
  induction m with
  | nil => rfl
  | cons c m ih =>
    have hc := h c (by simp)
    obtain ⟨a, b⟩ := c
    simp only at hc
    simp only [Memory.write, if_neg (show ¬ x < a by omega), if_neg (show ¬ x = a by omega), List.cons_append,
      ih fun d hd => h d (List.mem_cons_of_mem _ hd)]

/-- What is listed from an offset on, after bytes have been written behind everything a stream lists: these bytes at the end. -/
theorem bytesFrom_writeBytes {m : Memory} {offset x : Nat} (h : ∀ c ∈ m, c.1 < x) (hx : offset ≤ x) (bs : List Byte) :
    bytesFrom offset (Memory.writeBytes m x bs) = bytesFrom offset m ++ bs := by
  induction bs generalizing m x with
  | nil => simp [Memory.writeBytes]
  | cons b bs ih =>
    have hw : ∀ c ∈ Memory.write m x b, c.1 < x + 1 := by
      rw [Memory.write_after h]
      intro c hc
      rcases List.mem_append.1 hc with hc | hc
      · have := h c hc; omega
      · simp_all
    rw [Memory.writeBytes, ih hw (by omega), Memory.write_after h]
    simp [bytesFrom, hx]

/-- The stream of a byte list lists the list. -/
theorem bytesFrom_ofBytes (bs : List Byte) : bytesFrom 0 (Memory.ofBytes bs) = bs := by
  rw [Memory.ofBytes, bytesFrom_writeBytes (by simp) (Nat.le_refl 0)]
  rfl

/-- Two runs of bytes written back to back are one run. -/
theorem Memory.writeBytes_append (m : Memory) (a : Nat) (xs ys : List Byte) :
    Memory.writeBytes m a (xs ++ ys) = Memory.writeBytes (Memory.writeBytes m a xs) (a + xs.length) ys := by
  induction xs generalizing m a with
  | nil => rfl
  | cons x xs ih => simp only [List.cons_append, Memory.writeBytes, ih, List.length_cons]; congr 1; omega

end Sys2Proof.Machine
end

