-- ==== Sys2Proof/Laws/Ports.lean ====
section
/-! SUPPORT. Everything the Reader and Writer operations can do: one inversion lemma and one lemma under each port behaviour for
`nextByte`, `pullBytes`, `emit` and `emitRecords`. -/

namespace Sys2Proof.Machine

/-! ### Pulling -/

@[simp] theorem afterPulls_zero (s : State) : afterPulls 0 s = s := rfl

theorem afterPulls_afterPulls (m n : Nat) (s : State) : afterPulls m (afterPulls n s) = afterPulls (n + m) s := by
  simp [afterPulls, Nat.add_assoc]

theorem afterPulls_succ (n : Nat) (s : State) : afterPulls n (afterPulls 1 s) = afterPulls (n + 1) s := by
  rw [afterPulls_afterPulls, Nat.add_comm]

theorem takeReaderAnswer_advanceReader (s : State) : advanceReader (takeReaderAnswer s) = afterPulls 1 s := by
  simp [advanceReader, takeReaderAnswer, afterPulls]

theorem stopReader_of_readerEnded {s : State} (h : readerEnded s) : stopReader .endOfInput s = s := by
  simp only [stopReader, ← h.1]

/-- What one pull can answer (R67): a byte, with the position one further; or a stop, with only answers used up. -/
theorem nextByte_cases (s : State) :
    (∃ b, nextByte s = .got [b] (afterPulls 1 s) ∧ Memory.read s.ports.reader s.ports.readerPos = some b) ∨
    (∃ why, nextByte s = .stopped why (stopReader why s)) := by
  unfold nextByte
  split
  · exact .inr ⟨_, rfl⟩
  · split
    · next b hb => exact .inl ⟨b, by rw [takeReaderAnswer_advanceReader], hb⟩
    · exact .inr ⟨_, rfl⟩

theorem nextByte_of_serve {s : State} {b : Byte} (ha : s.ports.readerAnswers.head? ≠ some .fail)
    (hb : Memory.read s.ports.reader s.ports.readerPos = some b) : nextByte s = .got [b] (afterPulls 1 s) := by
  unfold nextByte
  split
  · next h => exact absurd h ha
  · rw [hb, takeReaderAnswer_advanceReader]

theorem nextByte_of_end {s : State} (ha : s.ports.readerAnswers.head? ≠ some .fail)
    (hb : Memory.read s.ports.reader s.ports.readerPos = none) : nextByte s = .stopped .endOfInput (stopReader .endOfInput s) := by
  unfold nextByte
  split
  · next h => exact absurd h ha
  · rw [hb]

theorem nextByte_of_fail {s : State} (ha : s.ports.readerAnswers.head? = some .fail) :
    nextByte s = .stopped .failed (stopReader .failed s) := by
  unfold nextByte
  simp only [ha]

/-- End-of-input, once signalled, is all the Reader signals (R67). -/
theorem nextByte_of_readerEnded {s : State} (h : readerEnded s) : nextByte s = .stopped .endOfInput s := by
  rw [nextByte_of_end (by simp [h.1]) h.2, stopReader_of_readerEnded h]

/-- A pull that signals end-of-input leaves the Reader ended. -/
theorem readerEnded_of_nextByte {s t : State} (h : nextByte s = .stopped .endOfInput t) : readerEnded t := by
  unfold nextByte at h
  split at h
  · cases h
  · split at h
    · cases h
    · next hb => cases h; exact ⟨rfl, hb⟩

theorem pullBytes_of_readerEnded (n : Nat) {s : State} (h : readerEnded s) : pullBytes (n + 1) s = .stopped .endOfInput s := by
  simp [pullBytes, nextByte_of_readerEnded h]

/-- A complete pull delivers `n` bytes, moves `n` positions and does nothing else. -/
theorem pullBytes_got {n : Nat} {s t : State} {bs : List Byte} (h : pullBytes n s = .got bs t) :
    bs.length = n ∧ t = afterPulls n s ∧
      ∀ k, k < n → Memory.read s.ports.reader (s.ports.readerPos + k) = bs[k]? := by
  induction n generalizing s t bs with
  | zero => simp only [pullBytes] at h; cases h; simp
  | succ n ih =>
    simp only [pullBytes] at h
    rcases nextByte_cases s with ⟨b, hb, hr⟩ | ⟨why, hb⟩
    · rw [hb] at h
      simp only at h
      split at h
      · cases h
      · next bs' u hp =>
        cases h
        obtain ⟨hl, hu, hrd⟩ := ih hp
        refine ⟨by simp [hl], by rw [hu, afterPulls_succ], ?_⟩
        intro k hk
        cases k with
        | zero => simpa using hr
        | succ k =>
          have := hrd k (by omega)
          simp only [afterPulls_reader, afterPulls_readerPos] at this
          rw [show s.ports.readerPos + (k + 1) = s.ports.readerPos + 1 + k by omega, this]
          simp
    · rw [hb] at h; cases h

/-- A stopped pull has delivered fewer than `n` bytes, moved as many positions, and is where its last pull stopped. -/
theorem pullBytes_stopped {n : Nat} {s t : State} {why : ReaderStop} (h : pullBytes n s = .stopped why t) :
    ∃ k, k < n ∧ t = stopReader why (afterPulls k s) := by
  induction n generalizing s t with
  | zero => simp only [pullBytes] at h; cases h
  | succ n ih =>
    simp only [pullBytes] at h
    rcases nextByte_cases s with ⟨b, hb, -⟩ | ⟨why', hb⟩
    · rw [hb] at h
      simp only at h
      split at h
      · next hp =>
        cases h
        obtain ⟨k, hk, ht⟩ := ih hp
        exact ⟨k + 1, by omega, by rw [ht, afterPulls_succ]⟩
      · cases h
    · rw [hb] at h; cases h
      exact ⟨0, by omega, rfl⟩

/-! ### What a Reader that serves does -/

theorem serves_cons {b : Byte} {bs : List Byte} {s : State} (h : serves (b :: bs) s) :
    s.ports.readerAnswers.head? ≠ some .fail ∧ Memory.read s.ports.reader s.ports.readerPos = some b ∧
      serves bs (afterPulls 1 s) := by
  obtain ⟨ha, hb⟩ := h
  refine ⟨?_, by simpa using hb 0 (by simp), ?_, ?_⟩
  · cases hl : s.ports.readerAnswers with
    | nil => simp
    | cons a as =>
      have := ha a (by simp [hl])
      simp [this]
  · intro a hm
    apply ha a
    simp only [afterPulls_readerAnswers] at hm
    cases hl : s.ports.readerAnswers with
    | nil => simp [hl] at hm
    | cons x xs =>
      simp only [hl, List.drop_succ_cons, List.drop_zero] at hm
      simp only [List.length_cons, List.take_succ_cons, List.mem_cons]
      exact .inr hm
  · intro k hk
    have := hb (k + 1) (by simp; omega)
    simp only [afterPulls_reader, afterPulls_readerPos]
    rw [show s.ports.readerPos + 1 + k = s.ports.readerPos + (k + 1) by omega, this]
    simp

theorem pullBytes_of_serves {bs : List Byte} {s : State} (h : serves bs s) :
    pullBytes bs.length s = .got bs (afterPulls bs.length s) := by
  induction bs generalizing s with
  | nil => rfl
  | cons b bs ih =>
    obtain ⟨ha, hb, hs⟩ := serves_cons h
    simp only [List.length_cons, pullBytes, nextByte_of_serve ha hb, ih hs, List.singleton_append, afterPulls_succ]

theorem serves_append {xs ys : List Byte} {s : State} (h : serves (xs ++ ys) s) :
    serves xs s ∧ serves ys (afterPulls xs.length s) := by
  induction xs generalizing s with
  | nil => exact ⟨⟨by simp, by simp⟩, h⟩
  | cons x xs ih =>
    obtain ⟨-, -, hs⟩ := serves_cons h
    obtain ⟨-, h2⟩ := ih hs
    refine ⟨⟨fun a ha => h.1 a ?_, fun k hk => ?_⟩, ?_⟩
    · refine List.mem_of_mem_take (i := (x :: xs).length) ?_
      rw [List.take_take, Nat.min_eq_left (by simp)]
      exact ha
    · rw [h.2 k (by simp at hk ⊢; omega), List.getElem?_append_left hk]
    · rwa [afterPulls_succ] at h2

theorem head_ne_fail_of_take {l : List ReaderAnswer} {n : Nat} (h : ∀ a ∈ l.take (n + 1), a = .serve) :
    (l.drop n).head? ≠ some .fail := by
  intro hc
  rw [List.head?_drop] at hc
  have hn : n < l.length := by
    by_contra hn
    rw [List.getElem?_eq_none (by omega)] at hc
    cases hc
  rw [List.getElem?_eq_getElem hn, Option.some.injEq] at hc
  have := h l[n] (List.mem_take_iff_getElem.2 ⟨n, by omega, rfl⟩)
  rw [hc] at this
  cases this

theorem nextByte_of_servesThenEnds {bs : List Byte} {s : State} (h : servesThenEnds bs s) :
    nextByte (afterPulls bs.length s) = .stopped .endOfInput (stopReader .endOfInput (afterPulls bs.length s)) :=
  nextByte_of_end (by simpa using head_ne_fail_of_take h.2.1) (by simpa using h.2.2)

theorem nextByte_of_servesThenFails {bs : List Byte} {s : State} (h : servesThenFails bs s) :
    nextByte (afterPulls bs.length s) = .stopped .failed (stopReader .failed (afterPulls bs.length s)) :=
  nextByte_of_fail (by simp [List.head?_drop, h.2])

/-- Pulling past what is served: the pull stops where `nextByte` stops. -/
theorem pullBytes_of_stop {bs : List Byte} {n : Nat} {why : ReaderStop} {s t : State} (h : serves bs s) (hn : bs.length < n)
    (hs : nextByte (afterPulls bs.length s) = .stopped why t) : pullBytes n s = .stopped why t := by
  induction bs generalizing s n with
  | nil =>
    obtain ⟨m, rfl⟩ : ∃ m, n = m + 1 := ⟨n - 1, by simp at hn; omega⟩
    simp only [List.length_nil, afterPulls_zero] at hs
    simp [pullBytes, hs]
  | cons b bs ih =>
    obtain ⟨m, rfl⟩ : ∃ m, n = m + 1 := ⟨n - 1, by simp at hn; omega⟩
    obtain ⟨ha, hb, hsv⟩ := serves_cons h
    have := ih (n := m) hsv (by simp at hn; omega) (by rw [afterPulls_succ]; exact hs)
    simp [pullBytes, nextByte_of_serve ha hb, this]

/-! ### Emitting -/

@[simp] theorem afterEmits_zero_nil (s : State) : afterEmits 0 [] s = s := rfl

theorem afterEmits_afterEmits (m n : Nat) (xs ys : List Byte) (s : State) :
    afterEmits m ys (afterEmits n xs s) = afterEmits (n + m) (xs ++ ys) s := by
  simp [afterEmits, Nat.add_assoc, Memory.writeBytes_append]

/-- What one `Emit` can do (R66, R70): hand over the whole chunk, or fail with any prefix of it appended. -/
theorem emit_cases (chunk : List Byte) (s : State) :
    emit chunk s = .emitted (afterEmits 1 chunk s) ∨
    ∃ n, emit chunk s = .failed (appendBytes (chunk.take n) (takeWriterAnswer s)) := by
  unfold emit
  split
  · next n h => exact .inr ⟨n, rfl⟩
  · left; simp [afterEmits, appendBytes, takeWriterAnswer]

theorem emit_of_accept {chunk : List Byte} {s : State} (h : ∀ n, s.ports.writerAnswers.head? ≠ some (.fail n)) :
    emit chunk s = .emitted (afterEmits 1 chunk s) := by
  unfold emit
  split
  · next n hn => exact absurd hn (h n)
  · simp [afterEmits, appendBytes, takeWriterAnswer]

theorem accepts_succ {n : Nat} {s : State} (h : accepts (n + 1) s) (bytes : List Byte) :
    (∀ k, s.ports.writerAnswers.head? ≠ some (.fail k)) ∧ accepts n (afterEmits 1 bytes s) := by
  unfold accepts at h ⊢
  cases hl : s.ports.writerAnswers with
  | nil => simp [hl]
  | cons a as =>
    rw [hl] at h
    have ha := h a (by simp)
    subst ha
    refine ⟨by simp, ?_⟩
    intro b hb
    simp only [afterEmits_writerAnswers, hl, List.drop_succ_cons, List.drop_zero] at hb
    exact h b (by simp [hb])

theorem emitRecords_of_accepts {is : List Instr} {s : State} (h : accepts is.length s) :
    emitRecords is s = .emitted (afterEmits is.length (bytesOf is) s) := by
  induction is generalizing s with
  | nil => rfl
  | cons i is ih =>
    obtain ⟨h1, h2⟩ := accepts_succ h (encode i)
    simp only [emitRecords, emit_of_accept h1, ih h2, afterEmits_afterEmits, List.length_cons, Nat.add_comm 1]
    rfl

theorem emitRecords_emitted {is : List Instr} {s t : State} (h : emitRecords is s = .emitted t) :
    t = afterEmits is.length (bytesOf is) s := by
  induction is generalizing s with
  | nil => simp only [emitRecords] at h; cases h; rfl
  | cons i is ih =>
    simp only [emitRecords] at h
    rcases emit_cases (encode i) s with he | ⟨n, he⟩
    · rw [he] at h
      rw [ih h, afterEmits_afterEmits, List.length_cons, Nat.add_comm 1]
      rfl
    · rw [he] at h; cases h

/-- Where emitting fails: the records before the failing one are handed over, and a prefix of that one is appended (R70, R288(d)). -/
theorem emitRecords_failed {is : List Instr} {s t : State} (h : emitRecords is s = .failed t) :
    ∃ done i rest n, is = done ++ i :: rest ∧
      t = appendBytes ((encode i).take n) (takeWriterAnswer (afterEmits done.length (bytesOf done) s)) := by
  induction is generalizing s with
  | nil => simp only [emitRecords] at h; cases h
  | cons i is ih =>
    simp only [emitRecords] at h
    rcases emit_cases (encode i) s with he | ⟨n, he⟩
    · rw [he] at h
      obtain ⟨done, j, rest, n, his, ht⟩ := ih h
      refine ⟨i :: done, j, rest, n, by rw [his]; rfl, ?_⟩
      rw [ht, afterEmits_afterEmits, List.length_cons, Nat.add_comm 1]
      rfl
    · rw [he] at h; cases h
      exact ⟨[], i, is, n, rfl, rfl⟩

end Sys2Proof.Machine
end

