-- ==== Sys2Proof/Laws/Engine.lean ====
section
/-! SUPPORT. Everything each step of the engine, each host operation and each turn can do: one inversion lemma per function, which later
proofs cite instead of unfolding it. -/

namespace Sys2Proof.Machine

/-! ### Registers and phases -/

theorem busy_iff (s : State) : busy s = true ↔ encoding s ∨ decoding s := by
  unfold busy encoding decoding; cases s.phase <;> simp

theorem descriptorFault_none {w h : Word32} {c : Byte} :
    descriptorFault w h c = none ↔ w ≠ 0 ∧ h ≠ 0 ∧ (c = 3 ∨ c = 4) := by
  unfold descriptorFault
  split
  · simp_all
  split
  · simp_all
  split
  · next h => simp; intro _ _; exact ⟨h.1, h.2⟩
  · next h1 h2 h => simp; refine ⟨h1, h2, ?_⟩; by_contra hc; push Not at hc; exact h hc

theorem headerFault_none {w h : Word32} {c sp : Byte} (hf : headerFault w h c sp = none) : descriptorFault w h c = none := by
  unfold headerFault at hf
  split at hf
  · cases hf
  · exact hf

theorem pixelTotal_bounds {w h : Word32} {c : Byte} (hf : descriptorFault w h c = none) :
    0 < pixelTotal w h ∧ pixelTotal w h ≤ (2 ^ 32 - 1) * (2 ^ 32 - 1) := by
  obtain ⟨hw, hh, -⟩ := descriptorFault_none.1 hf
  have e1 : w.toNat ≠ 0 := fun e => hw (BitVec.eq_of_toNat_eq e)
  have e2 : h.toNat ≠ 0 := fun e => hh (BitVec.eq_of_toNat_eq e)
  refine ⟨Nat.mul_pos (by omega) (by omega), Nat.mul_le_mul ?_ ?_⟩
  · have := w.isLt; omega
  · have := h.isLt; omega

/-! ### The host's turn -/

theorem startEncode_cases (s : State) :
    (descriptorFault s.desc.width s.desc.height s.desc.channels = none ∧
      startEncode s = { passStart .enc s with latched := s.desc, phase := .eHdr }) ∨
    ∃ c, descriptorFault s.desc.width s.desc.height s.desc.channels = some c ∧
      startEncode s = raiseError c { passStart .enc s with latched := s.desc } := by
  unfold startEncode
  cases hf : descriptorFault s.desc.width s.desc.height s.desc.channels with
  | none => exact .inl ⟨rfl, rfl⟩
  | some c => exact .inr ⟨c, rfl, rfl⟩

theorem command_cases (c : Command) (s : State) :
    command c s = leaveToIdle s ∨ command c s = s ∨
      (busy s = false ∧ (command c s = startEncode s ∨ command c s = startDecode s)) := by
  cases c <;> cases h : busy s <;> simp [command, h]

/-- A register write does nothing, or changes one descriptor register between passes, or is a command. -/
theorem writeReg_cases (r : HostReg) (v : Nat) (s : State) :
    writeReg r v s = s ∨ (busy s = false ∧ ∃ d, writeReg r v s = { s with desc := d }) ∨ ∃ c, writeReg r v s = command c s := by
  cases r with
  | status => exact .inl rfl
  | err => exact .inl rfl
  | cur => exact .inl rfl
  | pxcnt => exact .inl rfl
  | cmd =>
    simp only [writeReg]
    split
    · exact .inr (.inr ⟨_, rfl⟩)
    · exact .inl rfl
  | _ =>
    simp only [writeReg]
    cases busy s
    · exact .inr (.inl ⟨rfl, _, rfl⟩)
    · exact .inl rfl

/-- What a host operation that answers a next state can be. -/
theorem hostTurn_cases {op : HostOp} {s t : State} (h : hostTurn op s = .next t) :
    (∃ c, t = command c s) ∨ (∃ r v, t = writeReg r v s) ∨ (∃ r, t = readReg r s) ∨ t = s ∨
    (busy s = false ∧ ((∃ bs as, t = connectReader bs as s) ∨ (∃ as, t = connectWriter as s) ∨ (∃ ps, t = connectSource ps s) ∨
      t = connectSink s)) := by
  have hb : ∀ u, betweenPasses s u = .next t → busy s = false ∧ t = u := by
    intro u hu; unfold betweenPasses at hu; cases hs : busy s <;> simp [hs] at hu; exact ⟨rfl, hu.symm⟩
  cases op with
  | command c => cases h; exact .inl ⟨c, rfl⟩
  | write r v => cases h; exact .inr (.inl ⟨r, v, rfl⟩)
  | read r => cases h; exact .inr (.inr (.inl ⟨r, rfl⟩))
  | busWrite a v =>
    simp only [hostTurn] at h
    split at h <;> cases h
    · exact .inr (.inl ⟨_, v, rfl⟩)
    · exact .inr (.inr (.inr (.inl rfl)))
  | busRead a =>
    simp only [hostTurn] at h
    split at h <;> cases h
    · exact .inr (.inr (.inl ⟨_, rfl⟩))
    · exact .inr (.inr (.inr (.inl rfl)))
  | connectReader bs as => obtain ⟨h1, h2⟩ := hb _ h; exact .inr (.inr (.inr (.inr ⟨h1, .inl ⟨bs, as, h2⟩⟩)))
  | connectWriter as => obtain ⟨h1, h2⟩ := hb _ h; exact .inr (.inr (.inr (.inr ⟨h1, .inr (.inl ⟨as, h2⟩)⟩)))
  | connectSource ps => obtain ⟨h1, h2⟩ := hb _ h; exact .inr (.inr (.inr (.inr ⟨h1, .inr (.inr (.inl ⟨ps, h2⟩))⟩)))
  | connectSink => obtain ⟨h1, h2⟩ := hb _ h; exact .inr (.inr (.inr (.inr ⟨h1, .inr (.inr (.inr h2))⟩)))

/-! ### The encode steps -/

theorem emitRecords_cases (is : List Instr) (s : State) :
    emitRecords is s = .emitted (afterEmits is.length (bytesOf is) s) ∨
    ∃ done i rest n, is = done ++ i :: rest ∧
      emitRecords is s = .failed (appendBytes ((encode i).take n) (takeWriterAnswer (afterEmits done.length (bytesOf done) s))) := by
  cases h : emitRecords is s with
  | emitted t => rw [emitRecords_emitted h]; exact .inl rfl
  | failed t =>
    obtain ⟨done, i, rest, n, h1, h2⟩ := emitRecords_failed h
    exact .inr ⟨done, i, rest, n, h1, by rw [h2]⟩

/-- What an encode step that failed has done: handed over some of its records and a prefix of the next (R285, R286). -/
def EmitFailure (is : List Instr) (s t : State) : Prop :=
  ∃ done i rest n, is = done ++ i :: rest ∧
    t = raiseError .writer (appendBytes ((encode i).take n) (takeWriterAnswer (afterEmits done.length (bytesOf done) s)))

theorem emitHeader_cases (s : State) :
    emitHeader s = { afterEmits 1 (encode (headerRecord s.latched)) s with
      pxtotal := pixelTotal s.latched.width s.latched.height, phase := .eBody } ∨
    EmitFailure [headerRecord s.latched] s (emitHeader s) := by
  unfold emitHeader EmitFailure
  rcases emitRecords_cases [headerRecord s.latched] s with h | ⟨done, i, rest, n, h1, h2⟩
  · left; rw [h]; simp [bytesOf]
  · right; refine ⟨done, i, rest, n, h1, ?_⟩; rw [h2]

theorem emitTrailer_cases (s : State) :
    emitTrailer s = { afterEmits (flushRun s.codec.run ++ [Instr.trailer]).length (bytesOf (flushRun s.codec.run ++ [Instr.trailer])) s with
      codec := { s.codec with run := 0 }, phase := .done } ∨
    EmitFailure (flushRun s.codec.run ++ [.trailer]) s (emitTrailer s) := by
  unfold emitTrailer EmitFailure
  rcases emitRecords_cases (flushRun s.codec.run ++ [.trailer]) s with h | ⟨done, i, rest, n, h1, h2⟩
  · left; rw [h]; rfl
  · right; refine ⟨done, i, rest, n, h1, ?_⟩; rw [h2]

/-- What one accepted pixel does, as records and Codec State. -/
abbrev stepOf (s : State) (px : Pixel) : List Instr × Codec :=
  encodeStep s.params.encDeltaWrap (decide (s.pxcnt + 1 = s.pxtotal)) px s.codec

theorem encodePixel_cases (px : Pixel) (s : State) :
    encodePixel px s = pixelEncoded (stepOf s px).2
      (afterEmits (stepOf s px).1.length (bytesOf (stepOf s px).1) (takePixel s)) ∨
    EmitFailure (stepOf s px).1 (takePixel s) (encodePixel px s) := by
  unfold encodePixel EmitFailure
  rcases emitRecords_cases (stepOf s px).1 (takePixel s) with h | ⟨done, i, rest, n, h1, h2⟩
  · left; simp only [h]
  · right; refine ⟨done, i, rest, n, h1, ?_⟩; simp only [h2]

/-! ### The decode steps -/

/-- Every opcode of the body yields one pixel, which becomes `prev`, and touches nothing but the Codec State (R220, R229). -/
theorem exec_body {i : Instr} (hp : i.position = .body) (s : State) :
    ∃ px c, exec i s = .next (yieldPixel px { s with codec := c }) ∧ c.prev = px ∧
      (SlotsHashed s.codec → SlotsHashed c) ∧ (s.codec.run ≤ 61 → i.wellFormed = true → c.run ≤ 61) := by
  have hr : ∀ px, SlotsHashed s.codec → SlotsHashed { cacheUpdate px s.codec with prev := px } :=
    fun px h => SlotsHashed_cacheUpdate h px
  cases i with
  | rgb r g b => exact ⟨_, _, rfl, rfl, hr _, fun h _ => h⟩
  | rgba r g b a => exact ⟨_, _, rfl, rfl, hr _, fun h _ => h⟩
  | index k => exact ⟨_, _, rfl, rfl, hr _, fun h _ => h⟩
  | diff dr dg db => exact ⟨_, _, rfl, rfl, hr _, fun h _ => h⟩
  | luma dg drg dbg => exact ⟨_, _, rfl, rfl, hr _, fun h _ => h⟩
  | run len =>
    refine ⟨s.codec.prev,
      { (if s.params.runCacheRefresh then cacheUpdate s.codec.prev s.codec else s.codec) with run := len - 1 }, ?_, ?_, ?_, ?_⟩
    · simp only [exec, execRun, reYield]
      cases s.params.runCacheRefresh <;> rfl
    · cases s.params.runCacheRefresh <;> rfl
    · intro h
      cases s.params.runCacheRefresh
      · exact h
      · exact SlotsHashed_cacheUpdate h _
    · intro _ hw; have := (wf_run.1 hw).2; simp only; omega
  | header w h c sp => cases hp
  | trailer => cases hp

theorem decodeHeaderStep_cases (s : State) : ∃ t, decodeHeaderStep s = .next t ∧
    ((∃ k c why, k < 14 ∧ t = raiseError c (stopReader why (afterPulls k s))) ∨
     (∃ c, t = raiseError c (afterPulls 14 s)) ∨
     (∃ w h c sp, headerFault w h c sp = none ∧ t = acceptHeader w h c sp (afterPulls 14 s))) := by
  unfold decodeHeaderStep
  cases hp : pullBytes Config.hdrLen s with
  | stopped why u =>
    obtain ⟨k, hk, rfl⟩ := pullBytes_stopped hp
    exact ⟨_, rfl, .inl ⟨k, _, why, hk, rfl⟩⟩
  | got bytes u =>
    obtain ⟨-, rfl, -⟩ := pullBytes_got hp
    simp only [runRecord, decode]
    cases hd : decodeHeader bytes with
    | error why => exact ⟨_, rfl, .inr (.inl ⟨_, rfl⟩)⟩
    | ok r =>
      obtain ⟨i, rest⟩ := r
      unfold decodeHeader at hd
      split at hd
      · split at hd
        · cases hd
          simp only [exec, execHeader]
          split
          · next c _ => exact ⟨_, rfl, .inr (.inl ⟨c, rfl⟩)⟩
          · next hf => exact ⟨_, rfl, .inr (.inr ⟨_, _, _, _, hf, rfl⟩)⟩
        · cases hd
      · cases hd

/-- A body record's fetch either stops short of a record, or runs the record these bytes are (R220, R221). -/
theorem decodeOpcode_cases (s : State) :
    (∃ k c why, k < 5 ∧ decodeOpcode s = .next (raiseError c (stopReader why (afterPulls k s)))) ∨
    (∃ i k, 1 ≤ k ∧ k ≤ 5 ∧ i.wellFormed = true ∧ i.position = .body ∧ decodeOpcode s = exec i (afterPulls k s)) := by
  unfold decodeOpcode
  cases hp : pullBytes 1 s with
  | stopped why t =>
    obtain ⟨k, hk, rfl⟩ := pullBytes_stopped hp
    exact .inl ⟨k, _, why, by omega, rfl⟩
  | got tag t =>
    obtain ⟨hl, rfl, -⟩ := pullBytes_got hp
    obtain ⟨b1, rfl⟩ := List.length_eq_one_iff.1 hl
    obtain ⟨h1, h5⟩ := recordLength_pos b1
    simp only [List.headD_cons]
    cases hq : pullBytes (recordLength b1 - 1) (afterPulls 1 s) with
    | stopped why u =>
      obtain ⟨k, hk, rfl⟩ := pullBytes_stopped hq
      exact .inl ⟨k + 1, stopCause .truncatedPayload why, why, by omega, by simp only [afterPulls_succ]⟩
    | got payload u =>
      obtain ⟨hl2, rfl, -⟩ := pullBytes_got hq
      obtain ⟨i, hi⟩ := (decodeBody_short b1 payload).2 (by simp; omega)
      obtain ⟨hw, hpos⟩ := decodeBody_wellFormed hi
      refine .inr ⟨i, recordLength b1, h1, h5, hw, hpos, ?_⟩
      simp only [runRecord, decode, List.singleton_append, hi, afterPulls_succ, Nat.sub_add_cancel h1]

theorem checkTrailer_cases (expected : List Byte) (s : State) : ∃ t, checkTrailer expected s = .next t ∧
    ((∃ k c why, k < expected.length ∧ t = raiseError c (stopReader why (afterPulls k s))) ∨
     (∃ k, k ≤ expected.length ∧ t = raiseError .badTrailer (afterPulls k s)) ∨
     t = { afterPulls expected.length s with phase := .done }) := by
  induction expected generalizing s with
  | nil => exact ⟨_, rfl, .inr (.inr rfl)⟩
  | cons b rest ih =>
    simp only [checkTrailer]
    rcases nextByte_cases s with ⟨x, hx, -⟩ | ⟨why, hx⟩
    · rw [hx]
      simp only
      split
      · obtain ⟨t, ht, h⟩ := ih (afterPulls 1 s)
        refine ⟨t, ht, ?_⟩
        simp only [afterPulls_succ] at h
        rcases h with ⟨k, c, w, hk, h⟩ | ⟨k, hk, h⟩ | h
        · exact .inl ⟨k + 1, c, w, by simp; omega, h⟩
        · exact .inr (.inl ⟨k + 1, by simp; omega, h⟩)
        · exact .inr (.inr h)
      · exact ⟨_, rfl, .inr (.inl ⟨1, by simp, rfl⟩)⟩
    · rw [hx]
      exact ⟨_, rfl, .inl ⟨0, _, why, by simp, rfl⟩⟩

/-! ### The engine's turn -/

/-- Every turn of the engine is a wait, which changes nothing, or the one step its phase enables (R13, R140, R292). -/
theorem engineTurn_cases {s t : State} (h : engineTurn s = .next t) :
    t = s ∨
    (s.phase = .eHdr ∧ t = emitHeader s) ∨
    (s.phase = .eBody ∧ ∃ px rest, s.ports.source = px :: rest ∧ t = encodePixel px s) ∨
    (s.phase = .eTrl ∧ t = emitTrailer s) ∨
    (s.phase = .dHdr ∧ decodeHeaderStep s = .next t) ∨
    (s.phase = .dBody ∧ s.ports.pulls ≠ 0 ∧ 0 < s.codec.run ∧ t = reYield (takePull s)) ∨
    (s.phase = .dBody ∧ s.ports.pulls ≠ 0 ∧ s.codec.run = 0 ∧ decodeOpcode (takePull s) = .next t) ∨
    (s.phase = .dTrl ∧ checkTrailer Config.trailerBytes s = .next t) := by
  unfold engineTurn at h
  cases hp : s.phase <;> simp only [hp] at h
  case idle => cases h; exact .inl rfl
  case done => cases h; exact .inl rfl
  case err => cases h; exact .inl rfl
  case eHdr => cases h; simp
  case eTrl => cases h; simp
  case dHdr => simp [h]
  case dTrl => simp [h]
  case eBody =>
    split at h
    · cases h; exact .inl rfl
    · next px rest hs => cases h; simp [hs]
  case dBody =>
    split at h
    · cases h; exact .inl rfl
    · next hn =>
      unfold decodeBodyStep at h
      split at h
      · next hr => cases h; exact .inr (by simp_all [takePull])
      · next hr => exact .inr (by simp_all [takePull])

end Sys2Proof.Machine
end

