-- ==== Sys2Proof/Laws/PerInstr.lean ====
section
/-! SUPPORT. Statements about every instruction as syntax, one lemma per constructor: the length of its encoding is the table's, and the
decoder tells it from the first byte alone (30_encoding.md rules R100, R110). -/

namespace Sys2Proof.Laws

/-- The lengths of the eight formats in bytes (R100). -/
def formatLength : Instr → Nat
  | .rgb _ _ _ => 4
  | .rgba _ _ _ _ => 5
  | .index _ => 1
  | .diff _ _ _ => 1
  | .luma _ _ _ => 2
  | .run _ => 1
  | .header _ _ _ _ => 14
  | .trailer => 8

/-- The encoding has the format's length, and a well-formed opcode's first byte alone tells it. -/
def EncodedLength.Statement (i : Instr) : Prop :=
  (encode i).length = formatLength i ∧
  (i.wellFormed = true → i.position = .body → ∃ b1 rest, encode i = b1 :: rest ∧ recordLength b1 = formatLength i)

theorem EncodedLength.rgb (r g b : Byte) : EncodedLength.Statement (.rgb r g b) :=
  ⟨rfl, fun _ _ => ⟨_, _, rfl, show recordLength Config.tagRgb = 4 by decide⟩⟩

theorem EncodedLength.rgba (r g b a : Byte) : EncodedLength.Statement (.rgba r g b a) :=
  ⟨rfl, fun _ _ => ⟨_, _, rfl, show recordLength Config.tagRgba = 5 by decide⟩⟩

theorem EncodedLength.index (i : Fin 64) : EncodedLength.Statement (.index i) := by
  refine ⟨rfl, fun _ _ => ⟨_, _, rfl, ?_⟩⟩
  have := i.isLt
  rw [recordLength_eq, toNat_index, if_neg (by omega), if_neg (by omega), if_neg (by omega)]
  rfl

theorem EncodedLength.diff (dr dg db : Int) : EncodedLength.Statement (.diff dr dg db) := by
  refine ⟨rfl, fun hw _ => ⟨_, _, rfl, ?_⟩⟩
  obtain ⟨⟨h1, h2⟩, ⟨h3, h4⟩, h5, h6⟩ := wf_diff.1 hw
  obtain ⟨x, rfl⟩ := int_repr dr 2 4 (by omega) (by omega)
  obtain ⟨y, rfl⟩ := int_repr dg 2 4 (by omega) (by omega)
  obtain ⟨z, rfl⟩ := int_repr db 2 4 (by omega) (by omega)
  have := x.isLt; have := y.isLt; have := z.isLt
  rw [recordLength_eq, toNat_diff, if_neg (by omega), if_neg (by omega), if_neg (by omega)]
  rfl

theorem EncodedLength.luma (dg drg dbg : Int) : EncodedLength.Statement (.luma dg drg dbg) := by
  refine ⟨rfl, fun hw _ => ⟨_, _, rfl, ?_⟩⟩
  obtain ⟨⟨h1, h2⟩, -⟩ := wf_luma.1 hw
  obtain ⟨x, rfl⟩ := int_repr dg 32 64 (by omega) (by omega)
  have := x.isLt
  rw [recordLength_eq, toNat_luma1, if_neg (by omega), if_neg (by omega), if_pos (by omega)]
  rfl

theorem EncodedLength.run (len : Nat) : EncodedLength.Statement (.run len) := by
  refine ⟨rfl, fun hw _ => ⟨_, _, rfl, ?_⟩⟩
  obtain ⟨h1, h2⟩ := wf_run.1 hw
  have h : (0xC0#8 ||| BitVec.ofNat 8 (len - 1)).toNat = 0xC0 + (len - 1) := toNat_run ⟨len - 1, by omega⟩
  rw [recordLength_eq, show len - Config.runBias = len - 1 from rfl, h, if_neg (by omega), if_neg (by omega), if_neg (by omega)]
  rfl

theorem EncodedLength.header (w h : Word32) (c s : Byte) : EncodedLength.Statement (.header w h c s) :=
  ⟨rfl, fun _ hp => by cases hp⟩

theorem EncodedLength.trailer : EncodedLength.Statement .trailer :=
  ⟨rfl, fun _ hp => by cases hp⟩

end Sys2Proof.Laws
end

