-- ==== Sys2Proof/Tests/Slice0.lean ====
section
/-! SUPPORT. Tests. Every expected value is the spec's own: 95_test_vectors.md (named by section), or the rule named. The second half
gives, for every obligation with hypotheses, concrete states and operands that meet them. -/

namespace Sys2Proof.Tests

open Sys2Proof Sys2Proof.Machine

/-! ### Well-formedness: the check refuses one ill-formed term of each kind (R116) -/

theorem test_diff_operand_2_is_ill_formed : (Instr.diff 2 0 0).wellFormed = false := by decide
theorem test_diff_green_minus_3_is_ill_formed : (Instr.diff 0 (-3) 0).wellFormed = false := by decide
theorem test_diff_blue_2_is_ill_formed : (Instr.diff 0 0 2).wellFormed = false := by decide
theorem test_luma_green_32_is_ill_formed : (Instr.luma 32 0 0).wellFormed = false := by decide
theorem test_luma_red_8_is_ill_formed : (Instr.luma 0 8 0).wellFormed = false := by decide
theorem test_luma_blue_minus_9_is_ill_formed : (Instr.luma 0 0 (-9)).wellFormed = false := by decide
theorem test_run_0_is_ill_formed : (Instr.run 0).wellFormed = false := by decide
theorem test_run_63_is_ill_formed : (Instr.run 63).wellFormed = false := by decide

/-! ### Decoding: words written out bit by bit from 30_encoding.md -/

/-- R104: `00 iiiiii` with i = 11. -/
theorem test_decode_index : decode .body [0b00_001011#8] = .ok (.index 11, []) := by decide
/-- R105: `01 rr gg bb` with dr+2 = 3, dg+2 = 2, db+2 = 1 (section 1, S4). -/
theorem test_decode_diff : decode .body [0b01_11_10_01#8] = .ok (.diff 1 0 (-1), []) := by decide
/-- R106: `10 gggggg`, `xxxx yyyy` with dg+32 = 0, drg+8 = 0, dbg+8 = 15 (section 2.3, extreme fields). -/
theorem test_decode_luma : decode .body [0b10_000000#8, 0b0000_1111#8] = .ok (.luma (-32) (-8) 7, []) := by decide
/-- R107: `11 nnnnnn` with n = 61, the longest run. -/
theorem test_decode_run : decode .body [0b11_111101#8] = .ok (.run 62, []) := by decide
/-- R108: `11111110`, r, g, b; a payload byte 0xFE is data. -/
theorem test_decode_rgb : decode .body [0b11111110#8, 0x01#8, 0xFE#8, 0x03#8, 0x99#8] = .ok (.rgb 0x01 0xFE 0x03, [0x99#8]) := by decide
/-- R109: `11111111`, r, g, b, a. -/
theorem test_decode_rgba : decode .body [0b11111111#8, 0xC8#8, 0x64#8, 0x32#8, 0x80#8] = .ok (.rgba 200 100 50 128, []) := by decide
/-- R101: magic, width 0x01020304, height 255, channels 4, colorspace 0 (section 2.2). -/
theorem test_decode_header : decode .header
    [0x71#8, 0x6F#8, 0x69#8, 0x66#8, 0x01#8, 0x02#8, 0x03#8, 0x04#8, 0x00#8, 0x00#8, 0x00#8, 0xFF#8, 0x04#8, 0x00#8] =
    .ok (.header 16909060 255 4 0, []) := by decide
/-- R102. -/
theorem test_decode_trailer : decode .trailer [0#8, 0#8, 0#8, 0#8, 0#8, 0#8, 0#8, 1#8] = .ok (.trailer, []) := by decide
/-- Section 2.4, dispatch priority: the bytes at which one opcode ends and the next begins. -/
theorem test_decode_boundaries :
    decode .body [0x3F#8] = .ok (.index 63, []) ∧ decode .body [0x40#8] = .ok (.diff (-2) (-2) (-2), []) ∧
    decode .body [0x7F#8] = .ok (.diff 1 1 1, []) ∧ decode .body [0x80#8, 0x88#8] = .ok (.luma (-32) 0 0, []) ∧
    decode .body [0xBF#8, 0xFF#8] = .ok (.luma 31 7 7, []) ∧ decode .body [0xC0#8] = .ok (.run 1, []) := by decide

/-! ### The table's numbering of words (opcode_table.json) -/

theorem test_table_word_luma : decodeTableWord 16 0x88AA = some (.luma 10 0 0) := by decide
theorem test_table_word_header : decodeTableWord 112 0x716F6966000000000000000000 = none ∧
    decodeTableWord 112 (0x716F6966 * 2 ^ 80) = some (.header 0 0 0 0) := by decide
theorem test_table_word_trailer : decodeTableWord 64 1 = some .trailer ∧ decodeTableWord 64 (2 ^ 56) = some .trailer := by decide

/-! ### States to test on -/

/-- A Codec State: `prev`, `run`, and these pixels in their slots. -/
def codecOf (prev : Pixel) (run : Nat) (slots : List Pixel) : Codec :=
  slots.foldl (fun c px => cacheUpdate px c) { Codec.initial with prev := prev, run := run }

/-- In D_BODY of a 4 x 1 image with the header read, the sink pulling, and these bytes next. -/
def decodeAt (c : Codec) (bytes : List Byte) : State :=
  { State.reset with
    codec := c, phase := .dBody, mode := .dec, cur := 14, pxtotal := 4, desc := ⟨4, 1, 4, 0⟩,
    ports := { Ports.unconnected with reader := Memory.ofBytes bytes, pulls := 1 } }

/-- In E_BODY of a 4 x 1 image with the header written and this pixel on offer. -/
def encodeAt (wrap : Bool) (c : Codec) (px : Pixel) : State :=
  { State.reset with
    params := { Config.defaultParams with encDeltaWrap := wrap },
    codec := c, phase := .eBody, mode := .enc, cur := 14, pxtotal := 4, desc := ⟨4, 1, 4, 0⟩, latched := ⟨4, 1, 4, 0⟩,
    ports := { Ports.unconnected with source := [px] } }

/-- In D_HDR with these bytes next. -/
def headerAt (bytes : List Byte) : State :=
  { State.reset with phase := .dHdr, mode := .dec, ports := { Ports.unconnected with reader := Memory.ofBytes bytes } }

/-- In D_TRL with these bytes next. -/
def trailerAt (bytes : List Byte) : State :=
  { decodeAt (codecOf ⟨0, 0, 0, 255⟩ 0 []) bytes with
    params := { Config.defaultParams with strictTrailer := true }, phase := .dTrl, pxcnt := 4, cur := 23 }

/-- What a decode step shows: pixels yielded, `prev`, `run`, `cur`. -/
def decoded (s : State) : Option (List Pixel × Pixel × Nat × Nat) :=
  (nextOf (step s)).map fun t => (t.ports.sink, t.codec.prev, t.codec.run, t.cur)

/-- What an encode step shows: bytes appended, `prev`, `run`. -/
def encoded (s : State) : Option (List Byte × Pixel × Nat) :=
  (nextOf (step s)).map fun t => (t.ports.writer.map Prod.snd, t.codec.prev, t.codec.run)

/-- A slot after the step. -/
def slotAfter (i : Fin 64) (s : State) : Option Pixel := (nextOf (step s)).map fun t => slotAt i t.codec

/-! ### One step of every opcode, decoded (section 2.4) -/

theorem test_rgb : decoded (decodeAt (codecOf ⟨9, 9, 9, 77⟩ 0 []) [0xFE#8, 1#8, 2#8, 3#8]) =
      some ([⟨1, 2, 3, 77⟩], ⟨1, 2, 3, 77⟩, 0, 18) ∧
    slotAfter 49 (decodeAt (codecOf ⟨9, 9, 9, 77⟩ 0 []) [0xFE#8, 1#8, 2#8, 3#8]) = some ⟨1, 2, 3, 77⟩ := by decide
theorem test_rgba : decoded (decodeAt (codecOf ⟨9, 9, 9, 77⟩ 0 []) [0xFF#8, 0xC8#8, 0x64#8, 0x32#8, 0x80#8]) =
      some ([⟨200, 100, 50, 128⟩], ⟨200, 100, 50, 128⟩, 0, 19) ∧
    slotAfter 42 (decodeAt (codecOf ⟨9, 9, 9, 77⟩ 0 []) [0xFF#8, 0xC8#8, 0x64#8, 0x32#8, 0x80#8]) = some ⟨200, 100, 50, 128⟩ := by decide
theorem test_index : decoded (decodeAt (codecOf ⟨1, 1, 1, 255⟩ 0 [⟨10, 10, 10, 255⟩]) [0x0B#8]) =
    some ([⟨10, 10, 10, 255⟩], ⟨10, 10, 10, 255⟩, 0, 15) := by decide
/-- Section 3, P4 (b): INDEX of an untouched slot evicts slot 0. -/
theorem test_index_untouched : decoded (decodeAt (codecOf ⟨5, 5, 5, 255⟩ 0 [⟨5, 5, 5, 255⟩]) [0x09#8]) =
      some ([⟨0, 0, 0, 0⟩], ⟨0, 0, 0, 0⟩, 0, 15) ∧
    slotAfter 0 (decodeAt (codecOf ⟨5, 5, 5, 255⟩ 0 [⟨5, 5, 5, 255⟩]) [0x09#8]) = some ⟨0, 0, 0, 0⟩ := by decide
theorem test_diff : decoded (decodeAt (codecOf ⟨255, 0, 128, 7⟩ 0 []) [0x72#8]) =
      some ([⟨0, 254, 128, 7⟩], ⟨0, 254, 128, 7⟩, 0, 15) ∧
    slotAfter 3 (decodeAt (codecOf ⟨255, 0, 128, 7⟩ 0 []) [0x72#8]) = some ⟨0, 254, 128, 7⟩ := by decide
theorem test_luma : decoded (decodeAt (codecOf ⟨250, 5, 128, 255⟩ 0 []) [0x9E#8, 0x37#8]) =
    some ([⟨243, 3, 125, 255⟩], ⟨243, 3, 125, 255⟩, 0, 16) := by decide
theorem test_run : decoded (decodeAt (codecOf ⟨7, 7, 7, 255⟩ 0 []) [0xC2#8]) = some ([⟨7, 7, 7, 255⟩], ⟨7, 7, 7, 255⟩, 2, 15) ∧
    slotAfter 30 (decodeAt (codecOf ⟨7, 7, 7, 255⟩ 0 []) [0xC2#8]) = some ⟨0, 0, 0, 0⟩ ∧
    slotAfter 30 { decodeAt (codecOf ⟨7, 7, 7, 255⟩ 0 []) [0xC2#8] with
      params := { Config.defaultParams with runCacheRefresh := true } } = some ⟨7, 7, 7, 255⟩ := by decide
theorem test_run_re_yield : decoded (decodeAt (codecOf ⟨7, 7, 7, 255⟩ 2 []) []) =
    some ([⟨7, 7, 7, 255⟩], ⟨7, 7, 7, 255⟩, 1, 14) := by decide

/-- Section 2.2: H0 is accepted. -/
theorem test_header : (nextOf (step (headerAt
    [0x71#8, 0x6F#8, 0x69#8, 0x66#8, 0#8, 0#8, 0#8, 4#8, 0#8, 0#8, 0#8, 1#8, 4#8, 0#8]))).map
      (fun t => (t.desc, t.pxtotal, t.phase, t.cur)) = some (⟨4, 1, 4, 0⟩, 4, .dBody, 14) := by decide
/-- Section 2.2: byte 13 = `02` and width 0: BAD_COLORSPACE wins, `ERR` = (1, 3). -/
theorem test_header_priority : (nextOf (step (headerAt
    [0x71#8, 0x6F#8, 0x69#8, 0x66#8, 0#8, 0#8, 0#8, 0#8, 0#8, 0#8, 0#8, 1#8, 4#8, 2#8]))).map
      (fun t => (t.desc, errWord t, t.phase, t.cur)) = some (⟨0, 0, 0, 0⟩, 0x31#32, .err, 14) := by decide
/-- Section 2.2: the whole trailer under `STRICT_TRAILER`. -/
theorem test_trailer : (nextOf (step (trailerAt [0#8, 0#8, 0#8, 0#8, 0#8, 0#8, 0#8, 1#8]))).map
    (fun t => (t.phase, t.err, t.cur, t.pxcnt)) = some (.done, none, 31, 4) := by decide
/-- Section 2.2: offset 23 replaced by `01`: BAD_TRAILER with `CUR` = 24. -/
theorem test_trailer_mismatch : (nextOf (step (trailerAt [1#8, 0#8, 0#8, 0#8, 0#8, 0#8, 0#8, 1#8]))).map
    (fun t => (t.phase, errWord t, t.cur, t.pxcnt)) = some (.err, 0x61#32, 24, 4) := by decide

/-! ### One step of every emission, encoded (sections 2.2 and 2.3) -/

theorem test_emit_index : encoded (encodeAt false (codecOf ⟨11, 10, 9, 255⟩ 0 [⟨10, 10, 10, 255⟩]) ⟨10, 10, 10, 255⟩) =
    some ([0x0B#8], ⟨10, 10, 10, 255⟩, 0) := by decide
theorem test_emit_diff : encoded (encodeAt false (codecOf ⟨5, 5, 5, 255⟩ 3 []) ⟨6, 5, 5, 255⟩) =
    some ([0xC2#8, 0x7A#8], ⟨6, 5, 5, 255⟩, 0) := by decide
theorem test_emit_luma : encoded (encodeAt false (codecOf ⟨100, 100, 100, 255⟩ 0 []) ⟨138, 131, 123, 255⟩) =
    some ([0xBF#8, 0xF0#8], ⟨138, 131, 123, 255⟩, 0) := by decide
theorem test_emit_rgb : encoded (encodeAt false (codecOf ⟨250, 5, 128, 255⟩ 0 []) ⟨2, 10, 130, 255⟩) =
    some ([0xFE#8, 0x02#8, 0x0A#8, 0x82#8], ⟨2, 10, 130, 255⟩, 0) := by decide
theorem test_emit_luma_under_wrap : encoded (encodeAt true (codecOf ⟨250, 5, 128, 255⟩ 0 []) ⟨2, 10, 130, 255⟩) =
    some ([0xA5#8, 0xB5#8], ⟨2, 10, 130, 255⟩, 0) := by decide
theorem test_emit_rgba : encoded (encodeAt false (codecOf ⟨100, 100, 100, 255⟩ 0 []) ⟨100, 100, 100, 254⟩) =
    some ([0xFF#8, 0x64#8, 0x64#8, 0x64#8, 0xFE#8], ⟨100, 100, 100, 254⟩, 0) := by decide
theorem test_emit_run : encoded (encodeAt false (codecOf ⟨5, 5, 5, 255⟩ 61 []) ⟨5, 5, 5, 255⟩) =
    some ([0xFD#8], ⟨5, 5, 5, 255⟩, 0) := by decide
theorem test_emit_header : (nextOf (step { State.reset with phase := .eHdr, latched := ⟨640, 480, 3, 1⟩ })).map
    (fun t => (t.ports.writer.map Prod.snd, t.phase, t.pxtotal, t.cur)) =
    some ([0x71#8, 0x6F#8, 0x69#8, 0x66#8, 0#8, 0#8, 0x02#8, 0x80#8, 0#8, 0#8, 0x01#8, 0xE0#8, 0x03#8, 0x01#8], .eBody, 307200, 14) := by
  decide
theorem test_emit_trailer : (nextOf (step { State.reset with phase := .eTrl, cur := 15 })).map
    (fun t => (t.ports.writer.map Prod.snd, t.phase, t.cur)) =
    some ([0#8, 0#8, 0#8, 0#8, 0#8, 0#8, 0#8, 1#8], .done, 23) := by decide

/-! ### The Reader's end-of-input and the observation of a pass -/

/-- An engine in IDLE after encode passes that handed these bytes over. -/
def emitted (bytes : List Byte) : State := appendBytes bytes State.reset

/-- An engine in IDLE after decode passes that yielded these pixels. -/
def yielded (pixels : List Pixel) : State :=
  { State.reset with mode := .dec, ports := { Ports.unconnected with sink := pixels } }

/-- R67: once end-of-input has been signalled, a scripted failure of the Reader is never reached. -/
theorem test_end_of_input_is_permanent :
    (let s := { headerAt [] with ports := { Ports.unconnected with readerAnswers := [.serve, .fail] } }
     (nextOf (step s)).map (fun t => (t.err, nextByte t)) =
       (nextOf (step s)).map (fun t => (some .truncatedHeader, .stopped .endOfInput t))) := by decide

/-- R15: what the Writer and the sink held before the pass is not observed; a pass that accepted no header has written no descriptor. -/
theorem test_observation_is_of_one_pass :
    observe (emitted [1#8]) (emitted [1#8, 2#8, 3#8]) = .encode [2#8, 3#8] 0 0 ∧
    observe (yielded [⟨1, 2, 3, 4⟩]) { yielded [⟨1, 2, 3, 4⟩, ⟨5, 6, 7, 8⟩] with desc := ⟨9, 9, 3, 0⟩, cur := 7 } =
      .decode none [⟨5, 6, 7, 8⟩] 7 8 0 := by decide

/-! ### A program from reset: what the host's interface places is what the next step runs -/

theorem test_placed_rgb : (nextOf (step (State.reset.withFetchWord 32 0x030201FE))).map (fun t => (t.codec.prev, t.cur, t.phase)) =
    some (⟨1, 2, 3, 255⟩, 4, .done) := by decide
theorem test_placed_header : (nextOf (step (State.reset.withFetchWord 112 (0x716F6966 * 2 ^ 80)))).map (fun t => t.err) =
    some (some .zeroWidth) := by decide
theorem test_placed_trailer : (nextOf (step (State.reset.withFetchWord 64 1))).map (fun t => t.phase) = some .done := by decide

/-- Log entry 15: from reset a program runs once a DECODE command has been given to an engine with a Reader connected. -/
theorem test_first_steps_from_reset : (nextOf (step { State.reset with
    turns := [.host (.connectReader [0x71#8] []), .host (.command .decode)] })).map (fun t => (t.phase, t.ports.reader)) =
    some (.idle, [(0, 0x71#8)]) := by decide

theorem test_reset_streams_are_canonical : Memory.wf State.reset.ports.reader ∧ Memory.wf State.reset.ports.writer := by decide

/-! ### Witnesses: concrete states and operands that meet the hypotheses of each obligation -/

/-- A valid state in the middle of a decode pass: `prev` (10,10,10,255) in its slot 11, one pixel yielded, these bytes next. -/
def midDecode (bytes : List Byte) : State :=
  { decodeAt (codecOf ⟨10, 10, 10, 255⟩ 0 [⟨10, 10, 10, 255⟩]) bytes with pxcnt := 1, cur := 16 }

theorem slots_of_codecOf (prev : Pixel) (run : Nat) (slots : List Pixel) : SlotsHashed (codecOf prev run slots) := by
  have h : ∀ (l : List Pixel) (c : Codec), SlotsHashed c → SlotsHashed (l.foldl (fun c px => cacheUpdate px c) c) := by
    intro l
    induction l with
    | nil => exact fun _ h => h
    | cons px rest ih => exact fun c h => ih _ (SlotsHashed_cacheUpdate h px)
  exact h slots _ SlotsHashed_initial

theorem midDecode_meets_the_invariant : Inv (midDecode [0x79#8]) where
  streams := ⟨Memory.wf_ofBytes _, by simp [midDecode, decodeAt, Ports.unconnected, Memory.wf]⟩
  codec := ⟨by decide, slots_of_codecOf _ _ _⟩
  pass := by
    constructor <;> simp [midDecode, decodeAt, encoding, decoding, State.reset] <;> decide
  cursor := by
    constructor <;> simp [midDecode, decodeAt]

theorem witness_DecodeOfEncodeIsIdentity :
    (Instr.diff (-2) 1 0).wellFormed = true ∧ (Instr.luma (-32) (-8) 7).wellFormed = true ∧ (Instr.luma 31 7 (-8)).wellFormed = true ∧
    (Instr.run 1).wellFormed = true ∧ (Instr.run 62).wellFormed = true ∧ (Instr.index 63).wellFormed = true ∧
    (Instr.rgb 254 255 0).wellFormed = true ∧ (Instr.rgba 1 2 3 0).wellFormed = true ∧
    (Instr.header 0 0xFFFFFFFF 3 1).wellFormed = true ∧ Instr.trailer.wellFormed = true := by decide

theorem witness_EncodeOfDecodeIsIdentity :
    decode .body [0x6A#8, 0xC0#8] = .ok (.diff 0 0 0, [0xC0#8]) ∧
    decode .header [0x71#8, 0x6F#8, 0x69#8, 0x66#8, 0#8, 0#8, 0#8, 1#8, 0#8, 0#8, 0#8, 1#8, 3#8, 1#8] = .ok (.header 1 1 3 1, []) ∧
    decode .trailer [0#8, 0#8, 0#8, 0#8, 0#8, 0#8, 0#8, 1#8, 7#8] = .ok (.trailer, [7#8]) := by decide

theorem witness_EncodedBytesFollowTheTable :
    (Instr.diff (-2) (-2) (-2)).wellFormed = true ∧ (Instr.diff 1 1 1).wellFormed = true ∧
    (Instr.luma (-32) (-8) (-8)).wellFormed = true ∧ (Instr.luma 31 7 7).wellFormed = true ∧
    (Instr.run 1).wellFormed = true ∧ (Instr.run 62).wellFormed = true ∧ (Instr.rgb 0 0 0).position = .body := by decide

/-- Both sides of the equivalence: nothing at all, and RGB one byte short. -/
theorem witness_OnlyIncompleteRecordsAreRejected :
    decode .body [] = .error .truncatedBody ∧ decode .body [0xFE#8, 1#8, 2#8] = .error .truncatedPayload ∧
    [0xFE#8, 1#8, 2#8].length < recordLength 0xFE#8 := by decide

/-- Section 2.1: (64,0,0,255) collides with (128,0,0,255). -/
theorem witness_HashIgnoresTheTopTwoBits : ∃ p q : Pixel, p ≠ q ∧ p.r.toNat % 64 = q.r.toNat % 64 ∧
    p.g.toNat % 64 = q.g.toNat % 64 ∧ p.b.toNat % 64 = q.b.toNat % 64 ∧ p.a.toNat % 64 = q.a.toNat % 64 :=
  ⟨⟨64, 0, 0, 255⟩, ⟨128, 0, 0, 255⟩, by decide⟩

theorem witness_SlotInvariantHoldsAtEveryStep :
    SlotsHashed (midDecode [0x79#8]).codec ∧ (∃ t, step (midDecode [0x79#8]) = .next t) ∧
    ∃ t, exec (.index 11) (midDecode []) = .next t :=
  ⟨slots_of_codecOf _ _ _, ⟨_, rfl⟩, ⟨_, rfl⟩⟩

/-- The three cases: another slot untouched, slot 0 untouched, a slot written. -/
theorem witness_IndexOfUntouchedSlotEvictsSlotZero :
    SlotsHashed (midDecode []).codec ∧ (9 : Fin 64) ≠ 0 ∧ slotAt 9 (midDecode []).codec = ⟨0, 0, 0, 0⟩ ∧
    slotAt 0 (midDecode []).codec = ⟨0, 0, 0, 0⟩ ∧ slotAt 11 (midDecode []).codec ≠ ⟨0, 0, 0, 0⟩ :=
  ⟨slots_of_codecOf _ _ _, by decide⟩

/-- Section 2.1: (1,2,3,0) and (254,254,254,0) share slot 34. -/
theorem witness_EvictedPixelIsNotIndexed : ∃ (x y : Pixel) (c : Codec) (between : List Pixel),
    pixelHash y = pixelHash x ∧ y ≠ x ∧ y ≠ c.prev ∧ x ∉ between ∧ slotAt (pixelHash x) c = x ∧ between ≠ [] :=
  ⟨⟨1, 2, 3, 0⟩, ⟨254, 254, 254, 0⟩, codecOf ⟨1, 2, 3, 0⟩ 0 [⟨1, 2, 3, 0⟩], [⟨9, 9, 9, 0⟩], by decide⟩

theorem witness_EveryStepKeepsTheInvariant : Inv (midDecode [0x79#8]) ∧ ∃ t, step (midDecode [0x79#8]) = .next t :=
  ⟨midDecode_meets_the_invariant, ⟨_, rfl⟩⟩

theorem witness_CountersFitTheirRegisters : Inv (midDecode [0x79#8]) := midDecode_meets_the_invariant

theorem witness_NoStepChangesTheParameters : ∃ t, step (midDecode [0x79#8]) = .next t := ⟨_, rfl⟩

/-- BUSY; and between passes a descriptor of each kind: zero width, zero height, bad channels, valid. -/
theorem witness_EncodeCommandStartsOrRefusesAPass :
    busy (midDecode []) = true ∧ busy State.reset = false ∧ State.reset.desc.width = 0 ∧
    (∃ s : State, busy s = false ∧ s.desc.width ≠ 0 ∧ s.desc.height = 0) ∧
    (∃ s : State, busy s = false ∧ s.desc.width ≠ 0 ∧ s.desc.height ≠ 0 ∧ s.desc.channels ≠ 3 ∧ s.desc.channels ≠ 4) ∧
    (∃ s : State, busy s = false ∧ s.desc.width ≠ 0 ∧ s.desc.height ≠ 0 ∧ s.desc.channels = 4) :=
  ⟨by decide, by decide, by decide,
    ⟨{ State.reset with desc := ⟨1, 0, 3, 0⟩ }, by decide⟩,
    ⟨{ State.reset with desc := ⟨1, 1, 5, 0⟩, phase := .done }, by decide⟩,
    ⟨{ State.reset with desc := ⟨4, 1, 4, 0⟩, phase := .err, err := some .reader }, by decide⟩⟩

theorem witness_DecodeCommandStartsAPass : busy (midDecode []) = true ∧ busy State.reset = false := by decide

theorem witness_CommandsAreAcceptedOnlyBetweenPasses :
    busy (midDecode []) = true ∧ busy State.reset = false ∧
    ∃ t, hostTurn (.command .abort) (midDecode []) = .next t ∧ busy t = false :=
  ⟨by decide, by decide, _, rfl, by decide⟩

theorem witness_HostRegisterAccess : busy State.reset = false ∧ busy (midDecode []) = true := by decide

theorem witness_ErrRegisterIsStickyAndCoded :
    State.reset.err = none ∧
    ∃ s t : State, s.err = some .truncatedPayload ∧ s.phase = .err ∧ step s = .next t ∧
      (∀ c, s.turns.head? ≠ some (.host (.command c))) ∧ (∀ v, s.turns.head? ≠ some (.host (.write .cmd v))) ∧
      (∀ a v, s.turns.head? ≠ some (.host (.busWrite a v))) :=
  ⟨rfl, { State.reset with phase := .err, err := some .truncatedPayload, turns := [.host (.read .err)] }, _, rfl, rfl, rfl,
    by simp, by simp, by simp⟩

theorem witness_InterruptLineIsAnObserverOnly :
    State.reset.params.irqPresent = false ∧
    ∃ s t : State, s.params.irqPresent = true ∧ busy s = false ∧ s.phase = .done ∧ hostTurn (.command .decode) s = .next t :=
  ⟨rfl, { State.reset with phase := .done, params := { Config.defaultParams with irqPresent := true } }, _, rfl, rfl, rfl, rfl⟩

/-- Two engines that differ in everything a pass leaves behind. -/
theorem witness_PassStartForgetsEarlierPasses : ∃ s s' : State,
    busy s = false ∧ busy s' = false ∧ s.params = s'.params ∧ s.desc = s'.desc ∧ s.ports = s'.ports ∧
    s.hostRead = s'.hostRead ∧ s.turns = s'.turns ∧ s.latched = s'.latched ∧ s.codec ≠ s'.codec ∧ s.phase ≠ s'.phase :=
  ⟨State.reset, { State.reset with codec := codecOf ⟨1, 2, 3, 4⟩ 5 [⟨1, 2, 3, 4⟩], phase := .err, err := some .badMagic, cur := 14 },
    by decide⟩

theorem witness_DescriptorIsStableWhileBusy :
    busy (midDecode [0x79#8]) = true ∧ (midDecode [0x79#8]).phase ≠ .dHdr ∧ ∃ t, step (midDecode [0x79#8]) = .next t :=
  ⟨by decide, by decide, _, rfl⟩

/-- A decode step that fails for want of a payload byte, and an encode step whose Writer fails. -/
theorem witness_FailingStepIsPrecise :
    (∃ s t : State, s.phase ≠ .err ∧ decoding s ∧ engineTurn s = .next t ∧ t.phase = .err) ∧
    (∃ s t : State, s.phase ≠ .err ∧ encoding s ∧ engineTurn s = .next t ∧ t.phase = .err) :=
  ⟨⟨midDecode [0xFF#8, 1#8], _, by decide, .inr (.inl rfl), rfl, rfl⟩,
   ⟨{ State.reset with phase := .eTrl, ports := { Ports.unconnected with writerAnswers := [.fail 3] } }, _, by decide,
     .inr (.inr rfl), rfl, rfl⟩⟩

/-- The second of two chunks fails with two of its bytes appended. -/
def failingEncode : State :=
  { encodeAt false (codecOf ⟨5, 5, 5, 255⟩ 3 []) ⟨200, 100, 50, 255⟩ with
    ports := { Ports.unconnected with source := [⟨200, 100, 50, 255⟩], writerAnswers := [.accept, .fail 2] } }

theorem witness_WriterFailureLeavesAPrefix : ∃ t, failingEncode.phase = .eBody ∧
    failingEncode.ports.source = [⟨200, 100, 50, 255⟩] ∧ engineTurn failingEncode = .next t ∧ t.phase = .err :=
  ⟨_, rfl, rfl, rfl, by decide⟩

theorem witness_EngineIsNeverStuck : State.reset.phase = .idle ∧
    (∃ s : State, s.phase = .eBody ∧ s.ports.source = []) ∧ (∃ s : State, s.phase = .dBody ∧ s.ports.pulls = 0) :=
  ⟨rfl, ⟨{ State.reset with phase := .eBody }, rfl, rfl⟩, ⟨{ State.reset with phase := .dBody }, rfl, rfl⟩⟩

theorem witness_WrittenBytesAreNeverRewritten : ∃ t,
    (∀ as, failingEncode.turns.head? ≠ some (.host (.connectWriter as))) ∧ step failingEncode = .next t :=
  ⟨_, by simp [failingEncode, encodeAt, State.reset], rfl⟩

theorem witness_CursorCountsConsumedBytes :
    decoding (midDecode [0x79#8]) ∧ (∃ t, engineTurn (midDecode [0x79#8]) = .next t) ∧
    decoding (headerAt []) ∧ decoding (trailerAt []) ∧
    (∃ t, nextByte (headerAt []) = .stopped .endOfInput t) ∧
    (let s := { headerAt [] with turns := [.host (.command .abort), .host (.command .decode)] }
     readerEnded s ∧ (∀ bytes answers, s.turns.head? ≠ some (.host (.connectReader bytes answers))) ∧ ∃ t, step s = .next t) :=
  ⟨.inr (.inl rfl), ⟨_, rfl⟩, .inl rfl, .inr (.inr rfl), ⟨_, rfl⟩, ⟨rfl, rfl⟩, by simp, ⟨_, rfl⟩⟩

theorem witness_HeaderEmission :
    (∃ s : State, s.phase = .eHdr ∧ accepts 1 s) ∧
    (∃ s : State, s.phase = .eHdr ∧ s.ports.writerAnswers = [.fail 3]) :=
  ⟨⟨{ State.reset with phase := .eHdr, latched := ⟨4, 1, 4, 0⟩ }, rfl, by unfold accepts; decide⟩,
   ⟨{ State.reset with phase := .eHdr, ports := { Ports.unconnected with writerAnswers := [.fail 3] } }, rfl, rfl⟩⟩

theorem witness_TrailerEmission :
    (∃ s : State, s.phase = .eTrl ∧ s.codec.run = 0 ∧ accepts 1 s) ∧
    (∃ s : State, s.phase = .eTrl ∧ s.codec.run = 62 ∧ 0 < s.codec.run ∧ accepts 2 s) ∧
    (∃ s : State, s.phase = .eTrl ∧ s.ports.writerAnswers = [.fail 0]) :=
  ⟨⟨{ State.reset with phase := .eTrl }, rfl, rfl, by unfold accepts; decide⟩,
   ⟨{ State.reset with phase := .eTrl, codec := codecOf ⟨0, 0, 0, 255⟩ 62 [] }, rfl, rfl, by decide, by unfold accepts; decide⟩,
   ⟨{ State.reset with phase := .eTrl, ports := { Ports.unconnected with writerAnswers := [.fail 0] } }, rfl, rfl⟩⟩

/-- Section 2.2: no byte at all, and 13 bytes; at each the end of input and a failure. -/
theorem witness_HeaderFetchStopsAtTheFirstMissingByte :
    ((headerAt []).phase = .dHdr ∧ servesThenEnds [] (headerAt [])) ∧
    servesThenEnds [0#8, 0#8, 0#8] (headerAt [0#8, 0#8, 0#8]) ∧
    servesThenEnds (List.replicate 13 7#8) (headerAt (List.replicate 13 7#8)) ∧
    servesThenFails [] { headerAt [] with ports := { Ports.unconnected with readerAnswers := [.fail] } } ∧
    servesThenFails (List.replicate 13 7#8) { headerAt [] with ports := { Ports.unconnected with
      reader := Memory.ofBytes (List.replicate 13 7#8), readerAnswers := List.replicate 13 .serve ++ [.fail] } } := by
  unfold servesThenEnds servesThenFails serves
  decide

theorem witness_HeaderChecksInOrder :
    let bytes := [0x71#8, 0x6F#8, 0x69#8, 0x66#8, 0#8, 0#8, 0#8, 4#8, 0#8, 0#8, 0#8, 1#8, 4#8, 0#8]
    (headerAt bytes).phase = .dHdr ∧ serves bytes (headerAt bytes) := by
  unfold serves
  decide

theorem witness_HeaderAcceptanceWritesTheDescriptor :
    (4 : Word32) ≠ 0 ∧ (1 : Word32) ≠ 0 ∧ ((3 : Byte) = 3 ∨ (3 : Byte) = 4) ∧ ((4 : Byte) = 3 ∨ (4 : Byte) = 4) ∧
    ((0 : Byte) = 0 ∨ (0 : Byte) = 1) ∧ ((1 : Byte) = 0 ∨ (1 : Byte) = 1) ∧ State.reset.pxcnt = 0 := by decide

/-- The last pixel of a pass; the whole trailer; a mismatch at its first and at its last byte; the end of input and a failure there. -/
theorem witness_TrailerEndsThePassOrRaises :
    (∃ s t : State, s.phase = .dBody ∧ s.ports.pulls ≠ 0 ∧ engineTurn s = .next t ∧ t.phase ≠ .err ∧ t.pxcnt = t.pxtotal) ∧
    ((trailerAt [0#8, 0#8, 0#8, 0#8, 0#8, 0#8, 0#8, 1#8]).phase = .dTrl ∧
      serves [0#8, 0#8, 0#8, 0#8, 0#8, 0#8, 0#8, 1#8] (trailerAt [0#8, 0#8, 0#8, 0#8, 0#8, 0#8, 0#8, 1#8])) ∧
    serves (([0#8, 0#8, 0#8, 0#8, 0#8, 0#8, 0#8, 1#8] : List Byte).take 0 ++ [1#8]) (trailerAt [1#8]) ∧
    serves (([0#8, 0#8, 0#8, 0#8, 0#8, 0#8, 0#8, 1#8] : List Byte).take 7 ++ [0#8])
      (trailerAt [0#8, 0#8, 0#8, 0#8, 0#8, 0#8, 0#8, 0#8]) ∧
    servesThenEnds (([0#8, 0#8, 0#8, 0#8, 0#8, 0#8, 0#8, 1#8] : List Byte).take 0) (trailerAt []) ∧
    servesThenEnds (([0#8, 0#8, 0#8, 0#8, 0#8, 0#8, 0#8, 1#8] : List Byte).take 7) (trailerAt (List.replicate 7 0#8)) ∧
    servesThenFails (([0#8, 0#8, 0#8, 0#8, 0#8, 0#8, 0#8, 1#8] : List Byte).take 0)
      { trailerAt [] with ports := { Ports.unconnected with readerAnswers := [.fail] } } := by
  refine ⟨⟨{ midDecode [0x79#8] with pxcnt := 3 }, _, rfl, by decide, rfl, by decide, by decide⟩, ?_⟩
  unfold servesThenEnds servesThenFails serves
  decide

theorem witness_DescriptorRoundTrip : ∃ d : Descriptor, descriptorFault d.width d.height d.channels = none ∧ d.colorspace = 1 :=
  ⟨⟨0xFFFFFFFF, 1, 3, 1⟩, by decide⟩

/-- Every truncation length of RGB and RGBA. -/
theorem witness_RgbSetsColourAndKeepsAlpha : ∀ k ∈ [1, 2, 3], 1 ≤ k ∧ k ≤ 3 := by decide
theorem witness_RgbaSetsAllChannels : ∀ k ∈ [1, 2, 3, 4], 1 ≤ k ∧ k ≤ 4 := by decide

theorem witness_RunRepeatsThePreviousPixel : (0 : Nat) ≤ 61 ∧ (61 : Nat) ≤ 61 := by decide

theorem witness_RunIsReYieldedWithoutReading : ∃ s : State, s.phase = .dBody ∧ s.ports.pulls ≠ 0 ∧ 0 < s.codec.run :=
  ⟨decodeAt (codecOf ⟨7, 7, 7, 255⟩ 2 []) [], by decide⟩

theorem witness_StepRunsTheDecodedRecord :
    ((midDecode [0x79#8]).phase = .dBody ∧ (midDecode [0x79#8]).ports.pulls ≠ 0 ∧ (midDecode [0x79#8]).codec.run = 0 ∧
      decode .body [0x79#8] = .ok (.diff 1 0 (-1), []) ∧ serves [0x79#8] (midDecode [0x79#8])) ∧
    (decode .header [0x71#8, 0x6F#8, 0x69#8, 0x66#8, 0#8, 0#8, 0#8, 4#8, 0#8, 0#8, 0#8, 1#8, 4#8, 0#8] = .ok (.header 4 1 4 0, []) ∧
      serves [0x71#8, 0x6F#8, 0x69#8, 0x66#8, 0#8, 0#8, 0#8, 4#8, 0#8, 0#8, 0#8, 1#8, 4#8, 0#8]
        (headerAt [0x71#8, 0x6F#8, 0x69#8, 0x66#8, 0#8, 0#8, 0#8, 4#8, 0#8, 0#8, 0#8, 1#8, 4#8, 0#8])) ∧
    (decode .trailer [0#8, 0#8, 0#8, 0#8, 0#8, 0#8, 0#8, 1#8] = .ok (.trailer, []) ∧
      serves [0#8, 0#8, 0#8, 0#8, 0#8, 0#8, 0#8, 1#8] (trailerAt [0#8, 0#8, 0#8, 0#8, 0#8, 0#8, 0#8, 1#8])) ∧
    (midDecode []).turns = [] ∧ ({ State.reset with turns := [.engine] } : State).turns = .engine :: [] := by
  unfold serves
  decide

/-- Section 2.4, truncation: at the tag, and with one payload byte of RGB missing; a failure at the tag and in the payload; a run. -/
theorem witness_TruncatedOpcodeRaises :
    ((midDecode []).phase = .dBody ∧ (midDecode []).ports.pulls ≠ 0 ∧ (midDecode []).codec.run = 0 ∧ servesThenEnds [] (midDecode [])) ∧
    ([0xFE#8, 1#8, 2#8].length < recordLength 0xFE#8 ∧ servesThenEnds [0xFE#8, 1#8, 2#8] (midDecode [0xFE#8, 1#8, 2#8])) ∧
    servesThenFails [] { midDecode [] with ports := { Ports.unconnected with readerAnswers := [.fail] } } ∧
    servesThenFails [0x80#8] { midDecode [] with ports := { Ports.unconnected with
      reader := Memory.ofBytes [0x80#8], readerAnswers := [.serve, .fail] } } ∧
    0 < (decodeAt (codecOf ⟨7, 7, 7, 255⟩ 2 []) []).codec.run := by
  unfold servesThenEnds servesThenFails serves
  decide

theorem witness_EachBodyStepYieldsOnePixel : ∃ t, (midDecode [0x79#8]).phase = .dBody ∧ (midDecode [0x79#8]).ports.pulls ≠ 0 ∧
    engineTurn (midDecode [0x79#8]) = .next t ∧ t.phase ≠ .err :=
  ⟨_, rfl, by decide, rfl, by decide⟩

/-- The run at the cap, the last pixel of the image, an ordinary repeat, and a Writer that fails the flush. -/
theorem witness_EqualPixelIsCountedIntoTheRun :
    (∃ s : State, s.phase = .eBody ∧ s.ports.source = [s.codec.prev] ∧ s.codec.run = 61 ∧ accepts 1 s) ∧
    (∃ s : State, s.phase = .eBody ∧ s.ports.source = [s.codec.prev] ∧ s.codec.run = 0 ∧ s.pxcnt + 1 = s.pxtotal ∧ accepts 1 s) ∧
    (∃ s : State, s.phase = .eBody ∧ s.ports.source = [s.codec.prev] ∧ s.codec.run = 0 ∧ s.pxcnt + 1 ≠ s.pxtotal) ∧
    (∃ s : State, s.phase = .eBody ∧ s.ports.source = [s.codec.prev] ∧ s.codec.run = 61 ∧ s.ports.writerAnswers = [.fail 0]) := by
  refine ⟨⟨encodeAt false (codecOf ⟨5, 5, 5, 255⟩ 61 []) ⟨5, 5, 5, 255⟩, rfl, rfl, rfl, by unfold accepts; decide⟩,
    ⟨{ encodeAt false (codecOf ⟨5, 5, 5, 255⟩ 0 []) ⟨5, 5, 5, 255⟩ with pxcnt := 3 }, rfl, rfl, rfl, rfl, by unfold accepts; decide⟩,
    ⟨encodeAt false (codecOf ⟨5, 5, 5, 255⟩ 0 []) ⟨5, 5, 5, 255⟩, rfl, rfl, rfl, by decide⟩,
    ⟨{ encodeAt false (codecOf ⟨5, 5, 5, 255⟩ 61 []) ⟨5, 5, 5, 255⟩ with
      ports := { Ports.unconnected with source := [⟨5, 5, 5, 255⟩], writerAnswers := [.fail 0] } }, rfl, rfl, rfl, rfl⟩⟩

theorem witness_CacheHitIsEmittedAsIndex : ∃ (s : State) (px : Pixel), s.phase = .eBody ∧ s.ports.source = [px] ∧ px ≠ s.codec.prev ∧
    slotAt (pixelHash px) s.codec = px ∧ s.codec.run = 61 ∧ accepts 2 s :=
  ⟨encodeAt false (codecOf ⟨11, 10, 9, 255⟩ 61 [⟨10, 10, 10, 255⟩]) ⟨10, 10, 10, 255⟩, ⟨10, 10, 10, 255⟩, rfl, rfl, by decide, by decide,
    rfl, by unfold accepts; decide⟩

theorem witness_CacheMissIsEmittedByTheDeltas : ∃ (s : State) (px : Pixel), s.phase = .eBody ∧ s.ports.source = [px] ∧
    px ≠ s.codec.prev ∧ slotAt (pixelHash px) s.codec ≠ px ∧ s.codec.run = 61 ∧ accepts 2 s :=
  ⟨encodeAt false (codecOf ⟨10, 10, 10, 255⟩ 61 []) ⟨11, 10, 9, 255⟩, ⟨11, 10, 9, 255⟩, rfl, rfl, by decide, by decide,
    rfl, by unfold accepts; decide⟩

theorem witness_EncoderEmitsOnlyWellFormedOpcodes : (codecOf ⟨5, 5, 5, 255⟩ 61 []).run ≤ 61 ∧ Codec.initial.run ≤ 61 := by decide

theorem witness_RunOfSixtyTwoIsOneRecord : Codec.initial.run = 0 ∧ (⟨1, 1, 1, 255⟩ : Pixel) ≠ Codec.initial.prev := by decide

theorem witness_OpaqueImagesUseNoRgba : Codec.initial.prev.a = 255 ∧ ∀ px ∈ [(⟨1, 2, 3, 255⟩ : Pixel), ⟨9, 9, 9, 255⟩], px.a = 255 := by
  decide

/-- Agreeing caches, and caches that differ in the refreshed slot 53. -/
theorem witness_ChosenRecordReconstructsThePixel :
    (∃ (c : Codec) (s : State) (px : Pixel), px ≠ c.prev ∧ c.run = 0 ∧ s.codec.prev = c.prev ∧ s.codec.run = 0 ∧ CachesAgree c s.codec) ∧
    CachesAgree Codec.initial (cacheUpdate ⟨0, 0, 0, 255⟩ Codec.initial) := by
  refine ⟨⟨Codec.initial, State.reset, ⟨1, 1, 1, 255⟩, by decide, rfl, rfl, rfl, fun _ => .inl rfl⟩, ?_⟩
  intro k
  by_cases h : k = pixelHash ⟨0, 0, 0, 255⟩
  · subst h; exact .inr (by decide)
  · left; rw [slotAt_cacheUpdate, if_neg h]

/-- The images of the two whole-pass statements: one pixel, and 2 x 2. -/
theorem witness_EncodePassWritesTheCanonicalStream :
    validImage ⟨1, 1, 3, 1⟩ [⟨0, 0, 0, 255⟩] ∧
    validImage ⟨2, 2, 3, 1⟩ [⟨255, 255, 255, 255⟩, ⟨0, 0, 0, 255⟩, ⟨252, 0, 252, 255⟩, ⟨252, 0, 252, 255⟩] := by
  unfold validImage
  decide

theorem witness_RoundTripIsExact : validImage ⟨1, 2, 4, 0⟩ [⟨0, 0, 0, 0⟩, ⟨0, 0, 0, 254⟩] := by
  unfold validImage
  decide

end Sys2Proof.Tests
end

section
/-! The scope family (00_scope.md): the bytes of the header integers (R11), and how a step fetches and runs one record (R13). -/

namespace Sys2Proof

/-- Settles O7: the three laws of `be32` and `unbe32`, each as arithmetic on the value. -/
theorem headerIntegersAreBigEndian : Obligations.HeaderIntegersAreBigEndian :=
  ⟨be32_toNat, fun v => ⟨rfl, unbe32_be32 v⟩, be32_unbe32⟩

/-! ### How many bytes an accepted record has -/

theorem length_of_decodeHeader {bytes rest : List Byte} {i : Instr} (h : decodeHeader bytes = .ok (i, rest)) :
    bytes.length = Config.hdrLen + rest.length := by
  unfold decodeHeader at h
  split at h
  · split at h <;> cases h
    simp only [List.length_cons, Config.hdrLen]
    omega
  · cases h

theorem length_of_decodeBody {b1 : Byte} {payload rest : List Byte} {i : Instr}
    (h : decodeBody (b1 :: payload) = .ok (i, rest)) : (b1 :: payload).length = recordLength b1 + rest.length := by
  obtain ⟨short, complete⟩ := decodeBody_short b1 payload
  have hle : recordLength b1 ≤ (b1 :: payload).length := by
    by_contra hlt
    rw [short (by omega)] at h
    cases h
  obtain ⟨j, hj⟩ := complete hle
  rw [hj] at h
  cases h
  rw [List.length_drop]
  omega

theorem decodeTrailer_ok {bytes rest : List Byte} {i : Instr} (h : decodeTrailer bytes = .ok (i, rest)) :
    i = .trailer ∧ bytes = Config.trailerBytes ++ rest := by
  unfold decodeTrailer at h
  split at h <;> cases h
  next htake => exact ⟨rfl, by rw [← htake, List.take_append_drop]⟩

end Sys2Proof

namespace Sys2Proof.Machine

/-! ### The engine's turn in each phase that fetches -/

theorem engineTurn_dHdr {s : State} (h : s.phase = .dHdr) : engineTurn s = decodeHeaderStep s := by
  simp only [engineTurn, h]

theorem engineTurn_dTrl {s : State} (h : s.phase = .dTrl) : engineTurn s = checkTrailer Config.trailerBytes s := by
  simp only [engineTurn, h]

theorem engineTurn_dBody {s : State} (h : s.phase = .dBody) (hp : s.ports.pulls ≠ 0) :
    engineTurn s = decodeBodyStep (takePull s) := by
  simp only [engineTurn, h, if_neg hp]

theorem decodeBodyStep_of_no_run {s : State} (h : s.codec.run = 0) : decodeBodyStep s = decodeOpcode s := by
  rw [decodeBodyStep, if_neg (by omega)]

/-- Answering a pull of the sink leaves what the Reader will serve. -/
theorem serves_takePull {bytes : List Byte} {s : State} (h : serves bytes s) : serves bytes (takePull s) := h

/-! ### A fetch of served bytes runs the record they decode to -/

theorem runRecord_of_decode {p : Position} {bytes rest : List Byte} {i : Instr} (h : decode p bytes = .ok (i, rest)) (s : State) :
    runRecord p bytes s = exec i s := by
  rw [runRecord, h]

theorem decodeHeaderStep_of_serves {bytes : List Byte} {i : Instr} {s : State} (h : decode .header bytes = .ok (i, []))
    (hs : serves bytes s) : decodeHeaderStep s = exec i (afterPulls bytes.length s) := by
  have hlen : bytes.length = Config.hdrLen := length_of_decodeHeader h
  rw [decodeHeaderStep, ← hlen, pullBytes_of_serves hs]
  exact runRecord_of_decode h _

/-- The tag byte tells the payload's length, so the two pulls together take exactly the record (R110). -/
theorem decodeOpcode_of_serves {bytes : List Byte} {i : Instr} {s : State} (h : decode .body bytes = .ok (i, []))
    (hs : serves bytes s) : decodeOpcode s = exec i (afterPulls bytes.length s) := by
  cases bytes with
  | nil => cases h
  | cons b1 payload =>
    have hlen : (b1 :: payload).length = recordLength b1 := length_of_decodeBody h
    obtain ⟨htag, hpayload⟩ := serves_append (xs := [b1]) hs
    have pullTag : pullBytes 1 s = .got [b1] (afterPulls 1 s) := pullBytes_of_serves htag
    have pullPayload : pullBytes (recordLength b1 - 1) (afterPulls 1 s) = .got payload (afterPulls (b1 :: payload).length s) := by
      rw [← hlen, List.length_cons, Nat.add_sub_cancel, ← afterPulls_succ payload.length]
      exact pullBytes_of_serves hpayload
    simp only [decodeOpcode, pullTag, List.headD_cons, pullPayload]
    exact runRecord_of_decode h _

/-- The trailer is checked byte by byte; served in full, it runs TRAILER after all of them (R147). -/
theorem checkTrailer_of_serves {expected : List Byte} {s : State} (hs : serves expected s) :
    checkTrailer expected s = exec .trailer (afterPulls expected.length s) := by
  induction expected generalizing s with
  | nil => rfl
  | cons b rest ih =>
    obtain ⟨hanswer, hbyte, hrest⟩ := serves_cons hs
    simp only [checkTrailer, nextByte_of_serve hanswer hbyte, if_true, ih hrest, afterPulls_succ, List.length_cons]

/-! ### Whose turn a step is -/

theorem step_of_no_turns {s : State} (h : s.turns = []) : step s = engineTurn s := by
  simp only [step, nextTurn, h]

theorem step_of_engine_turn {s : State} {rest : List Turn} (h : s.turns = .engine :: rest) :
    step s = engineTurn { s with turns := rest } := by
  simp only [step, nextTurn, h, takeTurn]

/-- Settles O47: the phase picks the fetch, the fetch pulls exactly the record's bytes, and the record they decode to is run. -/
theorem stepRunsTheDecodedRecord : Obligations.StepRunsTheDecodedRecord := by
  refine ⟨?body, ?header, ?trailer, fun _ => step_of_no_turns, fun _ _ => step_of_engine_turn⟩
  case body =>
    intro s bytes i hphase hpulls hrun hdec hserves
    have norun : (takePull s).codec.run = 0 := hrun
    rw [engineTurn_dBody hphase hpulls, decodeBodyStep_of_no_run norun, decodeOpcode_of_serves hdec (serves_takePull hserves)]
  case header =>
    intro s bytes i hphase hdec hserves
    rw [engineTurn_dHdr hphase, decodeHeaderStep_of_serves hdec hserves]
  case trailer =>
    intro s bytes i hphase hdec hserves
    obtain ⟨rfl, hbytes⟩ := decodeTrailer_ok hdec
    obtain rfl : bytes = Config.trailerBytes := by rw [hbytes, List.append_nil]
    rw [engineTurn_dTrl hphase, checkTrailer_of_serves hserves]

end Sys2Proof.Machine
end

section
/-! The state family (10_state.md), first part: what a step of any agent can do, the parameters (R37), and the STATUS and ERR words (R31,
R32). -/

namespace Sys2Proof.Machine

/-! ### What one step can do

A step is one turn. A turn is the engine's, or it gives the engine a command, or it leaves the engine itself alone. -/

/-- The turn a step takes, whether the schedule names it or not (log entry 1). -/
theorem step_eq_takeTurn (s : State) : step s = takeTurn (s.turns.headD .engine) { s with turns := s.turns.tail } := by
  cases h : s.turns with
  | nil =>
    have unchanged : { s with turns := [] } = s := by rw [← h]
    simp only [step_of_no_turns h, List.headD_nil, List.tail_nil, takeTurn, unchanged]
  | cons t rest => simp only [step, nextTurn, h, List.headD_cons, List.tail_cons]

/-- The host operations that can give the engine a command (R33). -/
def givesCommand : HostOp → Prop
  | .command _ => True
  | .write r _ => r = .cmd
  | .busWrite _ _ => True
  | _ => False

/-- From `s` to `t` only the agents around the engine have moved: nothing but ports, coming turns, the host's read value and, between
passes, the descriptor registers differs, and the streams stay canonical. -/
def SurroundingsMove (s t : State) : Prop :=
  ∃ d p r ts, t = { s with desc := d, ports := p, hostRead := r, turns := ts } ∧ (d = s.desc ∨ busy s = false) ∧
    (StreamsCanonical s → StreamsCanonical t)

theorem SurroundingsMove.refl (s : State) : SurroundingsMove s s := ⟨_, _, _, _, rfl, .inl rfl, id⟩

/-- A register write other than to `CMD` reaches the descriptor registers at most (R26, R264). -/
theorem writeReg_moves_surroundings {r : HostReg} (hr : r ≠ .cmd) (v : Nat) (s : State) : SurroundingsMove s (writeReg r v s) := by
  cases hb : busy s <;> cases r <;> simp only [writeReg, hb]
  case false.cmd | true.cmd => exact absurd rfl hr
  case false.width | false.height | false.channels | false.colorspace => exact ⟨_, _, _, _, rfl, .inr hb, id⟩
  all_goals exact .refl s

theorem writeReg_command_or_surroundings (r : HostReg) (v : Nat) (s : State) :
    (r = .cmd ∧ ∃ c, writeReg r v s = command c s) ∨ SurroundingsMove s (writeReg r v s) := by
  by_cases hr : r = .cmd
  · subst hr
    rcases writeReg_cases .cmd v s with h | ⟨hb, d, h⟩ | h
    · rw [h]; exact .inr (.refl s)
    · rw [h]; exact .inr ⟨d, _, _, _, rfl, .inr hb, id⟩
    · exact .inl ⟨rfl, h⟩
  · exact .inr (writeReg_moves_surroundings hr v s)

/-- Every host operation is a command or moves the surroundings only (R264, R322, R323). -/
theorem hostTurn_command_or_surroundings {op : HostOp} {s t : State} (h : hostTurn op s = .next t) :
    (givesCommand op ∧ ∃ c, t = command c s) ∨ SurroundingsMove s t := by
  have connect : ∀ u, betweenPasses s u = .next t → SurroundingsMove s u → SurroundingsMove s t := by
    intro u hu hm
    unfold betweenPasses at hu
    split at hu <;> cases hu
    exact hm
  cases op with
  | command c => cases h; exact .inl ⟨trivial, c, rfl⟩
  | write r v => cases h; exact writeReg_command_or_surroundings r v s
  | read r => cases h; exact .inr ⟨_, _, _, _, rfl, .inl rfl, id⟩
  | busWrite a v =>
    simp only [hostTurn] at h
    split at h <;> cases h
    · exact (writeReg_command_or_surroundings _ v s).imp_left fun ⟨_, hc⟩ => ⟨trivial, hc⟩
    · exact .inr (.refl s)
  | busRead a =>
    simp only [hostTurn] at h
    split at h <;> cases h
    · exact .inr ⟨_, _, _, _, rfl, .inl rfl, id⟩
    · exact .inr (.refl s)
  | connectReader bs as => exact .inr (connect _ h ⟨_, _, _, _, rfl, .inl rfl, fun hs => ⟨Memory.wf_ofBytes bs, hs.2⟩⟩)
  | connectWriter as => exact .inr (connect _ h ⟨_, _, _, _, rfl, .inl rfl, fun hs => ⟨hs.1, .nil⟩⟩)
  | connectSource ps => exact .inr (connect _ h ⟨_, _, _, _, rfl, .inl rfl, id⟩)
  | connectSink => exact .inr (connect _ h ⟨_, _, _, _, rfl, .inl rfl, id⟩)

theorem changeByte_moves_surroundings (offset : Nat) (v : Byte) (s : State) : SurroundingsMove s (changeByte offset v s) := by
  unfold changeByte
  split
  · exact .refl s
  · exact ⟨_, _, _, _, rfl, .inl rfl, fun hs => ⟨Memory.wf_write hs.1 offset v, hs.2⟩⟩

/-- Everything a turn can do: the engine's turn, a command, or a move of the surroundings. -/
theorem takeTurn_cases {turn : Turn} {s t : State} (h : takeTurn turn s = .next t) :
    (turn = .engine ∧ engineTurn s = .next t) ∨
    (∃ op c, turn = .host op ∧ givesCommand op ∧ t = command c s) ∨
    SurroundingsMove s t := by
  cases turn with
  | engine => exact .inl ⟨rfl, h⟩
  | stall => cases h; exact .inr (.inr (.refl s))
  | host op =>
    refine .inr ((hostTurn_command_or_surroundings h).imp_left ?_)
    rintro ⟨hop, c, hc⟩
    exact ⟨op, c, rfl, hop, hc⟩
  | offer px => cases h; exact .inr (.inr ⟨_, _, _, _, rfl, .inl rfl, id⟩)
  | pull => cases h; exact .inr (.inr ⟨_, _, _, _, rfl, .inl rfl, id⟩)
  | changeByte offset v => cases h; exact .inr (.inr (changeByte_moves_surroundings offset v s))

/-! ### The parameters -/

theorem EmitFailure.params_eq {is : List Instr} {s t : State} (h : EmitFailure is s t) : t.params = s.params := by
  obtain ⟨done, i, rest, n, -, rfl⟩ := h
  rfl

theorem exec_body_params {i : Instr} (hi : i.position = .body) {s t : State} (h : exec i s = .next t) : t.params = s.params := by
  obtain ⟨px, c, he, -⟩ := exec_body hi s
  cases he.symm.trans h
  exact yieldPixel_params ..

theorem decodeOpcode_params {s t : State} (h : decodeOpcode s = .next t) : t.params = s.params := by
  rcases decodeOpcode_cases s with ⟨k, c, why, -, hd⟩ | ⟨i, k, -, -, -, hi, hd⟩
  · cases hd.symm.trans h; rfl
  · exact (exec_body_params hi (hd.symm.trans h)).trans (afterPulls_params k s)

theorem engineTurn_params {s t : State} (h : engineTurn s = .next t) : t.params = s.params := by
  rcases engineTurn_cases h with rfl | ⟨-, rfl⟩ | ⟨-, px, rest, -, rfl⟩ | ⟨-, rfl⟩ | ⟨-, hd⟩ | ⟨-, -, -, rfl⟩ | ⟨-, -, -, hd⟩ |
    ⟨-, hd⟩
  · rfl
  · rcases emitHeader_cases s with he | he
    · rw [he]; rfl
    · exact he.params_eq
  · rcases encodePixel_cases px s with he | he
    · rw [he]; rfl
    · exact he.params_eq
  · rcases emitTrailer_cases s with he | he
    · rw [he]; rfl
    · exact he.params_eq
  · obtain ⟨u, hu, ⟨k, c, why, -, rfl⟩ | ⟨c, rfl⟩ | ⟨w, ht, c, sp, -, rfl⟩⟩ := decodeHeaderStep_cases s <;>
      cases hu.symm.trans hd <;> rfl
  · exact reYield_params (takePull s)
  · exact (decodeOpcode_params hd).trans (takePull_params s)
  · obtain ⟨u, hu, ⟨k, c, why, -, rfl⟩ | ⟨k, -, rfl⟩ | rfl⟩ := checkTrailer_cases Config.trailerBytes s <;>
      cases hu.symm.trans hd <;> rfl

theorem command_params (c : Command) (s : State) : (command c s).params = s.params := by
  rcases command_cases c s with h | h | ⟨-, h | h⟩ <;> rw [h]
  · rfl
  · rcases startEncode_cases s with ⟨-, h⟩ | ⟨e, -, h⟩ <;> rw [h] <;> rfl
  · rfl

/-- Settles O16: none of the three kinds of turn writes a parameter. -/
theorem noStepChangesTheParameters : Obligations.NoStepChangesTheParameters := by
  intro s t h
  rw [step_eq_takeTurn] at h
  rcases takeTurn_cases h with ⟨-, he⟩ | ⟨op, c, -, -, rfl⟩ | ⟨d, p, r, ts, rfl, -⟩
  · exact (engineTurn_params he).trans rfl
  · exact command_params c _
  · rfl

/-! ### The STATUS word -/

theorem statusWord_flags (s : State) :
    (statusWord s).getLsbD 0 = busy s ∧ (statusWord s).getLsbD 1 = doneFlag s ∧ (statusWord s).getLsbD 2 = errFlag s ∧
    (statusWord s).getLsbD 3 = modeFlag s ∧ (statusWord s).getLsbD 4 = hasMore s ∧ (statusWord s).getLsbD 5 = pixelReady s := by
  simp only [statusWord, BitVec.getLsbD_append, BitVec.getLsbD_ofBool]
  simp

theorem statusWord_fields (s : State) :
    (statusWord s).extractLsb' 6 2 = 0#2 ∧ (statusWord s).extractLsb' 8 4 = phaseCode s.phase ∧
    (statusWord s).extractLsb' 12 20 = 0#20 := by
  refine ⟨?_, ?_, ?_⟩ <;> apply BitVec.eq_of_getLsbD_eq <;> intro i hi <;>
    simp only [BitVec.getLsbD_extractLsb', statusWord, BitVec.getLsbD_append] <;> grind

/-- Settles O23: each bit is its flag, each flag is the condition it decides, and the phase's code is the field's number. -/
theorem statusWordBits : Obligations.StatusWordBits := by
  intro s
  obtain ⟨bit0, bit1, bit2, bit3, bit4, bit5⟩ := statusWord_flags s
  obtain ⟨reserved, code, unused⟩ := statusWord_fields s
  refine ⟨?_, ?_, ?_, ?_, ?_, ?_, reserved, ?_, unused⟩
  · rw [bit0, busy_iff, encoding, decoding]; simp only [or_assoc]
  · rw [bit1, doneFlag, decide_eq_true_iff]
  · rw [bit2, errFlag, decide_eq_true_iff]
  · rw [bit3, modeFlag, decide_eq_true_iff]
  · rw [bit4, hasMore, decide_eq_true_iff]
  · rw [bit5, pixelReady, decide_eq_true_iff]
  · rw [code]
    cases s.phase <;> rfl

/-! ### The ERR word -/

theorem engineTurn_err {s : State} (h : s.phase = .err) : engineTurn s = .next s := by
  simp only [engineTurn, h]

/-- Settles O24: the fields by cases on the cause; in phase ERR the engine waits, and no turn but a command reaches the record. -/
theorem errRegisterIsStickyAndCoded : Obligations.ErrRegisterIsStickyAndCoded := by
  refine ⟨fun s h => by rw [errWord, h], fun s c h => ?fields, fun s t hphase hstep hcommand hwrite hbus => ?sticky⟩
  case fields =>
    simp only [errWord, h]
    cases c <;> decide
  case sticky =>
    rw [step_eq_takeTurn] at hstep
    rcases takeTurn_cases hstep with ⟨-, he⟩ | ⟨op, c, hop, hg, -⟩ | ⟨d, p, r, ts, rfl, -⟩
    · have waits := engineTurn_err (s := { s with turns := s.turns.tail }) hphase
      cases waits.symm.trans he
      exact ⟨hphase, rfl, rfl, rfl⟩
    · have hhead : s.turns.head? = some (.host op) := by
        cases hturns : s.turns <;> simp_all
      cases op <;> simp_all [givesCommand]
    · exact ⟨hphase, rfl, rfl, rfl⟩

end Sys2Proof.Machine
end

section
/-! The state family (10_state.md), second part: the invariant of the machine, read phase by phase, and that every step of every agent keeps
it (R22, R26 to R32, R168, R190, R196). -/

namespace Sys2Proof.Machine

/-! ### The invariant, phase by phase -/

/-- What the invariant asks in every phase (R22, R27 to R29, R168). -/
structure PhaseFreeInv (s : State) : Prop where
  streams : StreamsCanonical s
  codec   : CodecInv s.codec
  pixels  : s.pxcnt ≤ s.pxtotal
  total   : s.pxtotal ≤ (2 ^ 32 - 1) * (2 ^ 32 - 1)
  cursor  : s.cur ≤ 22 + 5 * s.pxtotal

/-- Nothing has happened in the pass yet (R142, R144). -/
def AtPassStart (s : State) : Prop := s.cur = 0 ∧ s.pxcnt = 0 ∧ s.pxtotal = 0 ∧ s.codec = Codec.initial

/-- A descriptor is legal and its dimensions give the pixel total (R29, R288). -/
def DescribesPass (d : Descriptor) (s : State) : Prop :=
  descriptorFault d.width d.height d.channels = none ∧ s.pxtotal = pixelTotal d.width d.height

/-- What the invariant asks beyond that in the phase the state is in (R26 to R32). -/
def PhaseInv (s : State) : Prop :=
  match s.phase with
  | .idle => s.err = none
  | .eHdr => s.err = none ∧ s.mode = .enc ∧ AtPassStart s ∧
      descriptorFault s.latched.width s.latched.height s.latched.channels = none
  | .eBody => s.err = none ∧ s.mode = .enc ∧ DescribesPass s.latched s ∧ s.pxcnt < s.pxtotal ∧
      s.cur + owedByte s ≤ 14 + 5 * s.pxcnt
  | .eTrl => s.err = none ∧ s.mode = .enc ∧ DescribesPass s.latched s ∧ s.pxcnt = s.pxtotal ∧
      s.codec.run = 0 ∧ s.cur + owedByte s ≤ 14 + 5 * s.pxcnt
  | .dHdr => s.err = none ∧ s.mode = .dec ∧ AtPassStart s
  | .dBody => s.err = none ∧ s.mode = .dec ∧ DescribesPass s.desc s ∧ s.pxcnt < s.pxtotal ∧ s.cur ≤ 14 + 5 * s.pxcnt
  | .dTrl => s.err = none ∧ s.mode = .dec ∧ DescribesPass s.desc s ∧ s.pxcnt = s.pxtotal ∧
      s.params.strictTrailer = true ∧ s.cur ≤ 14 + 5 * s.pxcnt
  | .done => s.err = none ∧ s.pxcnt = s.pxtotal
  | .err => s.err.isSome

theorem phaseFreeInv_of_inv {s : State} (h : Inv s) : PhaseFreeInv s :=
  ⟨h.streams, h.codec, h.cursor.pixels, h.cursor.total, h.cursor.cursor⟩

theorem phaseInv_of_inv {s : State} (h : Inv s) : PhaseInv s := by
  obtain ⟨-, -, hp, hc⟩ := h
  have noErr : s.phase ≠ .err → s.err = none := by simpa using mt hp.error.1
  unfold PhaseInv
  cases hphase : s.phase <;> simp only [hphase, reduceCtorEq, ne_eq, not_false_eq_true, forall_const] at noErr
  case idle => exact noErr
  case eHdr => exact ⟨noErr, hp.encMode (.inl hphase), hp.fresh (.inl hphase), hp.latched (.inl hphase)⟩
  case eBody =>
    have enc : encoding s := .inr (.inl hphase)
    exact ⟨noErr, hp.encMode enc, ⟨hp.latched enc, hp.encTotal (.inl hphase)⟩, hp.body (.inl hphase), hc.encBody (.inl hphase)⟩
  case eTrl =>
    have enc : encoding s := .inr (.inr hphase)
    exact ⟨noErr, hp.encMode enc, ⟨hp.latched enc, hp.encTotal (.inr hphase)⟩, hp.finished (.inl hphase), hp.flushed hphase,
      hc.encBody (.inr hphase)⟩
  case dHdr => exact ⟨noErr, hp.decMode (.inl hphase), hp.fresh (.inr hphase)⟩
  case dBody =>
    exact ⟨noErr, hp.decMode (.inr (.inl hphase)), ⟨hp.accepted (.inl hphase), hp.decTotal (.inl hphase)⟩,
      hp.body (.inr hphase), hc.decBody (.inl hphase)⟩
  case dTrl =>
    exact ⟨noErr, hp.decMode (.inr (.inr hphase)), ⟨hp.accepted (.inr hphase), hp.decTotal (.inr hphase)⟩,
      hp.finished (.inr (.inl hphase)), hp.strict hphase, hc.decBody (.inr hphase)⟩
  case done => exact ⟨noErr, hp.finished (.inr (.inr hphase))⟩
  case err => exact hp.error.2 hphase

theorem inv_of_phaseInv {s : State} (h : PhaseFreeInv s) (hp : PhaseInv s) : Inv s := by
  obtain ⟨streams, codec, pixels, total, cursor⟩ := h
  unfold PhaseInv at hp
  refine ⟨streams, codec, ?pass, ?cursor⟩
  all_goals
    cases hphase : s.phase <;> simp only [hphase, AtPassStart, DescribesPass] at hp <;> constructor <;>
      grind [encoding, decoding]

/-- Settles O13: in IDLE with no error, canonical streams, the initial Codec State and three zeros are all that is asked. -/
theorem resetSatisfiesTheInvariant : Obligations.ResetSatisfiesTheInvariant :=
  inv_of_phaseInv ⟨⟨.nil, .nil⟩, CodecInv_initial, Nat.le_refl 0, Nat.zero_le _, Nat.zero_le _⟩ rfl

/-- Settles O15: the total is at most the product of two 32-bit dimensions, and the cursor at most 22 bytes beyond five a pixel. -/
theorem countersFitTheirRegisters : Obligations.CountersFitTheirRegisters := by
  intro s h
  obtain ⟨-, -, pixels, total, cursor⟩ := phaseFreeInv_of_inv h
  omega

/-! ### The turns of the other agents -/

/-- An error may be raised in any phase (R285). -/
theorem inv_raiseError {s : State} (h : PhaseFreeInv s) (c : ErrorCause) : Inv (raiseError c s) :=
  inv_of_phaseInv ⟨h.streams, h.codec, h.pixels, h.total, h.cursor⟩ rfl

theorem inv_leaveToIdle {s : State} (h : PhaseFreeInv s) : Inv (leaveToIdle s) :=
  inv_of_phaseInv ⟨h.streams, h.codec, h.pixels, h.total, h.cursor⟩ rfl

theorem inv_startEncode {s : State} (h : StreamsCanonical s) : Inv (startEncode s) := by
  rcases startEncode_cases s with ⟨legal, he⟩ | ⟨c, -, he⟩ <;> rw [he]
  · exact inv_of_phaseInv ⟨h, CodecInv_initial, Nat.le_refl 0, Nat.zero_le _, Nat.zero_le _⟩ ⟨rfl, rfl, ⟨rfl, rfl, rfl, rfl⟩, legal⟩
  · have start : PhaseFreeInv { passStart .enc s with latched := s.desc } :=
      ⟨h, CodecInv_initial, Nat.le_refl 0, Nat.zero_le _, Nat.zero_le _⟩
    exact inv_raiseError start c

theorem inv_startDecode {s : State} (h : StreamsCanonical s) : Inv (startDecode s) :=
  inv_of_phaseInv ⟨h, CodecInv_initial, Nat.le_refl 0, Nat.zero_le _, Nat.zero_le _⟩ ⟨rfl, rfl, rfl, rfl, rfl, rfl⟩

theorem inv_command {s : State} (h : Inv s) (c : Command) : Inv (command c s) := by
  rcases command_cases c s with he | he | ⟨-, he | he⟩ <;> rw [he]
  · exact inv_leaveToIdle (phaseFreeInv_of_inv h)
  · exact h
  · exact inv_startEncode h.streams
  · exact inv_startDecode h.streams

/-- Of what the surroundings reach the invariant reads the streams and the descriptor registers, and the latter only in a pass. -/
theorem inv_of_surroundingsMove {s t : State} (h : Inv s) (ht : SurroundingsMove s t) : Inv t := by
  obtain ⟨streams, codec, pixels, total, cursor⟩ := phaseFreeInv_of_inv h
  have hp := phaseInv_of_inv h
  obtain ⟨d, p, r, ts, rfl, hd, canonical⟩ := ht
  refine inv_of_phaseInv ⟨canonical streams, codec, pixels, total, cursor⟩ ?_
  rcases hd with rfl | idle
  · exact hp
  · unfold PhaseInv at hp ⊢
    cases hphase : s.phase <;> simp only [busy, hphase, reduceCtorEq] at idle hp ⊢ <;> exact hp

/-! ### Pulling and emitting -/

theorem phaseFreeInv_afterPulls {s : State} (h : PhaseFreeInv s) {k : Nat} (hk : s.cur + k ≤ 22 + 5 * s.pxtotal) :
    PhaseFreeInv (afterPulls k s) :=
  ⟨h.streams, h.codec, h.pixels, h.total, hk⟩

theorem phaseFreeInv_stopReader {s : State} (h : PhaseFreeInv s) (why : ReaderStop) : PhaseFreeInv (stopReader why s) :=
  ⟨h.streams, h.codec, h.pixels, h.total, h.cursor⟩

/-- A pull that stops raises its error with every byte before it counted (R67, R285). -/
theorem inv_of_pull_stopped {s : State} (h : PhaseFreeInv s) {k : Nat} (hk : s.cur + k ≤ 22 + 5 * s.pxtotal) (c : ErrorCause)
    (why : ReaderStop) : Inv (raiseError c (stopReader why (afterPulls k s))) :=
  inv_raiseError (phaseFreeInv_stopReader (phaseFreeInv_afterPulls h hk) why) c

theorem phaseFreeInv_afterEmits {s : State} (h : PhaseFreeInv s) (n : Nat) {bytes : List Byte}
    (hlen : s.cur + bytes.length ≤ 22 + 5 * s.pxtotal) : PhaseFreeInv (afterEmits n bytes s) :=
  ⟨⟨h.streams.1, Memory.wf_writeBytes h.streams.2 _ _⟩, h.codec, h.pixels, h.total, hlen⟩

theorem phaseFreeInv_appendBytes {s : State} (h : PhaseFreeInv s) (bytes : List Byte) :
    PhaseFreeInv (appendBytes bytes (takeWriterAnswer s)) :=
  ⟨⟨h.streams.1, Memory.wf_writeBytes h.streams.2 _ _⟩, h.codec, h.pixels, h.total, h.cursor⟩

theorem bytesOf_singleton (i : Instr) : bytesOf [i] = encode i := by
  simp [bytesOf]

theorem length_bytesOf_append (is js : List Instr) : (bytesOf (is ++ js)).length = (bytesOf is).length + (bytesOf js).length := by
  simp [bytesOf]

/-- A failing Writer leaves the cursor short of the records' whole length. -/
theorem inv_of_emitFailure {is : List Instr} {s t : State} (h : PhaseFreeInv s)
    (hlen : s.cur + (bytesOf is).length ≤ 22 + 5 * s.pxtotal) (hf : EmitFailure is s t) : Inv t := by
  obtain ⟨done, i, rest, n, rfl, rfl⟩ := hf
  rw [length_bytesOf_append] at hlen
  exact inv_raiseError (phaseFreeInv_appendBytes (phaseFreeInv_afterEmits h _ (by omega)) _) .writer

/-! ### The encode steps -/

theorem inv_emitHeader {s : State} (h : Inv s) (hphase : s.phase = .eHdr) : Inv (emitHeader s) := by
  have hp := phaseInv_of_inv h
  simp only [PhaseInv, hphase] at hp
  obtain ⟨noErr, enc, ⟨cur0, cnt0, total0, initial⟩, legal⟩ := hp
  obtain ⟨positive, bounded⟩ := pixelTotal_bounds legal
  have hlen : (encode (headerRecord s.latched)).length = 14 := rfl
  have owed0 : owedByte s = 0 := by rw [owedByte, initial]; rfl
  have room : s.cur + (encode (headerRecord s.latched)).length ≤ 22 + 5 * s.pxtotal := by omega
  have hfree := phaseFreeInv_of_inv h
  rcases emitHeader_cases s with he | he
  · obtain ⟨streams, codec, -, -, -⟩ := phaseFreeInv_afterEmits hfree 1 room
    have due : s.pxcnt < pixelTotal s.latched.width s.latched.height := by omega
    have cursor : s.cur + (encode (headerRecord s.latched)).length ≤ 22 + 5 * pixelTotal s.latched.width s.latched.height := by omega
    have paid : s.cur + (encode (headerRecord s.latched)).length + owedByte s ≤ 14 + 5 * s.pxcnt := by omega
    rw [he]
    exact inv_of_phaseInv ⟨streams, codec, due.le, bounded, cursor⟩ ⟨noErr, enc, ⟨legal, rfl⟩, due, paid⟩
  · exact inv_of_emitFailure hfree (by rwa [bytesOf_singleton]) he

theorem length_bytesOf_flushRun (run : Nat) : (bytesOf (flushRun run)).length = if run = 0 then 0 else 1 := by
  cases run <;> rfl

theorem length_encode_missRecord (wrap : Bool) (px prev : Pixel) : (encode (missRecord wrap px prev)).length ≤ 5 := by
  unfold missRecord
  dsimp only
  split_ifs <;> simp [encode]

/-- What one pixel does (R180): end the run, lengthen it, or flush it before one record of at most five bytes. -/
theorem encodeStep_cases (wrap last : Bool) (px : Pixel) (c : Codec) :
    encodeStep wrap last px c = ([.run (c.run + 1)], { c with run := 0 }) ∨
    (c.run + 1 ≠ 62 ∧ last = false ∧ encodeStep wrap last px c = ([], { c with run := c.run + 1 })) ∨
    ∃ i d, encodeStep wrap last px c = (flushRun c.run ++ [i], d) ∧ (encode i).length ≤ 5 ∧ d.run = 0 ∧
      (SlotsHashed c → SlotsHashed d) := by
  unfold encodeStep
  split
  · split
    · exact .inl rfl
    · next hgo =>
      rw [not_or, Bool.not_eq_true] at hgo
      exact .inr (.inl ⟨hgo.1, hgo.2, rfl⟩)
  · split
    · exact .inr (.inr ⟨_, _, rfl, by simp [encode], rfl, id⟩)
    · exact .inr (.inr ⟨_, _, rfl, length_encode_missRecord .., rfl, fun h => SlotsHashed_cacheUpdate h px⟩)

theorem CodecInv_encodeStep {c : Codec} (h : CodecInv c) (wrap last : Bool) (px : Pixel) : CodecInv (encodeStep wrap last px c).2 := by
  obtain ⟨hrun, slots⟩ := h
  rcases encodeStep_cases wrap last px c with he | ⟨hne, -, he⟩ | ⟨i, d, he, -, hd, hslots⟩ <;> rw [he]
  · exact ⟨Nat.zero_le _, slots⟩
  · exact ⟨by show c.run + 1 ≤ 61; omega, slots⟩
  · exact ⟨by show d.run ≤ 61; omega, hslots slots⟩

/-- The last pixel leaves no run pending (R182, R190). -/
theorem encodeStep_last_run (wrap : Bool) (px : Pixel) (c : Codec) : (encodeStep wrap true px c).2.run = 0 := by
  rcases encodeStep_cases wrap true px c with he | ⟨-, hlast, -⟩ | ⟨i, d, he, -, hd, -⟩
  · rw [he]
  · cases hlast
  · rw [he]; exact hd

/-- A pixel costs at most five bytes, when a pending run is counted as the byte it owes (R196). -/
theorem length_encodeStep (wrap last : Bool) (px : Pixel) (c : Codec) :
    (bytesOf (encodeStep wrap last px c).1).length + (if (encodeStep wrap last px c).2.run = 0 then 0 else 1) ≤
      (if c.run = 0 then 0 else 1) + 5 := by
  rcases encodeStep_cases wrap last px c with he | ⟨-, -, he⟩ | ⟨i, d, he, hi, hd, -⟩ <;> rw [he]
  · simp [bytesOf, encode]
  · simp [bytesOf]
  · rw [if_pos hd, length_bytesOf_append, length_bytesOf_flushRun]
    simpa [bytesOf] using hi

theorem inv_encodePixel {s : State} (h : Inv s) (hphase : s.phase = .eBody) (px : Pixel) : Inv (encodePixel px s) := by
  have hp := phaseInv_of_inv h
  simp only [PhaseInv, hphase] at hp
  obtain ⟨noErr, enc, described, due, hcur⟩ := hp
  have hlen : (bytesOf (stepOf s px).1).length + (if (stepOf s px).2.run = 0 then 0 else 1) ≤ owedByte s + 5 :=
    length_encodeStep ..
  have room : s.cur + (bytesOf (stepOf s px).1).length ≤ 22 + 5 * s.pxtotal := by omega
  have hfree : PhaseFreeInv (takePixel s) := ⟨h.streams, h.codec, h.cursor.pixels, h.cursor.total, h.cursor.cursor⟩
  rcases encodePixel_cases px s with he | he
  · obtain ⟨streams, -, -, total, cursor⟩ := phaseFreeInv_afterEmits hfree (stepOf s px).1.length room
    have codec : CodecInv (stepOf s px).2 := CodecInv_encodeStep h.codec ..
    have paid : s.cur + (bytesOf (stepOf s px).1).length + (if (stepOf s px).2.run = 0 then 0 else 1) ≤ 14 + 5 * (s.pxcnt + 1) := by
      omega
    rw [he]
    refine inv_of_phaseInv ⟨streams, codec, due, total, cursor⟩ ?_
    by_cases hlast : s.pxcnt + 1 = s.pxtotal
    · have flushed : (stepOf s px).2.run = 0 := by rw [stepOf, decide_eq_true hlast]; exact encodeStep_last_run ..
      rw [PhaseInv, pixelEncoded_phase, afterEmits_pxcnt, takePixel_pxcnt, afterEmits_pxtotal, takePixel_pxtotal, if_pos hlast]
      exact ⟨noErr, enc, described, hlast, flushed, paid⟩
    · have stillDue : s.pxcnt + 1 < s.pxtotal := by omega
      rw [PhaseInv, pixelEncoded_phase, afterEmits_pxcnt, takePixel_pxcnt, afterEmits_pxtotal, takePixel_pxtotal, if_neg hlast,
        afterEmits_phase, takePixel_phase, hphase]
      exact ⟨noErr, enc, described, stillDue, paid⟩
  · exact inv_of_emitFailure hfree room he

theorem inv_emitTrailer {s : State} (h : Inv s) (hphase : s.phase = .eTrl) : Inv (emitTrailer s) := by
  have hp := phaseInv_of_inv h
  simp only [PhaseInv, hphase] at hp
  obtain ⟨noErr, -, -, complete, flushed, hcur⟩ := hp
  have hlen : (bytesOf (flushRun s.codec.run ++ [Instr.trailer])).length = 8 := by rw [flushed]; rfl
  have room : s.cur + (bytesOf (flushRun s.codec.run ++ [Instr.trailer])).length ≤ 22 + 5 * s.pxtotal := by omega
  have hfree := phaseFreeInv_of_inv h
  rcases emitTrailer_cases s with he | he
  · obtain ⟨streams, codec, pixels, total, cursor⟩ := phaseFreeInv_afterEmits hfree (flushRun s.codec.run ++ [Instr.trailer]).length room
    rw [he]
    exact inv_of_phaseInv ⟨streams, ⟨Nat.zero_le _, codec.slots⟩, pixels, total, cursor⟩ ⟨noErr, complete⟩
  · exact inv_of_emitFailure hfree room he

/-! ### The decode steps -/

theorem inv_acceptHeader {s : State} (h : PhaseFreeInv s) (noErr : s.err = none) (dec : s.mode = .dec) (cnt0 : s.pxcnt = 0)
    (hcur : s.cur = 14) {w l : Word32} {c sp : Byte} (legal : headerFault w l c sp = none) : Inv (acceptHeader w l c sp s) := by
  obtain ⟨positive, bounded⟩ := pixelTotal_bounds (headerFault_none legal)
  have due : s.pxcnt < pixelTotal w l := by omega
  have cursor : s.cur ≤ 22 + 5 * pixelTotal w l := by omega
  have paid : s.cur ≤ 14 + 5 * s.pxcnt := by omega
  exact inv_of_phaseInv ⟨h.streams, h.codec, due.le, bounded, cursor⟩ ⟨noErr, dec, ⟨headerFault_none legal, rfl⟩, due, paid⟩

theorem inv_decodeHeaderStep {s t : State} (h : Inv s) (hphase : s.phase = .dHdr) (ht : decodeHeaderStep s = .next t) : Inv t := by
  have hp := phaseInv_of_inv h
  simp only [PhaseInv, hphase] at hp
  obtain ⟨noErr, dec, cur0, cnt0, -, -⟩ := hp
  have room : ∀ k, k ≤ 14 → s.cur + k ≤ 22 + 5 * s.pxtotal := by omega
  have hfree := phaseFreeInv_of_inv h
  have pulled := phaseFreeInv_afterPulls hfree (room 14 (Nat.le_refl 14))
  obtain ⟨u, hu, ⟨k, c, why, hk, rfl⟩ | ⟨c, rfl⟩ | ⟨w, l, c, sp, legal, rfl⟩⟩ := decodeHeaderStep_cases s <;> cases hu.symm.trans ht
  · exact inv_of_pull_stopped hfree (room k hk.le) c why
  · exact inv_raiseError pulled c
  · exact inv_acceptHeader pulled noErr dec cnt0 (by rw [afterPulls_cur, cur0]) legal

/-- After a pixel of the body the pass goes on, or to the trailer, or is done (R147, R231). -/
theorem inv_closeDecodeBody {s : State} (h : PhaseFreeInv s) (hphase : s.phase = .dBody) (noErr : s.err = none) (dec : s.mode = .dec)
    (described : DescribesPass s.desc s) (hcur : s.cur ≤ 14 + 5 * s.pxcnt) : Inv (closeDecodeBody s) := by
  have hpixels := h.pixels
  unfold closeDecodeBody
  split
  · next complete =>
    obtain ⟨streams, codec, pixels, total, cursor⟩ := h
    cases strict : s.params.strictTrailer
    · exact inv_of_phaseInv ⟨streams, codec, pixels, total, cursor⟩ ⟨noErr, complete⟩
    · exact inv_of_phaseInv ⟨streams, codec, pixels, total, cursor⟩ ⟨noErr, dec, described, complete, strict, hcur⟩
  · next more =>
    refine inv_of_phaseInv h ?_
    rw [PhaseInv, hphase]
    exact ⟨noErr, dec, described, by omega, hcur⟩

/-- A body step that pulls at most five bytes and yields one pixel keeps the cursor within five bytes a pixel. -/
theorem inv_yieldPixel {s : State} (h : Inv s) (hphase : s.phase = .dBody) {c : Codec} (hc : CodecInv c) {k : Nat} (hk : k ≤ 5)
    (px : Pixel) : Inv (yieldPixel px { afterPulls k (takePull s) with codec := c }) := by
  have hp := phaseInv_of_inv h
  simp only [PhaseInv, hphase] at hp
  obtain ⟨noErr, dec, described, due, hcur⟩ := hp
  have cursor : s.cur + k ≤ 22 + 5 * s.pxtotal := by omega
  have paid : s.cur + k ≤ 14 + 5 * (s.pxcnt + 1) := by omega
  exact inv_closeDecodeBody ⟨h.streams, hc, due, h.cursor.total, cursor⟩ hphase noErr dec described paid

theorem inv_reYield {s : State} (h : Inv s) (hphase : s.phase = .dBody) : Inv (reYield (takePull s)) := by
  have codec : CodecInv { s.codec with run := s.codec.run - 1 } := ⟨Nat.le_trans (Nat.sub_le _ _) h.codec.run, h.codec.slots⟩
  exact inv_yieldPixel h hphase codec (Nat.zero_le 5) s.codec.prev

theorem inv_decodeOpcode {s t : State} (h : Inv s) (hphase : s.phase = .dBody) (ht : decodeOpcode (takePull s) = .next t) : Inv t := by
  rcases decodeOpcode_cases (takePull s) with ⟨k, c, why, hk, hd⟩ | ⟨i, k, -, hk, wellFormed, hi, hd⟩
  · have hp := phaseInv_of_inv h
    simp only [PhaseInv, hphase] at hp
    obtain ⟨-, -, -, due, hcur⟩ := hp
    have room : s.cur + k ≤ 22 + 5 * s.pxtotal := by omega
    have hfree : PhaseFreeInv (takePull s) := ⟨h.streams, h.codec, h.cursor.pixels, h.cursor.total, h.cursor.cursor⟩
    cases hd.symm.trans ht
    exact inv_of_pull_stopped hfree room c why
  · obtain ⟨px, c, he, -, slots, run⟩ := exec_body hi (afterPulls k (takePull s))
    cases he.symm.trans (hd.symm.trans ht)
    exact inv_yieldPixel h hphase ⟨run h.codec.run wellFormed, slots h.codec.slots⟩ hk px

theorem inv_checkTrailer {s t : State} (h : Inv s) (hphase : s.phase = .dTrl) (ht : checkTrailer Config.trailerBytes s = .next t) :
    Inv t := by
  have hp := phaseInv_of_inv h
  simp only [PhaseInv, hphase] at hp
  obtain ⟨noErr, -, -, complete, -, hcur⟩ := hp
  have room : ∀ k, k ≤ Config.trailerBytes.length → s.cur + k ≤ 22 + 5 * s.pxtotal := by
    intro k hk
    have : k ≤ 8 := hk
    omega
  have hfree := phaseFreeInv_of_inv h
  obtain ⟨u, hu, ⟨k, c, why, hk, rfl⟩ | ⟨k, hk, rfl⟩ | rfl⟩ := checkTrailer_cases Config.trailerBytes s <;> cases hu.symm.trans ht
  · exact inv_of_pull_stopped hfree (room k hk.le) c why
  · exact inv_raiseError (phaseFreeInv_afterPulls hfree (room k hk)) .badTrailer
  · obtain ⟨streams, codec, pixels, total, cursor⟩ := phaseFreeInv_afterPulls hfree (room _ (Nat.le_refl _))
    exact inv_of_phaseInv ⟨streams, codec, pixels, total, cursor⟩ ⟨noErr, complete⟩

/-! ### Every step -/

theorem inv_engineTurn {s t : State} (h : Inv s) (ht : engineTurn s = .next t) : Inv t := by
  rcases engineTurn_cases ht with rfl | ⟨hphase, rfl⟩ | ⟨hphase, px, rest, -, rfl⟩ | ⟨hphase, rfl⟩ | ⟨hphase, hd⟩ | ⟨hphase, -, -, rfl⟩ |
    ⟨hphase, -, -, hd⟩ | ⟨hphase, hd⟩
  · exact h
  · exact inv_emitHeader h hphase
  · exact inv_encodePixel h hphase px
  · exact inv_emitTrailer h hphase
  · exact inv_decodeHeaderStep h hphase hd
  · exact inv_reYield h hphase
  · exact inv_decodeOpcode h hphase hd
  · exact inv_checkTrailer h hphase hd

/-- Settles O14: the invariant, read phase by phase, is kept by each step of the engine, each command and each move of the surroundings. -/
theorem everyStepKeepsTheInvariant : Obligations.EveryStepKeepsTheInvariant := by
  intro s t h hstep
  rw [step_eq_takeTurn] at hstep
  have called : Inv { s with turns := s.turns.tail } := inv_of_surroundingsMove h ⟨_, _, _, _, rfl, .inl rfl, id⟩
  rcases takeTurn_cases hstep with ⟨-, he⟩ | ⟨op, c, -, -, rfl⟩ | hmove
  · exact inv_engineTurn called he
  · exact inv_command called c
  · exact inv_of_surroundingsMove called hmove

end Sys2Proof.Machine
end

section
/-! The memory family (20_memory.md): what a step of any agent does to the byte streams at the Reader and the Writer (R66, R67, R70, R76,
R79). -/

namespace Sys2Proof.Machine

/-! ### The host's turn and the ports -/

theorem command_ports (c : Command) (s : State) : (command c s).ports = s.ports := by
  rcases command_cases c s with h | h | ⟨-, h | h⟩ <;> rw [h]
  · rfl
  · rcases startEncode_cases s with ⟨-, h⟩ | ⟨e, -, h⟩ <;> rw [h] <;> rfl
  · rfl

theorem writeReg_ports (r : HostReg) (v : Nat) (s : State) : (writeReg r v s).ports = s.ports := by
  rcases writeReg_cases r v s with h | ⟨-, d, h⟩ | ⟨c, h⟩ <;> rw [h]
  exact command_ports c s

theorem betweenPasses_next {s u t : State} (h : betweenPasses s u = .next t) : t = u := by
  unfold betweenPasses at h
  split at h <;> cases h
  rfl

/-- A host operation leaves every port alone, or it is the one that connects that port (R322, R323). -/
theorem hostTurn_ports_cases {op : HostOp} {s t : State} (h : hostTurn op s = .next t) :
    t.ports = s.ports ∨ (∃ bytes answers, op = .connectReader bytes answers ∧ t = connectReader bytes answers s) ∨
    (∃ answers, op = .connectWriter answers ∧ t = connectWriter answers s) ∨ (∃ pixels, t = connectSource pixels s) ∨
    t = connectSink s := by
  cases op with
  | command c => cases h; exact .inl (command_ports c s)
  | write r v => cases h; exact .inl (writeReg_ports r v s)
  | read r => cases h; exact .inl rfl
  | busWrite address v =>
    simp only [hostTurn] at h
    split at h <;> cases h
    · exact .inl (writeReg_ports _ v s)
    · exact .inl rfl
  | busRead address =>
    simp only [hostTurn] at h
    split at h <;> cases h <;> exact .inl rfl
  | connectReader bytes answers => exact .inr (.inl ⟨bytes, answers, rfl, betweenPasses_next h⟩)
  | connectWriter answers => exact .inr (.inr (.inl ⟨answers, rfl, betweenPasses_next h⟩))
  | connectSource pixels => exact .inr (.inr (.inr (.inl ⟨pixels, betweenPasses_next h⟩)))
  | connectSink => exact .inr (.inr (.inr (.inr (betweenPasses_next h))))

/-- Another agent changes bytes of the Reader's stream only, and lists no offset that was not listed (R67, R76). -/
theorem changeByte_reader (offset : Nat) (v : Byte) (s : State) :
    ∃ m, changeByte offset v s = { s with ports := { s.ports with reader := m } } ∧
      ∀ x, Memory.read s.ports.reader x = none → Memory.read m x = none := by
  unfold changeByte
  split
  · exact ⟨_, rfl, fun _ => id⟩
  · next b listed =>
    refine ⟨_, rfl, fun x unlisted => ?_⟩
    have other : x ≠ offset := by
      rintro rfl
      cases listed.symm.trans unlisted
    rw [Memory.read_write, if_neg other, unlisted]

/-- A host turn that a step takes is the first of the schedule. -/
theorem head?_of_headD_host {turns : List Turn} {op : HostOp} (h : turns.headD .engine = .host op) :
    turns.head? = some (.host op) := by
  cases turns with
  | nil => cases h
  | cons t rest => exact congrArg some h

/-! ### What the engine's steps do to the streams -/

/-- From `s` to `t` the Writer has lost none of the bytes it held. -/
structure WriterGrows (s t : State) : Prop where
  longer : s.ports.writerPos ≤ t.ports.writerPos
  kept   : ∀ x, x < s.ports.writerPos → Memory.read t.ports.writer x = Memory.read s.ports.writer x

theorem writerGrows_of_eq {s t : State} (hw : t.ports.writer = s.ports.writer) (hp : t.ports.writerPos = s.ports.writerPos) :
    WriterGrows s t :=
  ⟨hp.ge, fun x _ => by rw [hw]⟩

/-- Bytes written from the Writer's end on leave what stands before them. -/
theorem writerGrows_of_writeBytes {s t : State} {bytes : List Byte}
    (hw : t.ports.writer = Memory.writeBytes s.ports.writer s.ports.writerPos bytes)
    (hp : t.ports.writerPos = s.ports.writerPos + bytes.length) : WriterGrows s t := by
  refine ⟨by omega, fun x hx => ?_⟩
  have before : ¬ (s.ports.writerPos ≤ x ∧ x < s.ports.writerPos + bytes.length) := by omega
  rw [hw, Memory.read_writeBytes, if_neg before]

/-- What a failing emission leaves at the Writer: the records before the failing one, which `cur` counts, and the first bytes of that one,
which it does not (R70, R286). -/
theorem EmitFailure.leaves_part {is : List Instr} {s t : State} (h : EmitFailure is s t) :
    t.err = some .writer ∧ ∃ before i after n, is = before ++ i :: after ∧ t.cur = s.cur + (bytesOf before).length ∧
      t.ports.writer = Memory.writeBytes s.ports.writer s.ports.writerPos (bytesOf before ++ (encode i).take n) ∧
      t.ports.writerPos = s.ports.writerPos + (bytesOf before ++ (encode i).take n).length := by
  obtain ⟨before, i, after, n, his, rfl⟩ := h
  refine ⟨rfl, before, i, after, n, his, rfl, ?_, ?_⟩
  · rw [Memory.writeBytes_append]; rfl
  · rw [List.length_append, ← Nat.add_assoc]; rfl

/-- From `s` to `t` bytes have at most been appended to the Writer, and the Reader has not been asked. -/
structure EmitsOnly (s t : State) : Prop where
  reader        : t.ports.reader = s.ports.reader
  readerPos     : t.ports.readerPos = s.ports.readerPos
  readerAnswers : t.ports.readerAnswers = s.ports.readerAnswers
  writer        : WriterGrows s t

theorem EmitFailure.emitsOnly {is : List Instr} {s t : State} (h : EmitFailure is s t) : EmitsOnly s t := by
  have writer : WriterGrows s t := by
    obtain ⟨-, before, i, after, n, -, -, hw, hp⟩ := h.leaves_part
    exact writerGrows_of_writeBytes hw hp
  obtain ⟨before, i, after, n, -, rfl⟩ := h
  exact ⟨rfl, rfl, rfl, writer⟩

theorem emitHeader_emitsOnly (s : State) : EmitsOnly s (emitHeader s) := by
  rcases emitHeader_cases s with h | h
  · rw [h]; exact ⟨rfl, rfl, rfl, writerGrows_of_writeBytes rfl rfl⟩
  · exact h.emitsOnly

theorem encodePixel_emitsOnly (px : Pixel) (s : State) : EmitsOnly s (encodePixel px s) := by
  rcases encodePixel_cases px s with h | h
  · rw [h]; exact ⟨rfl, rfl, rfl, writerGrows_of_writeBytes rfl rfl⟩
  · obtain ⟨reader, pos, answers, longer, kept⟩ := h.emitsOnly
    exact ⟨reader, pos, answers, longer, kept⟩

theorem emitTrailer_emitsOnly (s : State) : EmitsOnly s (emitTrailer s) := by
  rcases emitTrailer_cases s with h | h
  · rw [h]; exact ⟨rfl, rfl, rfl, writerGrows_of_writeBytes rfl rfl⟩
  · exact h.emitsOnly

/-- From `s` to `t` the Reader has delivered `k` bytes, each counted in `cur`, and the Writer has been left alone (R67). -/
structure Consumes (k : Nat) (s t : State) : Prop where
  cur       : t.cur = s.cur + k
  readerPos : t.ports.readerPos = s.ports.readerPos + k
  writer    : t.ports.writer = s.ports.writer
  writerPos : t.ports.writerPos = s.ports.writerPos

theorem decodeHeaderStep_consumes {s t : State} (h : decodeHeaderStep s = .next t) : ∃ k ≤ 14, Consumes k s t := by
  obtain ⟨u, hu, ⟨k, c, why, hk, rfl⟩ | ⟨c, rfl⟩ | ⟨w, l, c, sp, -, rfl⟩⟩ := decodeHeaderStep_cases s <;> cases hu.symm.trans h
  · exact ⟨k, hk.le, rfl, rfl, rfl, rfl⟩
  · exact ⟨14, Nat.le_refl 14, rfl, rfl, rfl, rfl⟩
  · exact ⟨14, Nat.le_refl 14, rfl, rfl, rfl, rfl⟩

theorem reYield_consumes_nothing (s : State) : Consumes 0 s (reYield s) :=
  ⟨reYield_cur s, reYield_readerPos s, reYield_writer s, reYield_writerPos s⟩

theorem decodeOpcode_consumes {s t : State} (h : decodeOpcode s = .next t) : ∃ k ≤ 5, Consumes k s t := by
  rcases decodeOpcode_cases s with ⟨k, c, why, hk, hd⟩ | ⟨i, k, -, hk, -, hi, hd⟩
  · cases hd.symm.trans h
    exact ⟨k, hk.le, rfl, rfl, rfl, rfl⟩
  · obtain ⟨px, c, he, -⟩ := exec_body hi (afterPulls k s)
    cases he.symm.trans (hd.symm.trans h)
    exact ⟨k, hk, yieldPixel_cur .., yieldPixel_readerPos .., yieldPixel_writer .., yieldPixel_writerPos ..⟩

theorem checkTrailer_consumes {expected : List Byte} {s t : State} (h : checkTrailer expected s = .next t) :
    ∃ k ≤ expected.length, Consumes k s t := by
  obtain ⟨u, hu, ⟨k, c, why, hk, rfl⟩ | ⟨k, hk, rfl⟩ | rfl⟩ := checkTrailer_cases expected s <;> cases hu.symm.trans h
  · exact ⟨k, hk.le, rfl, rfl, rfl, rfl⟩
  · exact ⟨k, hk, rfl, rfl, rfl, rfl⟩
  · exact ⟨expected.length, Nat.le_refl _, rfl, rfl, rfl, rfl⟩

/-- A turn of the engine appends at most, or takes at most one record from the Reader (R67, R79, R232, R241). -/
theorem engineTurn_emits_or_consumes {s t : State} (h : engineTurn s = .next t) :
    t = s ∨ (encoding s ∧ EmitsOnly s t) ∨
    (decoding s ∧ ∃ k ≤ (if s.phase = .dHdr then 14 else if s.phase = .dBody then 5 else 8), Consumes k s t) := by
  rcases engineTurn_cases h with rfl | ⟨hphase, rfl⟩ | ⟨hphase, px, rest, -, rfl⟩ | ⟨hphase, rfl⟩ | ⟨hphase, hd⟩ | ⟨hphase, -, -, rfl⟩ |
    ⟨hphase, -, -, hd⟩ | ⟨hphase, hd⟩
  · exact .inl rfl
  · exact .inr (.inl ⟨.inl hphase, emitHeader_emitsOnly s⟩)
  · exact .inr (.inl ⟨.inr (.inl hphase), encodePixel_emitsOnly px s⟩)
  · exact .inr (.inl ⟨.inr (.inr hphase), emitTrailer_emitsOnly s⟩)
  all_goals rw [hphase]
  · exact .inr (.inr ⟨.inl hphase, decodeHeaderStep_consumes hd⟩)
  · obtain ⟨cur, pos, writer, writerPos⟩ := reYield_consumes_nothing (takePull s)
    exact .inr (.inr ⟨.inr (.inl hphase), 0, Nat.zero_le _, cur, pos, writer, writerPos⟩)
  · obtain ⟨k, hk, cur, pos, writer, writerPos⟩ := decodeOpcode_consumes hd
    exact .inr (.inr ⟨.inr (.inl hphase), k, hk, cur, pos, writer, writerPos⟩)
  · exact .inr (.inr ⟨.inr (.inr hphase), checkTrailer_consumes hd⟩)

/-! ### A failing Writer -/

theorem engineTurn_eBody {s : State} {px : Pixel} {rest : List Pixel} (hphase : s.phase = .eBody)
    (hsource : s.ports.source = px :: rest) : engineTurn s = .next (encodePixel px s) := by
  simp only [engineTurn, hphase, hsource]

/-- An encode body step ends in ERR only where the Writer fails (R193). -/
theorem emitFailure_of_encodePixel_err {s : State} {px : Pixel} (hphase : s.phase = .eBody) (herr : (encodePixel px s).phase = .err) :
    EmitFailure (stepOf s px).1 (takePixel s) (encodePixel px s) := by
  refine (encodePixel_cases px s).resolve_left fun completed => ?_
  rw [completed, pixelEncoded_phase, afterEmits_phase, takePixel_phase, hphase] at herr
  split at herr <;> cases herr

/-- Settles O29: a body step in ERR is a failed emission of the step's records, from the ports as they were but for the pixel taken. -/
theorem writerFailureLeavesAPrefix : Obligations.WriterFailureLeavesAPrefix := by
  intro s t px rest hphase hsource hturn herr
  cases (engineTurn_eBody hphase hsource).symm.trans hturn
  obtain ⟨cause, before, i, after, n, hrecords, hcur, hwriter, -⟩ :=
    (emitFailure_of_encodePixel_err hphase herr).leaves_part
  exact ⟨cause, before, after, i, n, hrecords, hcur, hwriter⟩

/-! ### The Writer keeps what it has -/

theorem engineTurn_writerGrows {s t : State} (h : engineTurn s = .next t) : WriterGrows s t := by
  rcases engineTurn_emits_or_consumes h with rfl | ⟨-, emits⟩ | ⟨-, k, -, consumes⟩
  · exact writerGrows_of_eq rfl rfl
  · exact emits.writer
  · exact writerGrows_of_eq consumes.writer consumes.writerPos

theorem hostTurn_writerGrows {op : HostOp} {s t : State} (hop : ∀ answers, op ≠ .connectWriter answers)
    (h : hostTurn op s = .next t) : WriterGrows s t := by
  rcases hostTurn_ports_cases h with hports | ⟨bytes, answers, -, rfl⟩ | ⟨answers, rfl, -⟩ | ⟨pixels, rfl⟩ | rfl
  · exact writerGrows_of_eq (by rw [hports]) (by rw [hports])
  · exact writerGrows_of_eq rfl rfl
  · exact absurd rfl (hop answers)
  · exact writerGrows_of_eq rfl rfl
  · exact writerGrows_of_eq rfl rfl

theorem takeTurn_writerGrows {turn : Turn} {s t : State} (hturn : ∀ answers, turn ≠ .host (.connectWriter answers))
    (h : takeTurn turn s = .next t) : WriterGrows s t := by
  cases turn with
  | engine => exact engineTurn_writerGrows h
  | stall => cases h; exact writerGrows_of_eq rfl rfl
  | host op => exact hostTurn_writerGrows (fun answers hop => hturn answers (congrArg Turn.host hop)) h
  | offer px => cases h; exact writerGrows_of_eq rfl rfl
  | pull => cases h; exact writerGrows_of_eq rfl rfl
  | changeByte offset v =>
    obtain ⟨m, hm, -⟩ := changeByte_reader offset v s
    cases h
    rw [hm]
    exact writerGrows_of_eq rfl rfl

/-- Settles O31: only the engine's encode steps reach a connected Writer, and they write from its end on. -/
theorem writtenBytesAreNeverRewritten : Obligations.WrittenBytesAreNeverRewritten := by
  intro s t hturns hstep
  rw [step_eq_takeTurn] at hstep
  obtain ⟨longer, kept⟩ := takeTurn_writerGrows (fun answers h => hturns answers (head?_of_headD_host h)) hstep
  exact ⟨longer, kept⟩

/-! ### End-of-input is permanent -/

theorem decodeHeaderStep_of_readerEnded {s : State} (h : readerEnded s) :
    decodeHeaderStep s = .next (raiseError .truncatedHeader s) := by
  simp only [decodeHeaderStep, Config.hdrLen, pullBytes_of_readerEnded _ h, stopCause]

theorem decodeOpcode_of_readerEnded {s : State} (h : readerEnded s) : decodeOpcode s = .next (raiseError .truncatedBody s) := by
  simp only [decodeOpcode, pullBytes_of_readerEnded 0 h, stopCause]

theorem checkTrailer_of_readerEnded {s : State} (h : readerEnded s) (expected : Byte) (rest : List Byte) :
    checkTrailer (expected :: rest) s = .next (raiseError .badTrailer s) := by
  simp only [checkTrailer, nextByte_of_readerEnded h, stopCause]

theorem readerEnded_of_emitsOnly {s t : State} (h : EmitsOnly s t) (hs : readerEnded s) : readerEnded t := by
  rwa [readerEnded, h.readerAnswers, h.reader, h.readerPos]

/-- An encode step does not ask the Reader; a decode step that asks an ended one raises and leaves it as it is. -/
theorem engineTurn_readerEnded {s t : State} (h : readerEnded s) (ht : engineTurn s = .next t) : readerEnded t := by
  rcases engineTurn_cases ht with rfl | ⟨-, rfl⟩ | ⟨-, px, rest, -, rfl⟩ | ⟨-, rfl⟩ | ⟨-, hd⟩ | ⟨-, -, -, rfl⟩ | ⟨-, -, -, hd⟩ | ⟨-, hd⟩
  · exact h
  · exact readerEnded_of_emitsOnly (emitHeader_emitsOnly s) h
  · exact readerEnded_of_emitsOnly (encodePixel_emitsOnly px s) h
  · exact readerEnded_of_emitsOnly (emitTrailer_emitsOnly s) h
  · cases (decodeHeaderStep_of_readerEnded h).symm.trans hd
    exact h
  · rwa [readerEnded, reYield_readerAnswers, reYield_reader, reYield_readerPos]
  · have ended : readerEnded (takePull s) := h
    cases (decodeOpcode_of_readerEnded ended).symm.trans hd
    exact h
  · cases (checkTrailer_of_readerEnded h _ _).symm.trans hd
    exact h

theorem hostTurn_readerEnded {op : HostOp} {s t : State} (hop : ∀ bytes answers, op ≠ .connectReader bytes answers)
    (h : readerEnded s) (ht : hostTurn op s = .next t) : readerEnded t := by
  rcases hostTurn_ports_cases ht with hports | ⟨bytes, answers, rfl, -⟩ | ⟨answers, -, rfl⟩ | ⟨pixels, rfl⟩ | rfl
  · rwa [readerEnded, hports]
  · exact absurd rfl (hop bytes answers)
  all_goals exact h

theorem takeTurn_readerEnded {turn : Turn} {s t : State} (hturn : ∀ bytes answers, turn ≠ .host (.connectReader bytes answers))
    (h : readerEnded s) (ht : takeTurn turn s = .next t) : readerEnded t := by
  cases turn with
  | engine => exact engineTurn_readerEnded h ht
  | stall => cases ht; exact h
  | host op => exact hostTurn_readerEnded (fun bytes answers hop => hturn bytes answers (congrArg Turn.host hop)) h ht
  | offer px => cases ht; exact h
  | pull => cases ht; exact h
  | changeByte offset v =>
    obtain ⟨m, hm, unlisted⟩ := changeByte_reader offset v s
    cases ht
    rw [hm]
    exact ⟨h.1, unlisted _ h.2⟩

/-- Settles O32: a decode step consumes at most one record and counts each byte; an ended Reader stays ended in every agent's turn. -/
theorem cursorCountsConsumedBytes : Obligations.CursorCountsConsumedBytes := by
  refine ⟨fun s t hdec hturn => ?counted, fun s t => readerEnded_of_nextByte, fun s t ended hturns hstep => ?permanent,
    fun s => nextByte_of_readerEnded⟩
  case counted =>
    rcases engineTurn_emits_or_consumes hturn with rfl | ⟨henc, -⟩ | ⟨-, k, hk, hcur, hpos, -, -⟩
    · exact ⟨rfl, Nat.le_refl _, Nat.le_add_right _ _⟩
    · rcases hdec with hdec | hdec | hdec <;> simp [encoding, hdec] at henc
    · rw [hcur, hpos]
      exact ⟨by omega, Nat.le_add_right _ _, Nat.add_le_add_left hk _⟩
  case permanent =>
    rw [step_eq_takeTurn] at hstep
    have called : readerEnded { s with turns := s.turns.tail } := ended
    exact takeTurn_readerEnded (fun bytes answers h => hturns bytes answers (head?_of_headD_host h)) called hstep

end Sys2Proof.Machine
end

section
/-! The encoding family (30_encoding.md): the bytes of each record as numbers (R112), the body decoder by the number of the tag byte
(R103, R111), and the two round trips they give (R113). -/

namespace Sys2Proof

/-! ### The bytes of the four packed opcodes as numbers -/

theorem encode_index (i : Fin 64) : ∃ b1, encode (.index i) = [b1] ∧ b1.toNat = i.val :=
  ⟨_, rfl, toNat_index i⟩

theorem encode_diff {dr dg db : Int} (hw : (Instr.diff dr dg db).wellFormed = true) :
    ∃ b1, encode (.diff dr dg db) = [b1] ∧ (b1.toNat : Int) = 0x40 + (dr + 2) * 16 + (dg + 2) * 4 + (db + 2) := by
  obtain ⟨⟨_, _⟩, ⟨_, _⟩, _, _⟩ := wf_diff.1 hw
  obtain ⟨x, rfl⟩ := int_repr dr 2 4 (by omega) (by omega)
  obtain ⟨y, rfl⟩ := int_repr dg 2 4 (by omega) (by omega)
  obtain ⟨z, rfl⟩ := int_repr db 2 4 (by omega) (by omega)
  refine ⟨_, rfl, ?_⟩
  rw [toNat_diff]
  omega

theorem encode_luma {dg drg dbg : Int} (hw : (Instr.luma dg drg dbg).wellFormed = true) :
    ∃ b1 b2, encode (.luma dg drg dbg) = [b1, b2] ∧ (b1.toNat : Int) = 0x80 + (dg + 32) ∧
      (b2.toNat : Int) = (drg + 8) * 16 + (dbg + 8) := by
  obtain ⟨⟨_, _⟩, ⟨_, _⟩, _, _⟩ := wf_luma.1 hw
  obtain ⟨x, rfl⟩ := int_repr dg 32 64 (by omega) (by omega)
  obtain ⟨y, rfl⟩ := int_repr drg 8 16 (by omega) (by omega)
  obtain ⟨z, rfl⟩ := int_repr dbg 8 16 (by omega) (by omega)
  refine ⟨_, _, rfl, ?_, ?_⟩
  · rw [toNat_luma1]
    omega
  · rw [toNat_luma2]
    omega

theorem encode_run {len : Nat} (hw : (Instr.run len).wellFormed = true) :
    ∃ b1, encode (.run len) = [b1] ∧ b1.toNat = 0xC0 + (len - 1) := by
  obtain ⟨_, _⟩ := wf_run.1 hw
  exact ⟨_, rfl, toNat_run ⟨len - 1, by omega⟩⟩

/-! ### The body decoder on each range of tag bytes -/

theorem decodeBody_of_index_tag {b1 : Byte} (h : b1.toNat ≤ 0x3F) (rest : List Byte) :
    decodeBody (b1 :: rest) = .ok (.index (Fin.ofNat 64 b1.toNat), rest) := by
  rw [decodeBody_cons, if_neg (by omega), if_neg (by omega), if_pos h]

theorem decodeBody_of_diff_tag {b1 : Byte} (low : 0x3F < b1.toNat) (high : b1.toNat ≤ 0x7F) (rest : List Byte) :
    decodeBody (b1 :: rest) = .ok
      (.diff ((b1.toNat / 16 % 4 : Nat) - 2 : Int) ((b1.toNat / 4 % 4 : Nat) - 2 : Int) ((b1.toNat % 4 : Nat) - 2 : Int), rest) := by
  rw [decodeBody_cons, if_neg (by omega), if_neg (by omega), if_neg (by omega), if_pos high]

theorem decodeBody_of_luma_tag {b1 : Byte} (low : 0x7F < b1.toNat) (high : b1.toNat ≤ 0xBF) (b2 : Byte) (rest : List Byte) :
    decodeBody (b1 :: b2 :: rest) = .ok
      (.luma ((b1.toNat % 64 : Nat) - 32 : Int) ((b2.toNat / 16 : Nat) - 8 : Int) ((b2.toNat % 16 : Nat) - 8 : Int), rest) := by
  rw [decodeBody_cons, if_neg (by omega), if_neg (by omega), if_neg (by omega), if_neg (by omega), if_pos high]

theorem decodeBody_of_run_tag {b1 : Byte} (low : 0xBF < b1.toNat) (high : b1.toNat ≤ 0xFD) (rest : List Byte) :
    decodeBody (b1 :: rest) = .ok (.run (b1.toNat - 0xC0 + 1), rest) := by
  rw [decodeBody_cons, if_neg (by omega), if_neg (by omega), if_neg (by omega), if_neg (by omega), if_neg (by omega)]

theorem decodeBody_of_rgb_tag (r g b : Byte) (rest : List Byte) :
    decodeBody (Config.tagRgb :: r :: g :: b :: rest) = .ok (.rgb r g b, rest) := rfl

theorem decodeBody_of_rgba_tag (r g b a : Byte) (rest : List Byte) :
    decodeBody (Config.tagRgba :: r :: g :: b :: a :: rest) = .ok (.rgba r g b a, rest) := rfl

/-! ### Decoding an encoded record -/

theorem decodeBody_encode_index (i : Fin 64) (rest : List Byte) : decodeBody (encode (.index i) ++ rest) = .ok (.index i, rest) := by
  obtain ⟨b1, hb1, value⟩ := encode_index i
  have slot : Fin.ofNat 64 b1.toNat = i := Fin.ext (by rw [Fin.val_ofNat, value, Nat.mod_eq_of_lt i.isLt])
  rw [hb1, List.singleton_append, decodeBody_of_index_tag (by omega), slot]

theorem decodeBody_encode_diff {dr dg db : Int} (hw : (Instr.diff dr dg db).wellFormed = true) (rest : List Byte) :
    decodeBody (encode (.diff dr dg db) ++ rest) = .ok (.diff dr dg db, rest) := by
  obtain ⟨b1, hb1, value⟩ := encode_diff hw
  obtain ⟨⟨_, _⟩, ⟨_, _⟩, _, _⟩ := wf_diff.1 hw
  have red : ((b1.toNat / 16 % 4 : Nat) - 2 : Int) = dr := by omega
  have green : ((b1.toNat / 4 % 4 : Nat) - 2 : Int) = dg := by omega
  have blue : ((b1.toNat % 4 : Nat) - 2 : Int) = db := by omega
  rw [hb1, List.singleton_append, decodeBody_of_diff_tag (by omega) (by omega), red, green, blue]

theorem decodeBody_encode_luma {dg drg dbg : Int} (hw : (Instr.luma dg drg dbg).wellFormed = true) (rest : List Byte) :
    decodeBody (encode (.luma dg drg dbg) ++ rest) = .ok (.luma dg drg dbg, rest) := by
  obtain ⟨b1, b2, hb, value1, value2⟩ := encode_luma hw
  obtain ⟨⟨_, _⟩, ⟨_, _⟩, _, _⟩ := wf_luma.1 hw
  have green : ((b1.toNat % 64 : Nat) - 32 : Int) = dg := by omega
  have redCross : ((b2.toNat / 16 : Nat) - 8 : Int) = drg := by omega
  have blueCross : ((b2.toNat % 16 : Nat) - 8 : Int) = dbg := by omega
  rw [hb, List.cons_append, List.singleton_append, decodeBody_of_luma_tag (by omega) (by omega), green, redCross, blueCross]

theorem decodeBody_encode_run {len : Nat} (hw : (Instr.run len).wellFormed = true) (rest : List Byte) :
    decodeBody (encode (.run len) ++ rest) = .ok (.run len, rest) := by
  obtain ⟨b1, hb1, value⟩ := encode_run hw
  obtain ⟨_, _⟩ := wf_run.1 hw
  have length : b1.toNat - 0xC0 + 1 = len := by omega
  rw [hb1, List.singleton_append, decodeBody_of_run_tag (by omega) (by omega), length]

theorem decodeHeader_encode (w h : Word32) (c s : Byte) (rest : List Byte) :
    decodeHeader (encode (.header w h c s) ++ rest) = .ok (.header w h c s, rest) := by
  have fields : decodeHeader (encode (.header w h c s) ++ rest) = .ok (.header
      (unbe32 (w.extractLsb' 24 8) (w.extractLsb' 16 8) (w.extractLsb' 8 8) (w.extractLsb' 0 8))
      (unbe32 (h.extractLsb' 24 8) (h.extractLsb' 16 8) (h.extractLsb' 8 8) (h.extractLsb' 0 8)) c s, rest) := rfl
  rw [fields, unbe32_be32, unbe32_be32]

/-- Settles O1: the packed opcodes by the number of their tag byte, the header by its big-endian integers, the rest by computing. -/
theorem decodeOfEncodeIsIdentity : Obligations.DecodeOfEncodeIsIdentity := by
  intro i rest hw
  cases i with
  | rgb r g b => exact decodeBody_of_rgb_tag r g b rest
  | rgba r g b a => exact decodeBody_of_rgba_tag r g b a rest
  | index i => exact decodeBody_encode_index i rest
  | diff dr dg db => exact decodeBody_encode_diff hw rest
  | luma dg drg dbg => exact decodeBody_encode_luma hw rest
  | run len => exact decodeBody_encode_run hw rest
  | header w h c s => exact decodeHeader_encode w h c s rest
  | trailer => rfl

/-! ### Encoding a decoded record -/

theorem encode_append_of_toNat {i : Instr} {b b1 : Byte} (h : encode i = [b]) (value : b.toNat = b1.toNat) (rest : List Byte) :
    encode i ++ rest = b1 :: rest := by
  rw [h, List.singleton_append, byte_ext value]

theorem encode_of_decodeBody {bytes rest : List Byte} {i : Instr} (h : decodeBody bytes = .ok (i, rest)) :
    encode i ++ rest = bytes := by
  obtain ⟨hw, -⟩ := decodeBody_wellFormed h
  cases bytes with
  | nil => cases h
  | cons b1 payload =>
    have hb1 := b1.isLt
    rw [decodeBody_cons] at h
    split at h
    case isTrue tag =>
      obtain rfl : b1 = Config.tagRgb := byte_ext tag
      split at h <;> cases h
      rfl
    split at h
    case isTrue tag =>
      obtain rfl : b1 = Config.tagRgba := byte_ext tag
      split at h <;> cases h
      rfl
    split at h
    case isTrue tag =>
      cases h
      obtain ⟨b, hb, value⟩ := encode_index (Fin.ofNat 64 b1.toNat)
      exact encode_append_of_toNat hb (value.trans (Nat.mod_eq_of_lt (by omega))) _
    split at h
    case isTrue tag =>
      cases h
      obtain ⟨b, hb, value⟩ := encode_diff hw
      exact encode_append_of_toNat hb (by omega) _
    split at h
    case isTrue tag =>
      split at h <;> cases h
      next b2 =>
        obtain ⟨b, b', hb, value1, value2⟩ := encode_luma hw
        rw [hb, List.cons_append, List.singleton_append, byte_ext (show b.toNat = b1.toNat by omega),
          byte_ext (show b'.toNat = b2.toNat by omega)]
    case isFalse =>
      cases h
      obtain ⟨b, hb, value⟩ := encode_run hw
      exact encode_append_of_toNat hb (by omega) _

theorem decodeHeader_ok {bytes rest : List Byte} {i : Instr} (h : decodeHeader bytes = .ok (i, rest)) :
    (∃ w l c s, i = .header w l c s) ∧ encode i ++ rest = bytes := by
  unfold decodeHeader at h
  split at h
  · split at h <;> cases h
    next magic =>
      refine ⟨⟨_, _, _, _, rfl⟩, ?_⟩
      rw [encode, be32_unbe32, be32_unbe32, ← magic]
      rfl
  · cases h

/-- Settles O2: in the body by the branches of the decoder, each of whose operands spells the tag byte's number again. -/
theorem encodeOfDecodeIsIdentity : Obligations.EncodeOfDecodeIsIdentity := by
  intro p bytes rest i h
  cases p with
  | header =>
    obtain ⟨⟨w, l, c, s, rfl⟩, hbytes⟩ := decodeHeader_ok h
    exact ⟨rfl, rfl, hbytes⟩
  | body =>
    obtain ⟨hw, hpos⟩ := decodeBody_wellFormed h
    exact ⟨hw, hpos, encode_of_decodeBody h⟩
  | trailer =>
    obtain ⟨rfl, hbytes⟩ := decodeTrailer_ok h
    exact ⟨rfl, rfl, hbytes.symm⟩

/-! ### The tables -/

/-- What the encoder writes is decoded back when nothing follows it. -/
theorem decode_of_encode_eq {i : Instr} {bytes : List Byte} (hw : i.wellFormed = true) (h : encode i = bytes) :
    decode i.position bytes = .ok (i, []) := by
  have back := decodeOfEncodeIsIdentity i [] hw
  rwa [List.append_nil, h] at back

/-- Settles O3: the numbers of the packed opcodes' bytes, and the round trip with nothing after the record. -/
theorem encodedBytesFollowTheTable : Obligations.EncodedBytesFollowTheTable := by
  refine ⟨fun i => ?index, fun dr dg db hw => ?diff, fun dg drg dbg hw => ?luma, fun len hw => ?run, fun _ _ _ => rfl,
    fun _ _ _ _ => rfl, fun i hw hpos => hpos ▸ decode_of_encode_eq hw rfl⟩
  case index =>
    obtain ⟨b1, hb1, value⟩ := encode_index i
    rw [hb1, List.map_singleton, value]
  case diff =>
    obtain ⟨b1, hb1, value⟩ := encode_diff hw
    rw [hb1, List.map_singleton, value]
  case luma =>
    obtain ⟨b1, b2, hb, value1, value2⟩ := encode_luma hw
    rw [hb, List.map_cons, List.map_singleton, value1, value2]
  case run =>
    obtain ⟨b1, hb1, value⟩ := encode_run hw
    rw [hb1, List.map_singleton, value]

/-- Settles O4: the ranges of R103 in rising order; above 0xFD only the two full-byte tags are left. -/
theorem everyTagByteSelectsOneOpcode : Obligations.EveryTagByteSelectsOneOpcode := by
  intro b1 b2 b3 b4 b5 rest
  have hb1 := b1.isLt
  split
  case isTrue index => exact decodeBody_of_index_tag index _
  split
  case isTrue diff => exact decodeBody_of_diff_tag (by omega) diff _
  split
  case isTrue luma => exact decodeBody_of_luma_tag (by omega) luma b2 _
  split
  case isTrue run => exact decodeBody_of_run_tag (by omega) run _
  split
  case isTrue rgb =>
    obtain rfl : b1 = Config.tagRgb := byte_ext rgb
    exact decodeBody_of_rgb_tag b2 b3 b4 _
  case isFalse =>
    obtain rfl : b1 = Config.tagRgba := byte_ext (show b1.toNat = 0xFF by omega)
    exact decodeBody_of_rgba_tag b2 b3 b4 b5 rest

/-- Settles O5: a tag byte with fewer bytes than its record is truncated, and with enough it is accepted. -/
theorem onlyIncompleteRecordsAreRejected : Obligations.OnlyIncompleteRecordsAreRejected := by
  intro bytes why
  cases bytes with
  | nil =>
    constructor
    · rintro ⟨⟩
      exact .inl ⟨rfl, rfl⟩
    · rintro (⟨-, rfl⟩ | ⟨_, _, ⟨⟩, -⟩)
      rfl
  | cons b1 payload =>
    obtain ⟨short, complete⟩ := decodeBody_short b1 payload
    rw [decode]
    by_cases hlen : (b1 :: payload).length < recordLength b1
    · rw [short hlen]
      constructor
      · rintro ⟨⟩
        exact .inr ⟨b1, payload, rfl, hlen, rfl⟩
      · rintro (⟨⟨⟩, -⟩ | ⟨_, _, -, -, rfl⟩)
        rfl
    · obtain ⟨i, hi⟩ := complete (Nat.le_of_not_lt hlen)
      rw [hi]
      constructor
      · rintro ⟨⟩
      · rintro (⟨⟨⟩, -⟩ | ⟨_, _, ⟨⟩, hshort, -⟩)
        exact absurd hshort hlen

/-- Settles O6: each word is the encoding of the record it stands for. -/
theorem specWordsDecode : Obligations.SpecWordsDecode :=
  ⟨decode_of_encode_eq (i := .diff 1 0 (-1)) (by decide) (by decide),
    decode_of_encode_eq (i := .luma 10 0 0) (by decide) (by decide),
    decode_of_encode_eq (i := .index 11) rfl (by decide),
    decode_of_encode_eq (i := .run 62) (by decide) (by decide),
    decode_of_encode_eq (i := .rgb 1 2 3) rfl (by decide),
    decode_of_encode_eq (i := .rgba 200 100 50 128) rfl (by decide),
    decode_of_encode_eq (i := .header 4 1 4 0) rfl (by decide),
    decode_of_encode_eq (i := .trailer) rfl rfl⟩

end Sys2Proof
end

section
/-! The framing family (40_framing.md): the header and trailer an encode pass emits (R142, R143), and how a decode pass fetches, checks and
accepts them (R144 to R147, R153). -/

namespace Sys2Proof.Machine

/-! ### A Writer that fails the first chunk -/

theorem emit_of_fail {s : State} {n : Nat} {rest : List WriterAnswer} (h : s.ports.writerAnswers = .fail n :: rest)
    (chunk : List Byte) : emit chunk s = .failed (appendBytes (chunk.take n) (takeWriterAnswer s)) := by
  simp only [emit, h, List.head?_cons]

theorem emitRecords_of_fail {s : State} {n : Nat} {rest : List WriterAnswer} (h : s.ports.writerAnswers = .fail n :: rest)
    (i : Instr) (is : List Instr) :
    emitRecords (i :: is) s = .failed (appendBytes ((encode i).take n) (takeWriterAnswer s)) := by
  rw [emitRecords, emit_of_fail h]

/-! ### Step E_HDR -/

theorem engineTurn_eHdr {s : State} (h : s.phase = .eHdr) : engineTurn s = .next (emitHeader s) := by
  simp only [engineTurn, h]

theorem emitHeader_of_accepts {s : State} (h : accepts 1 s) :
    emitHeader s = { afterEmits 1 (encode (headerRecord s.latched)) s with
      pxtotal := pixelTotal s.latched.width s.latched.height, phase := .eBody } := by
  have emitted : emitRecords [headerRecord s.latched] s = .emitted (afterEmits 1 (bytesOf [headerRecord s.latched]) s) :=
    emitRecords_of_accepts h
  rw [emitHeader, emitted, bytesOf_singleton]

theorem emitHeader_of_fail {s : State} {n : Nat} {rest : List WriterAnswer} (h : s.ports.writerAnswers = .fail n :: rest) :
    emitHeader s = raiseError .writer (appendBytes ((encode (headerRecord s.latched)).take n) (takeWriterAnswer s)) := by
  rw [emitHeader, emitRecords_of_fail h]

/-- Settles O33: the header record is one chunk, which the Writer takes whole, or fails with the first bytes of it appended. -/
theorem headerEmission : Obligations.HeaderEmission := by
  intro s hphase
  rw [engineTurn_eHdr hphase]
  constructor
  · intro accepted
    rw [emitHeader_of_accepts accepted]
    rfl
  · intro n rest failing
    rw [emitHeader_of_fail failing]
    exact ⟨_, rfl, rfl, rfl, rfl, rfl⟩

/-! ### Step E_TRL -/

theorem engineTurn_eTrl {s : State} (h : s.phase = .eTrl) : engineTurn s = .next (emitTrailer s) := by
  simp only [engineTurn, h]

theorem flushRun_of_pos {run : Nat} (h : 0 < run) : flushRun run = [.run run] :=
  if_pos h

theorem emitTrailer_of_accepts {s : State} {records : List Instr} (hrecords : flushRun s.codec.run ++ [.trailer] = records)
    (h : accepts records.length s) :
    emitTrailer s = { afterEmits records.length (bytesOf records) s with codec := { s.codec with run := 0 }, phase := .done } := by
  rw [emitTrailer, hrecords, emitRecords_of_accepts h]
  rfl

/-- Whether the first chunk is the flushed run or the trailer, its failure ends the pass. -/
theorem emitTrailer_of_fail {s : State} {n : Nat} {rest : List WriterAnswer} (h : s.ports.writerAnswers = .fail n :: rest) :
    ∃ t, emitTrailer s = raiseError .writer t := by
  obtain ⟨first, others, hrecords⟩ : ∃ i is, flushRun s.codec.run ++ [Instr.trailer] = i :: is :=
    List.exists_cons_of_ne_nil (List.append_ne_nil_of_right_ne_nil _ (List.cons_ne_nil _ _))
  rw [emitTrailer, hrecords, emitRecords_of_fail h]
  exact ⟨_, rfl⟩

/-- Settles O34: with no run pending the trailer is the only chunk and the Codec State stays; a pending run is one chunk before it. -/
theorem trailerEmission : Obligations.TrailerEmission := by
  intro s hphase
  rw [engineTurn_eTrl hphase]
  refine ⟨fun norun accepted => ?_, fun pending _ accepted => ?_, fun n rest failing => ?_⟩
  · have records : flushRun s.codec.run ++ [.trailer] = [.trailer] := by rw [norun]; rfl
    have unchanged : { s.codec with run := 0 } = s.codec := by rw [← norun]
    rw [emitTrailer_of_accepts records accepted, unchanged]
    rfl
  · have records : flushRun s.codec.run ++ [.trailer] = [.run s.codec.run, .trailer] := by rw [flushRun_of_pos pending]; rfl
    rw [emitTrailer_of_accepts records accepted]
    rfl
  · obtain ⟨t, ht⟩ := emitTrailer_of_fail failing
    exact ⟨_, congrArg _ ht, rfl, rfl⟩

/-! ### Step D_HDR: the fetch -/

/-- A header with a byte missing is never looked at (R144). -/
theorem decodeHeaderStep_of_stop {bytes : List Byte} {why : ReaderStop} {s t : State} (hserves : serves bytes s)
    (hlen : bytes.length < 14) (hstop : nextByte (afterPulls bytes.length s) = .stopped why t) :
    decodeHeaderStep s = .next (raiseError (stopCause .truncatedHeader why) t) := by
  have stopped : pullBytes Config.hdrLen s = .stopped why t := pullBytes_of_stop hserves hlen hstop
  rw [decodeHeaderStep, stopped]

/-- Settles O35: the fetch stops where the Reader does, before any check. -/
theorem headerFetchStopsAtTheFirstMissingByte : Obligations.HeaderFetchStopsAtTheFirstMissingByte := by
  intro s bytes hphase hlen
  rw [engineTurn_dHdr hphase]
  constructor
  · intro ends
    exact ⟨_, decodeHeaderStep_of_stop ends.1 hlen (nextByte_of_servesThenEnds ends), rfl, rfl, rfl, rfl, rfl, rfl, rfl⟩
  · intro fails
    exact ⟨_, decodeHeaderStep_of_stop fails.1 hlen (nextByte_of_servesThenFails fails), rfl, rfl, rfl, rfl, rfl, rfl, rfl⟩

/-! ### HEADER: the checks and the acceptance -/

theorem execHeader_of_fault {w h : Word32} {c sp : Byte} {cause : ErrorCause} (hf : headerFault w h c sp = some cause) (s : State) :
    execHeader w h c sp s = .next (raiseError cause s) := by
  rw [execHeader, hf]

theorem execHeader_of_legal {w h : Word32} {c sp : Byte} (hf : headerFault w h c sp = none) (s : State) :
    execHeader w h c sp s = .next (acceptHeader w h c sp s) := by
  rw [execHeader, hf]

theorem headerFault_of_colorspace {sp : Byte} (hsp : ¬ (sp ≠ 0 ∧ sp ≠ 1)) (w h : Word32) (c : Byte) :
    headerFault w h c sp = descriptorFault w h c :=
  if_neg hsp

/-- Settles O37: the four fields pass every check, and a positive pixel total leaves the first pixel due. -/
theorem headerAcceptanceWritesTheDescriptor : Obligations.HeaderAcceptanceWritesTheDescriptor := by
  intro w h c sp s hw hh hc hsp
  have legal : descriptorFault w h c = none := descriptorFault_none.2 ⟨hw, hh, hc⟩
  have accepted : headerFault w h c sp = none := by rw [headerFault_of_colorspace (by tauto), legal]
  refine ⟨_, execHeader_of_legal accepted s, rfl, fun cnt0 => ?_⟩
  obtain ⟨positive, -⟩ := pixelTotal_bounds legal
  rw [hasMore, acceptHeader_pxcnt, cnt0]
  exact decide_eq_true ⟨rfl, positive⟩

/-- The one bit of a colorspace register is a legal colorspace byte (R25, R145). -/
theorem colorspace_of_bit (b : BitVec 1) : ¬ (b.setWidth 8 ≠ 0 ∧ b.setWidth 8 ≠ 1) := by
  decide +revert

theorem extractLsb'_setWidth_bit (b : BitVec 1) : (b.setWidth 8).extractLsb' 0 1 = b := by
  decide +revert

/-- Settles O39: the record decodes to itself, and its fields are the legal descriptor's own. -/
theorem descriptorRoundTrip : Obligations.DescriptorRoundTrip := by
  intro d s legal
  have accepted : headerFault d.width d.height d.channels (d.colorspace.setWidth 8) = none := by
    rw [headerFault_of_colorspace (colorspace_of_bit _), legal]
  refine ⟨headerRecord d, _, decode_of_encode_eq (i := headerRecord d) rfl rfl, execHeader_of_legal accepted s, ?_, rfl, rfl⟩
  rw [acceptHeader_desc, extractLsb'_setWidth_bit]

/-! ### Step D_HDR: the checks -/

theorem decode_header_of_magic {m0 m1 m2 m3 : Byte} (h : [m0, m1, m2, m3] = Config.magic)
    (w3 w2 w1 w0 h3 h2 h1 h0 c sp : Byte) :
    decode .header [m0, m1, m2, m3, w3, w2, w1, w0, h3, h2, h1, h0, c, sp] =
      .ok (.header (unbe32 w3 w2 w1 w0) (unbe32 h3 h2 h1 h0) c sp, []) :=
  if_pos h

theorem decode_header_of_bad_magic {m0 m1 m2 m3 : Byte} (h : [m0, m1, m2, m3] ≠ Config.magic)
    (w3 w2 w1 w0 h3 h2 h1 h0 c sp : Byte) :
    decode .header [m0, m1, m2, m3, w3, w2, w1, w0, h3, h2, h1, h0, c, sp] = .error .badMagic :=
  if_neg h

theorem decodeHeaderStep_of_reject {bytes : List Byte} {why : DecodeReject} {s : State} (h : decode .header bytes = .error why)
    (hlen : bytes.length = Config.hdrLen) (hserves : serves bytes s) :
    decodeHeaderStep s = .next (raiseError (rejectCause why) (afterPulls Config.hdrLen s)) := by
  simp only [decodeHeaderStep, ← hlen, pullBytes_of_serves hserves, runRecord, h]

/-- A header that fails a check raises with all 14 bytes counted and the registers as they were (R145). -/
theorem raised_of_headerFault {w h : Word32} {c sp : Byte} {cause : ErrorCause} {s : State}
    (hturn : engineTurn s = execHeader w h c sp (afterPulls 14 s)) (hf : headerFault w h c sp = some cause) :
    ∃ t, engineTurn s = .next t ∧ t.cur = s.cur + 14 ∧ t.phase = .err ∧ t.err = some cause ∧ t.desc = s.desc :=
  ⟨_, hturn.trans (execHeader_of_fault hf _), rfl, rfl, rfl, rfl⟩

/-- Settles O36: the magic is the decoder's check; the other four stand in `headerFault` in this order. -/
theorem headerChecksInOrder : Obligations.HeaderChecksInOrder := by
  intro s m0 m1 m2 m3 w3 w2 w1 w0 h3 h2 h1 h0 c sp hphase hserves
  have hturn : [m0, m1, m2, m3] = Config.magic →
      engineTurn s = execHeader (unbe32 w3 w2 w1 w0) (unbe32 h3 h2 h1 h0) c sp (afterPulls 14 s) := fun magic =>
    (engineTurn_dHdr hphase).trans (decodeHeaderStep_of_serves (decode_header_of_magic magic ..) hserves)
  split_ifs with magic colorspace width height channels
  · exact ⟨_, (engineTurn_dHdr hphase).trans (decodeHeaderStep_of_reject (decode_header_of_bad_magic magic ..) rfl hserves),
      rfl, rfl, rfl, rfl⟩
  all_goals specialize hturn (not_not.1 magic)
  · exact raised_of_headerFault hturn (if_pos colorspace)
  all_goals have described := headerFault_of_colorspace colorspace (unbe32 w3 w2 w1 w0) (unbe32 h3 h2 h1 h0) c
  · exact raised_of_headerFault hturn (described.trans (if_pos width))
  · exact raised_of_headerFault hturn (described.trans ((if_neg width).trans (if_pos height)))
  · exact raised_of_headerFault hturn (described.trans ((if_neg width).trans ((if_neg height).trans (if_pos channels))))
  · have legal := described.trans ((if_neg width).trans ((if_neg height).trans (if_neg channels)))
    exact ⟨_, hturn.trans (execHeader_of_legal legal _), rfl, rfl, rfl⟩

/-! ### The end of a decode pass -/

/-- A body step that does not raise yields one pixel, and the count then decides whether the body is over (R147, R231). -/
theorem engineTurn_dBody_phase {s t : State} (hphase : s.phase = .dBody) (hpulls : s.ports.pulls ≠ 0) (ht : engineTurn s = .next t)
    (hok : t.phase ≠ .err) : t.pxcnt = s.pxcnt + 1 ∧ t.pxtotal = s.pxtotal ∧
      t.phase = if s.pxcnt + 1 = s.pxtotal then (if s.params.strictTrailer then .dTrl else .done) else .dBody := by
  rw [engineTurn_dBody hphase hpulls, decodeBodyStep] at ht
  split at ht
  · cases ht
    exact ⟨reYield_pxcnt _, reYield_pxtotal _, hphase ▸ reYield_phase (takePull s)⟩
  · rcases decodeOpcode_cases (takePull s) with ⟨k, c, why, -, hd⟩ | ⟨i, k, -, -, -, hi, hd⟩
    · cases hd.symm.trans ht
      exact absurd rfl hok
    · obtain ⟨px, c, he, -⟩ := exec_body hi (afterPulls k (takePull s))
      cases he.symm.trans (hd.symm.trans ht)
      exact ⟨yieldPixel_pxcnt .., yieldPixel_pxtotal .., hphase ▸ yieldPixel_phase px _⟩

/-! ### The strict check of the trailer -/

/-- Matching bytes leave the rest of the trailer to be checked. -/
theorem checkTrailer_append {served : List Byte} {s : State} (h : serves served s) (rest : List Byte) :
    checkTrailer (served ++ rest) s = checkTrailer rest (afterPulls served.length s) := by
  induction served generalizing s with
  | nil => rfl
  | cons b served ih =>
    obtain ⟨hanswer, hbyte, hserved⟩ := serves_cons h
    rw [List.cons_append, checkTrailer, nextByte_of_serve hanswer hbyte]
    simp only [if_true, ih hserved, afterPulls_succ, List.length_cons]

theorem length_take_trailerBytes {k : Nat} (hk : k < Config.trailerBytes.length) : (Config.trailerBytes.take k).length = k :=
  List.length_take_of_le hk.le

/-- In D_TRL, once the first `k` bytes have matched, the check goes on with byte `k`. -/
theorem engineTurn_dTrl_from {k : Nat} {s : State} (hphase : s.phase = .dTrl) (hk : k < Config.trailerBytes.length)
    (h : serves (Config.trailerBytes.take k) s) :
    engineTurn s = checkTrailer (Config.trailerBytes[k] :: Config.trailerBytes.drop (k + 1)) (afterPulls k s) := by
  have matched := checkTrailer_append h (Config.trailerBytes.drop k)
  rwa [List.take_append_drop, length_take_trailerBytes hk, List.drop_eq_getElem_cons hk, ← engineTurn_dTrl hphase] at matched

theorem checkTrailer_of_mismatch {expected x : Byte} {s : State} (hne : x ≠ expected) (h : serves [x] s) (rest : List Byte) :
    checkTrailer (expected :: rest) s = .next (raiseError .badTrailer (afterPulls 1 s)) := by
  obtain ⟨hanswer, hbyte, -⟩ := serves_cons h
  have differs : [x] ≠ [expected] := fun h => hne (List.singleton_inj.1 h)
  simp only [checkTrailer, nextByte_of_serve hanswer hbyte, if_neg differs]

theorem checkTrailer_of_stop {why : ReaderStop} {s t : State} (h : nextByte s = .stopped why t) (expected : Byte) (rest : List Byte) :
    checkTrailer (expected :: rest) s = .next (raiseError (stopCause .badTrailer why) t) := by
  simp only [checkTrailer, h]

/-- Step D_TRL where byte `k` of the trailer differs (R147). -/
theorem engineTurn_dTrl_of_mismatch {k : Nat} {x : Byte} {s : State} (hphase : s.phase = .dTrl) (hk : k < Config.trailerBytes.length)
    (hne : x ≠ Config.trailerBytes[k]) (hserves : serves (Config.trailerBytes.take k ++ [x]) s) :
    engineTurn s = .next (raiseError .badTrailer (afterPulls (k + 1) s)) := by
  obtain ⟨matched, differs⟩ := serves_append hserves
  rw [length_take_trailerBytes hk] at differs
  rw [engineTurn_dTrl_from hphase hk matched, checkTrailer_of_mismatch hne differs, afterPulls_afterPulls]

/-- Step D_TRL where byte `k` of the trailer is missing (R147). -/
theorem engineTurn_dTrl_of_stop {k : Nat} {why : ReaderStop} {s : State} (hphase : s.phase = .dTrl)
    (hk : k < Config.trailerBytes.length) (hserves : serves (Config.trailerBytes.take k) s)
    (hstop : nextByte (afterPulls (Config.trailerBytes.take k).length s) =
      .stopped why (stopReader why (afterPulls (Config.trailerBytes.take k).length s))) :
    engineTurn s = .next (raiseError (stopCause .badTrailer why) (stopReader why (afterPulls k s))) := by
  rw [length_take_trailerBytes hk] at hstop
  rw [engineTurn_dTrl_from hphase hk hserves, checkTrailer_of_stop hstop]

/-- Settles O38: the trailer is checked from the first byte that is missing or differs, everything before it having matched. -/
theorem trailerEndsThePassOrRaises : Obligations.TrailerEndsThePassOrRaises := by
  refine ⟨fun _ => rfl, ?lastPixel, ?whole, ?mismatch, ?ends, ?fails⟩
  case lastPixel =>
    intro s t hphase hpulls ht hok complete
    obtain ⟨cnt, total, next⟩ := engineTurn_dBody_phase hphase hpulls ht hok
    rw [next, if_pos (by rw [← cnt, complete, total])]
  case whole =>
    intro s hphase hserves
    exact (engineTurn_dTrl hphase).trans (checkTrailer_of_serves hserves)
  case mismatch =>
    intro s k x hphase hk hne hserves
    exact engineTurn_dTrl_of_mismatch hphase hk (fun h => hne ((congrArg some h).trans (List.getElem?_eq_getElem hk).symm)) hserves
  case ends =>
    intro s k hphase hk ends
    exact ⟨_, engineTurn_dTrl_of_stop hphase hk ends.1 (nextByte_of_servesThenEnds ends), rfl, rfl, rfl, rfl⟩
  case fails =>
    intro s k hphase hk fails
    exact ⟨_, engineTurn_dTrl_of_stop hphase hk fails.1 (nextByte_of_servesThenFails fails), rfl, rfl, rfl⟩

end Sys2Proof.Machine
end

section
/-! The cache family (41_cache_controller.md): the hash as arithmetic (R160, R162), the slot invariant under every step of every agent (R168),
and what INDEX (R169) and the encoder's lookup (R170) find in a slot. -/

namespace Sys2Proof.Machine

/-! ### The hash -/

theorem pixelHash_val (px : Pixel) :
    (pixelHash px).val = (px.r.toNat * 3 + px.g.toNat * 5 + px.b.toNat * 7 + px.a.toNat * 11) % 64 :=
  rfl

theorem pixelHash_slotInit : pixelHash Config.slotInit = 0 := rfl

/-- Every channel is at most 255, so the weights 3 + 5 + 7 + 11 = 26 bound the sum (R160). -/
theorem weightedSum_le (px : Pixel) : px.r.toNat * 3 + px.g.toNat * 5 + px.b.toNat * 7 + px.a.toNat * 11 ≤ 6630 := by
  have hr := px.r.isLt
  have hg := px.g.isLt
  have hb := px.b.isLt
  have ha := px.a.isLt
  omega

/-- Bits 5:0 of a 13-bit word are its number mod 64, also where the number did not fit. -/
theorem lowSixBits_ofNat (n : Nat) : ((BitVec.ofNat 13 n).extractLsb' 0 6).toNat = n % 64 := by
  rw [BitVec.extractLsb'_toNat, BitVec.toNat_ofNat, Nat.shiftRight_zero]
  omega

/-- Settles O8: the first part is the definition, the second the bound of a channel, and the low six bits of a number are it mod 64. -/
theorem hashIsWeightedSumMod64 : Obligations.HashIsWeightedSumMod64 := by
  intro px
  refine ⟨pixelHash_val px, weightedSum_le px, ?_⟩
  rw [lowSixBits_ofNat, pixelHash_val]
  omega

/-- Settles O9: the sum mod 64 depends on each channel mod 64 only; the nine values are computed. -/
theorem hashIgnoresTheTopTwoBits : Obligations.HashIgnoresTheTopTwoBits := by
  refine ⟨fun p q hr hg hb ha => Fin.ext ?_, by decide⟩
  rw [pixelHash_val, pixelHash_val]
  omega

/-! ### INDEX -/

theorem exec_index (i : Fin 64) (s : State) : exec (.index i) s = .next (reconstruct (slotAt i s.codec) s) := rfl

/-- Slot 0, and a slot that holds anything but the cleared value, holds a pixel of its own hash. -/
theorem pixelHash_slotAt {c : Codec} (h : SlotsHashed c) {i : Fin 64} (hi : i = 0 ∨ slotAt i c ≠ Config.slotInit) :
    pixelHash (slotAt i c) = i := by
  rcases h i with cleared | hashed
  · rw [cleared, pixelHash_slotInit]
    exact (hi.resolve_right (not_not_intro cleared)).symm
  · exact hashed

theorem slotAt_reconstruct (px : Pixel) (s : State) (k : Fin 64) :
    slotAt k (reconstruct px s).codec = if k = pixelHash px then px else slotAt k s.codec := by
  rw [reconstruct_codec]
  exact slotAt_cacheUpdate px s.codec k

/-- Settles O11: a cleared slot's pixel hashes to 0, so its update writes slot 0; any other slot's pixel hashes to the slot itself. -/
theorem indexOfUntouchedSlotEvictsSlotZero : Obligations.IndexOfUntouchedSlotEvictsSlotZero := by
  intro i s slots
  refine ⟨_, exec_index i s, fun nonzero untouched => ?cleared, fun written k => ?own⟩
  case cleared =>
    have slot (k : Fin 64) : slotAt k (reconstruct (slotAt i s.codec) s).codec = if k = 0 then ⟨0, 0, 0, 0⟩ else slotAt k s.codec := by
      rw [slotAt_reconstruct, untouched]
      rfl
    refine ⟨?_, ?_, ?_, fun k hk => ?_⟩
    · rw [reconstruct_codec, untouched]
    · rw [slot, if_pos rfl]
    · rw [slot, if_neg nonzero, untouched]
    · rw [slot, if_neg hk]
  case own =>
    have hash : pixelHash (slotAt i s.codec) = i := pixelHash_slotAt slots written
    rw [slotAt_reconstruct, hash]
    split
    · next hk => rw [hk]
    · rfl

/-! ### The slot invariant -/

theorem slotsHashed_encodeStep {c : Codec} (h : SlotsHashed c) (wrap last : Bool) (px : Pixel) :
    SlotsHashed (encodeStep wrap last px c).2 := by
  rcases encodeStep_cases wrap last px c with he | ⟨-, -, he⟩ | ⟨i, d, he, -, -, slots⟩ <;> rw [he]
  · exact h
  · exact h
  · exact slots h

theorem EmitFailure.codec_eq {is : List Instr} {s t : State} (h : EmitFailure is s t) : t.codec = s.codec := by
  obtain ⟨done, i, rest, n, -, rfl⟩ := h
  rfl

theorem slotsHashed_emitHeader {s : State} (h : SlotsHashed s.codec) : SlotsHashed (emitHeader s).codec := by
  rcases emitHeader_cases s with he | failed
  · rw [he]; exact h
  · rw [failed.codec_eq]; exact h

theorem slotsHashed_encodePixel {s : State} (h : SlotsHashed s.codec) (px : Pixel) : SlotsHashed (encodePixel px s).codec := by
  rcases encodePixel_cases px s with he | failed
  · rw [he]; exact slotsHashed_encodeStep h _ _ px
  · rw [failed.codec_eq]; exact h

theorem slotsHashed_emitTrailer {s : State} (h : SlotsHashed s.codec) : SlotsHashed (emitTrailer s).codec := by
  rcases emitTrailer_cases s with he | failed
  · rw [he]; exact h
  · rw [failed.codec_eq]; exact h

theorem decodeHeaderStep_codec {s t : State} (ht : decodeHeaderStep s = .next t) : t.codec = s.codec := by
  obtain ⟨u, hu, ⟨k, c, why, -, rfl⟩ | ⟨c, rfl⟩ | ⟨w, l, c, sp, -, rfl⟩⟩ := decodeHeaderStep_cases s <;> cases hu.symm.trans ht <;> rfl

theorem checkTrailer_codec {expected : List Byte} {s t : State} (ht : checkTrailer expected s = .next t) : t.codec = s.codec := by
  obtain ⟨u, hu, ⟨k, c, why, -, rfl⟩ | ⟨k, -, rfl⟩ | rfl⟩ := checkTrailer_cases expected s <;> cases hu.symm.trans ht <;> rfl

theorem slotsHashed_reYield {s : State} (h : SlotsHashed s.codec) : SlotsHashed (reYield s).codec := by
  rw [reYield_codec]
  exact h

theorem slotsHashed_decodeOpcode {s t : State} (h : SlotsHashed s.codec) (ht : decodeOpcode s = .next t) : SlotsHashed t.codec := by
  rcases decodeOpcode_cases s with ⟨k, c, why, -, hd⟩ | ⟨i, k, -, -, -, hi, hd⟩
  · cases hd.symm.trans ht
    exact h
  · obtain ⟨px, c, he, -, slots, -⟩ := exec_body hi (afterPulls k s)
    cases he.symm.trans (hd.symm.trans ht)
    rw [yieldPixel_codec]
    exact slots h

theorem slotsHashed_engineTurn {s t : State} (h : SlotsHashed s.codec) (ht : engineTurn s = .next t) : SlotsHashed t.codec := by
  rcases engineTurn_cases ht with rfl | ⟨-, rfl⟩ | ⟨-, px, rest, -, rfl⟩ | ⟨-, rfl⟩ | ⟨-, hd⟩ | ⟨-, -, -, rfl⟩ | ⟨-, -, -, hd⟩ | ⟨-, hd⟩
  · exact h
  · exact slotsHashed_emitHeader h
  · exact slotsHashed_encodePixel h px
  · exact slotsHashed_emitTrailer h
  · rw [decodeHeaderStep_codec hd]; exact h
  · exact slotsHashed_reYield (s := takePull s) h
  · exact slotsHashed_decodeOpcode (s := takePull s) h hd
  · rw [checkTrailer_codec hd]; exact h

/-- A command leaves the Codec State, or a new pass has cleared it (R165, R262). -/
theorem command_codec (c : Command) (s : State) : (command c s).codec = s.codec ∨ (command c s).codec = Codec.initial := by
  rcases command_cases c s with he | he | ⟨-, he | he⟩ <;> rw [he]
  · exact .inl rfl
  · exact .inl rfl
  · rcases startEncode_cases s with ⟨-, hs⟩ | ⟨cause, -, hs⟩ <;> rw [hs] <;> exact .inr rfl
  · exact .inr rfl

theorem slotsHashed_step {s t : State} (h : SlotsHashed s.codec) (ht : step s = .next t) : SlotsHashed t.codec := by
  rw [step_eq_takeTurn] at ht
  rcases takeTurn_cases ht with ⟨-, he⟩ | ⟨op, c, -, -, rfl⟩ | ⟨d, p, r, ts, rfl, -⟩
  · exact slotsHashed_engineTurn (s := { s with turns := s.turns.tail }) h he
  · rcases command_codec c { s with turns := s.turns.tail } with kept | cleared
    · rw [kept]; exact h
    · rw [cleared]; exact SlotsHashed_initial
  · exact h

/-- Settles O10: a slot is cleared at the start of a pass and later written with pixels of its own hash only; INDEX yields what it holds. -/
theorem slotInvariantHoldsAtEveryStep : Obligations.SlotInvariantHoldsAtEveryStep := by
  refine ⟨SlotsHashed_initial, fun s t h ht => slotsHashed_step h ht, fun i s t h ht => ?_⟩
  cases (exec_index i s).symm.trans ht
  rw [reconstruct_codec]
  exact h i

/-! ### What the encoder's step does to the cache -/

theorem encodeStep_of_repeat (wrap last : Bool) {px : Pixel} {c : Codec} (same : px = c.prev) :
    ∃ n, (encodeStep wrap last px c).2 = { c with run := n } := by
  rw [encodeStep, if_pos same]
  split <;> exact ⟨_, rfl⟩

theorem encodeStep_of_hit (wrap last : Bool) {px : Pixel} {c : Codec} (new : px ≠ c.prev) (hit : slotAt (pixelHash px) c = px) :
    encodeStep wrap last px c = (flushRun c.run ++ [.index (pixelHash px)], { c with run := 0, prev := px }) := by
  rw [encodeStep, if_neg new, if_pos ((cacheHit_iff px c).2 hit)]

theorem encodeStep_of_miss (wrap last : Bool) {px : Pixel} {c : Codec} (new : px ≠ c.prev) (miss : slotAt (pixelHash px) c ≠ px) :
    encodeStep wrap last px c = (flushRun c.run ++ [missRecord wrap px c.prev], { cacheUpdate px c with run := 0, prev := px }) := by
  rw [encodeStep, if_neg new, if_neg (mt (cacheHit_iff px c).1 miss)]

/-- After a pixel's step it is the previous pixel, repeated or not (R191). -/
theorem encodeStep_prev (wrap last : Bool) (px : Pixel) (c : Codec) : (encodeStep wrap last px c).2.prev = px := by
  by_cases same : px = c.prev
  · obtain ⟨n, he⟩ := encodeStep_of_repeat wrap last same
    rw [he, same]
  · by_cases hit : slotAt (pixelHash px) c = px
    · rw [encodeStep_of_hit wrap last same hit]
    · rw [encodeStep_of_miss wrap last same hit]

/-- A pixel other than `prev` stands in its slot after its step, by hit or by miss (R163, R164). -/
theorem slotAt_encodeStep_self (wrap last : Bool) {px : Pixel} {c : Codec} (new : px ≠ c.prev) :
    slotAt (pixelHash px) (encodeStep wrap last px c).2 = px := by
  by_cases hit : slotAt (pixelHash px) c = px
  · rw [encodeStep_of_hit wrap last new hit]
    exact hit
  · rw [encodeStep_of_miss wrap last new hit]
    exact slotAt_cacheUpdate_self px c

/-- A pixel's step puts nothing but that pixel into a slot (R164). -/
theorem slotAt_encodeStep (wrap last : Bool) (px : Pixel) (c : Codec) (k : Fin 64) :
    slotAt k (encodeStep wrap last px c).2 = slotAt k c ∨ slotAt k (encodeStep wrap last px c).2 = px := by
  by_cases same : px = c.prev
  · obtain ⟨n, he⟩ := encodeStep_of_repeat wrap last same
    rw [he]
    exact .inl rfl
  · by_cases hit : slotAt (pixelHash px) c = px
    · rw [encodeStep_of_hit wrap last same hit]
      exact .inl rfl
    · rw [encodeStep_of_miss wrap last same hit]
      rcases eq_or_ne k (pixelHash px) with rfl | other
      · exact .inr (slotAt_cacheUpdate_self px c)
      · exact .inl ((slotAt_cacheUpdate px c k).trans (if_neg other))

/-! ### A pixel whose slot another has taken -/

/-- The Codec State holds the pixel neither as `prev` nor in its slot, so its next step is a miss (R184). -/
def Forgotten (x : Pixel) (c : Codec) : Prop := x ≠ c.prev ∧ slotAt (pixelHash x) c ≠ x

theorem forgotten_of_collision (wrap last : Bool) {x y : Pixel} {c : Codec} (collide : pixelHash y = pixelHash x) (other : y ≠ x)
    (new : y ≠ c.prev) : Forgotten x (encodeStep wrap last y c).2 := by
  refine ⟨?_, ?_⟩
  · rw [encodeStep_prev]
    exact other.symm
  · rw [← collide, slotAt_encodeStep_self wrap last new]
    exact other

theorem forgotten_encodeStep (wrap last : Bool) {x z : Pixel} {c : Codec} (h : Forgotten x c) (other : z ≠ x) :
    Forgotten x (encodeStep wrap last z c).2 := by
  refine ⟨?_, ?_⟩
  · rw [encodeStep_prev]
    exact other.symm
  · rcases slotAt_encodeStep wrap last z c (pixelHash x) with kept | taken
    · rw [kept]; exact h.2
    · rw [taken]; exact other

theorem forgotten_codecAfter (wrap : Bool) {x : Pixel} {c : Codec} {between : List Pixel} (h : Forgotten x c) (absent : x ∉ between) :
    Forgotten x (codecAfter wrap c between) := by
  induction between generalizing c with
  | nil => exact h
  | cons z rest ih =>
    rw [List.mem_cons, not_or] at absent
    obtain ⟨other, later⟩ := absent
    exact ih (forgotten_encodeStep wrap false h (Ne.symm other)) later

/-- The miss path emits DIFF, LUMA, RGB or RGBA (R185 to R189). -/
theorem missRecord_cases (wrap : Bool) (px prev : Pixel) :
    (∃ dr dg db, missRecord wrap px prev = .diff dr dg db) ∨ (∃ dg drg dbg, missRecord wrap px prev = .luma dg drg dbg) ∨
    (∃ r g b, missRecord wrap px prev = .rgb r g b) ∨ ∃ r g b a, missRecord wrap px prev = .rgba r g b a := by
  unfold missRecord
  dsimp only
  split
  · split
    · exact .inl ⟨_, _, _, rfl⟩
    · split
      · exact .inr (.inl ⟨_, _, _, rfl⟩)
      · exact .inr (.inr (.inl ⟨_, _, _, rfl⟩))
  · exact .inr (.inr (.inr ⟨_, _, _, _, rfl⟩))

theorem missRecord_not_index_nor_run (wrap : Bool) (px prev : Pixel) :
    (∀ k : Fin 64, missRecord wrap px prev ≠ .index k) ∧ ∀ n : Nat, missRecord wrap px prev ≠ .run n := by
  rcases missRecord_cases wrap px prev with ⟨_, _, _, h⟩ | ⟨_, _, _, h⟩ | ⟨_, _, _, h⟩ | ⟨_, _, _, _, h⟩ <;> simp [h]

theorem flushRun_eq_ite (run : Nat) : flushRun run = if run = 0 then [] else [.run run] := by
  cases run <;> rfl

/-- Settles O12: Y in the slot makes the Codec State forget X, no pixel but X brings it back, and a forgotten pixel is a miss. -/
theorem evictedPixelIsNotIndexed : Obligations.EvictedPixelIsNotIndexed := by
  intro wrap last x y c between collide other new absent d
  have evictedByY : Forgotten x (encodeStep wrap false y c).2 := forgotten_of_collision wrap false collide other new
  have forgotten : Forgotten x (codecAfter wrap (encodeStep wrap false y c).2 between) := forgotten_codecAfter wrap evictedByY absent
  obtain ⟨notPrev, evicted⟩ : Forgotten x d := forgotten
  obtain ⟨notIndex, notRun⟩ := missRecord_not_index_nor_run wrap x d.prev
  refine ⟨missRecord wrap x d.prev, ?_, notIndex, notRun, slotAt_encodeStep_self wrap last notPrev⟩
  rw [encodeStep_of_miss wrap last notPrev evicted, flushRun_eq_ite]

end Sys2Proof.Machine
end

section
/-! The encoder family (42_encoder.md), first part: what the body step of one pixel emits and leaves (R180 to R193), the deltas (R185), and
which records a list of pixels can give (R194, R196 to R199, R203). -/

namespace Sys2Proof.Machine

/-! ### The deltas -/

/-- `sext_8(v mod 256)` as arithmetic (R9). -/
theorem wrap8_eq (v : Int) : wrap8 v = if v % 256 < 128 then v % 256 else v % 256 - 256 := by
  rw [wrap8, BitVec.toInt_ofInt]
  rfl

theorem wrap8_range (v : Int) : -128 ≤ wrap8 v ∧ wrap8 v ≤ 127 := by
  rw [wrap8_eq]
  split <;> omega

theorem channelDifference_range (x y : Byte) : -255 ≤ (x.toNat : Int) - y.toNat ∧ (x.toNat : Int) - y.toNat ≤ 255 := by
  have hx := x.isLt
  have hy := y.isLt
  omega

/-- Settles O54: without wrap the bounds are those of a channel, with wrap those of a signed byte. -/
theorem deltasUnderBothSettings : Obligations.DeltasUnderBothSettings := by
  intro px prev
  constructor
  · have hr := channelDifference_range px.r prev.r
    have hg := channelDifference_range px.g prev.g
    have hb := channelDifference_range px.b prev.b
    refine ⟨rfl, rfl, rfl, rfl, rfl, ?_⟩
    simp only [deltas, difference, Bool.false_eq_true, if_false]
    omega
  · simp only [deltas, difference, if_true]
    exact ⟨wrap8_eq _, wrap8_eq _, wrap8_eq _, wrap8_eq _, wrap8_eq _, (wrap8_range _).1, (wrap8_range _).2, (wrap8_range _).1,
      (wrap8_range _).2, (wrap8_range _).1, (wrap8_range _).2, (wrap8_range _).1, (wrap8_range _).2, (wrap8_range _).1, (wrap8_range _).2⟩

/-! ### The record of a miss -/

theorem missRecord_of_alpha {px prev : Pixel} (wrap : Bool) (changed : px.a ≠ prev.a) :
    missRecord wrap px prev = .rgba px.r px.g px.b px.a :=
  if_neg changed

/-- With alpha unchanged the range tests decide, DIFF before LUMA before RGB (R186 to R188). -/
theorem missRecord_of_same_alpha {px prev : Pixel} (wrap : Bool) (same : px.a = prev.a) :
    missRecord wrap px prev =
      if fitsDiff (deltas wrap px prev) then
        .diff (deltas wrap px prev).dr (deltas wrap px prev).dg (deltas wrap px prev).db
      else if fitsLuma (deltas wrap px prev) then
        .luma (deltas wrap px prev).dg (deltas wrap px prev).drg (deltas wrap px prev).dbg
      else .rgb px.r px.g px.b :=
  if_pos same

theorem missRecord_wellFormed (wrap : Bool) (px prev : Pixel) :
    (missRecord wrap px prev).wellFormed = true ∧ (missRecord wrap px prev).position = .body := by
  by_cases same : px.a = prev.a
  · rw [missRecord_of_same_alpha wrap same]
    split
    · next fits => exact ⟨fits, rfl⟩
    · split
      · next fits => exact ⟨fits, rfl⟩
      · exact ⟨rfl, rfl⟩
  · rw [missRecord_of_alpha wrap same]
    exact ⟨rfl, rfl⟩

theorem missRecord_not_rgba {px prev : Pixel} (wrap : Bool) (same : px.a = prev.a) (r g b a : Byte) :
    missRecord wrap px prev ≠ .rgba r g b a := by
  rw [missRecord_of_same_alpha wrap same]
  split
  · exact Instr.noConfusion
  · split <;> exact Instr.noConfusion

/-- The DIFF test is that the DIFF record is well-formed (R116, R186). -/
theorem fitsDiff_iff (d : Deltas) :
    fitsDiff d = true ↔ -2 ≤ d.dr ∧ d.dr ≤ 1 ∧ -2 ≤ d.dg ∧ d.dg ≤ 1 ∧ -2 ≤ d.db ∧ d.db ≤ 1 :=
  (wf_diff (dr := d.dr) (dg := d.dg) (db := d.db)).trans (by simp only [and_assoc])

/-- The LUMA test is that the LUMA record is well-formed (R116, R187). -/
theorem fitsLuma_iff (d : Deltas) :
    fitsLuma d = true ↔ -32 ≤ d.dg ∧ d.dg ≤ 31 ∧ -8 ≤ d.drg ∧ d.drg ≤ 7 ∧ -8 ≤ d.dbg ∧ d.dbg ≤ 7 :=
  (wf_luma (dg := d.dg) (drg := d.drg) (dbg := d.dbg)).trans (by simp only [and_assoc])

/-- The numbers of the bytes of a miss (R112, R185 to R189). -/
def missBytes (d : Deltas) (px prev : Pixel) : List Int :=
  if px.a ≠ prev.a then [0xFF, (px.r.toNat : Int), px.g.toNat, px.b.toNat, px.a.toNat]
  else if -2 ≤ d.dr ∧ d.dr ≤ 1 ∧ -2 ≤ d.dg ∧ d.dg ≤ 1 ∧ -2 ≤ d.db ∧ d.db ≤ 1 then
    [0x40 + (d.dr + 2) * 16 + (d.dg + 2) * 4 + (d.db + 2)]
  else if -32 ≤ d.dg ∧ d.dg ≤ 31 ∧ -8 ≤ d.drg ∧ d.drg ≤ 7 ∧ -8 ≤ d.dbg ∧ d.dbg ≤ 7 then
    [0x80 + (d.dg + 32), (d.drg + 8) * 16 + (d.dbg + 8)]
  else [0xFE, (px.r.toNat : Int), px.g.toNat, px.b.toNat]

theorem encode_missRecord (wrap : Bool) (px prev : Pixel) :
    (encode (missRecord wrap px prev)).map (fun b => (b.toNat : Int)) = missBytes (deltas wrap px prev) px prev := by
  unfold missBytes
  by_cases same : px.a = prev.a
  · rw [missRecord_of_same_alpha wrap same, if_neg (not_not_intro same)]
    simp only [← fitsDiff_iff, ← fitsLuma_iff]
    split
    · next fits =>
      obtain ⟨b1, bytes, value⟩ := encode_diff fits
      rw [bytes, List.map_singleton, value]
    · split
      · next fits =>
        obtain ⟨b1, b2, bytes, value1, value2⟩ := encode_luma fits
        rw [bytes, List.map_cons, List.map_singleton, value1, value2]
      · rfl
  · rw [missRecord_of_alpha wrap same, if_pos same]
    rfl

/-! ### The run counter -/

/-- A repeat that fills the run or is the last pixel ends the run (R182). -/
theorem encodeStep_of_run_end (wrap : Bool) {last : Bool} {c : Codec} (ends : c.run + 1 = 62 ∨ last = true) :
    encodeStep wrap last c.prev c = ([.run (c.run + 1)], { c with run := 0 }) := by
  have reached : c.run + 1 = Config.runMax ∨ last = true := ends
  rw [encodeStep, if_pos rfl, if_pos reached]

/-- Any other repeat lengthens the run (R182). -/
theorem encodeStep_of_run_on (wrap : Bool) {c : Codec} (short : c.run + 1 ≠ 62) :
    encodeStep wrap false c.prev c = ([], { c with run := c.run + 1 }) := by
  have goesOn : ¬ (c.run + 1 = Config.runMax ∨ false = true) := not_or_intro short Bool.false_ne_true
  rw [encodeStep, if_pos rfl, if_neg goesOn]

/-! ### Which records one pixel can give -/

theorem mem_flushRun {run : Nat} {i : Instr} : i ∈ flushRun run ↔ 0 < run ∧ i = .run run := by
  unfold flushRun
  split <;> simp_all

/-- A pixel emits the run it ends, the run it interrupts, its slot, or the record of its miss. -/
theorem mem_encodeStep {wrap last : Bool} {px : Pixel} {c : Codec} {i : Instr} (h : i ∈ (encodeStep wrap last px c).1) :
    i = .run (c.run + 1) ∨ (0 < c.run ∧ i = .run c.run) ∨ i = .index (pixelHash px) ∨ i = missRecord wrap px c.prev := by
  by_cases same : px = c.prev
  · subst same
    by_cases ends : c.run + 1 = 62 ∨ last = true
    · rw [encodeStep_of_run_end wrap ends] at h
      exact .inl (List.mem_singleton.1 h)
    · rw [not_or, Bool.not_eq_true] at ends
      obtain ⟨short, rfl⟩ := ends
      rw [encodeStep_of_run_on wrap short] at h
      cases h
  · by_cases hit : slotAt (pixelHash px) c = px
    · rw [encodeStep_of_hit wrap last same hit, List.mem_append, mem_flushRun, List.mem_singleton] at h
      exact .inr (h.imp_right .inl)
    · rw [encodeStep_of_miss wrap last same hit, List.mem_append, mem_flushRun, List.mem_singleton] at h
      exact .inr (h.imp_right .inr)

/-- The run stays below its cap between steps (R22, R182). -/
theorem encodeStep_run_le (wrap last : Bool) (px : Pixel) {c : Codec} (hrun : c.run ≤ 61) : (encodeStep wrap last px c).2.run ≤ 61 := by
  rcases encodeStep_cases wrap last px c with he | ⟨short, -, he⟩ | ⟨i, d, he, -, flushed, -⟩ <;> rw [he]
  · exact Nat.zero_le 61
  · show c.run + 1 ≤ 61
    omega
  · show d.run ≤ 61
    omega

/-- Settles O55: each of the four records is well-formed, and a pixel costs five bytes beside the run it owes. -/
theorem encoderEmitsOnlyWellFormedOpcodes : Obligations.EncoderEmitsOnlyWellFormedOpcodes := by
  intro wrap last px c hrun
  refine ⟨fun i hi => ?_, ?_, encodeStep_run_le wrap last px hrun⟩
  · rcases mem_encodeStep hi with rfl | ⟨pending, rfl⟩ | rfl | rfl
    · exact ⟨wf_run.2 (by omega), rfl⟩
    · exact ⟨wf_run.2 (by omega), rfl⟩
    · exact ⟨rfl, rfl⟩
    · exact missRecord_wellFormed wrap px c.prev
  · have cost := length_encodeStep wrap last px c
    have owed : (if c.run = 0 then 0 else 1) ≤ 1 := by split <;> omega
    omega

/-! ### The records of a list of pixels -/

theorem bodyRecords_cons (wrap : Bool) (c : Codec) (px : Pixel) (rest : List Pixel) :
    bodyRecords wrap c (px :: rest) =
      (encodeStep wrap rest.isEmpty px c).1 ++ bodyRecords wrap (encodeStep wrap rest.isEmpty px c).2 rest :=
  rfl

/-- Repeats that neither fill the run nor end the image emit nothing (R182). -/
theorem bodyRecords_of_repeats (wrap : Bool) {k : Nat} {c : Codec} (room : c.run + k ≤ 61) {later : List Pixel} (more : later ≠ []) :
    bodyRecords wrap c (List.replicate k c.prev ++ later) = bodyRecords wrap { c with run := c.run + k } later := by
  induction k generalizing c with
  | zero => rfl
  | succ k ih =>
    have notLast : (List.replicate k c.prev ++ later).isEmpty = false := by simp [more]
    have counted : bodyRecords wrap { c with run := c.run + 1 } (List.replicate k c.prev ++ later) =
        bodyRecords wrap { c with run := c.run + 1 + k } later :=
      ih (c := { c with run := c.run + 1 }) (by show c.run + 1 + k ≤ 61; omega)
    rw [List.replicate_succ, List.cons_append, bodyRecords_cons, notLast, encodeStep_of_run_on wrap (by omega), List.nil_append, counted,
      Nat.add_right_comm, Nat.add_assoc]

/-- With no run pending, a pixel other than `prev` emits one record, which is no RUN (R183). -/
theorem encodeStep_of_new (wrap last : Bool) {px : Pixel} {c : Codec} (norun : c.run = 0) (new : px ≠ c.prev) :
    ∃ i, (encodeStep wrap last px c).1 = [i] ∧ ∀ n, i ≠ .run n := by
  have nothingOwed : flushRun c.run = [] := by rw [norun]; rfl
  by_cases hit : slotAt (pixelHash px) c = px
  · rw [encodeStep_of_hit wrap last new hit, nothingOwed]
    exact ⟨_, rfl, fun n => Instr.noConfusion⟩
  · rw [encodeStep_of_miss wrap last new hit, nothingOwed]
    exact ⟨_, rfl, (missRecord_not_index_nor_run wrap px c.prev).2⟩

/-- Settles O56: 61 repeats only count, the 62nd fills the run and leaves the Codec State as it was before them. -/
theorem runOfSixtyTwoIsOneRecord : Obligations.RunOfSixtyTwoIsOneRecord := by
  intro wrap c q rest norun new
  refine ⟨?_, encodeStep_of_new wrap _ norun new, by decide⟩
  have counted : bodyRecords wrap c (List.replicate 61 c.prev ++ c.prev :: q :: rest) =
      bodyRecords wrap { c with run := c.run + 61 } (c.prev :: q :: rest) :=
    bodyRecords_of_repeats wrap (by omega) (List.cons_ne_nil _ _)
  have full : encodeStep wrap false c.prev { c with run := c.run + 61 } = ([.run (c.run + 61 + 1)], { c with run := 0 }) :=
    encodeStep_of_run_end (c := { c with run := c.run + 61 }) wrap (.inl (by show c.run + 61 + 1 = 62; omega))
  have unchanged : { c with run := 0 } = c := by rw [← norun]
  calc bodyRecords wrap c (List.replicate 62 c.prev ++ q :: rest)
      = bodyRecords wrap c (List.replicate 61 c.prev ++ c.prev :: q :: rest) := by
        rw [List.replicate_succ', List.append_assoc, List.singleton_append]
    _ = .run (c.run + 61 + 1) :: bodyRecords wrap { c with run := 0 } (q :: rest) := by
        rw [counted, bodyRecords_cons, List.isEmpty_cons, full, List.singleton_append]
    _ = .run 62 :: bodyRecords wrap c (q :: rest) := by rw [unchanged, norun]

/-- Settles O57: with alpha 255 on both sides a miss is no RGBA, and the pixel becomes the next one's `prev`. -/
theorem opaqueImagesUseNoRgba : Obligations.OpaqueImagesUseNoRgba := by
  intro wrap c pixels
  induction pixels generalizing c with
  | nil => intro _ _ i hi; cases hi
  | cons px rest ih =>
    intro opaquePrev opaquePixels i hi r g b a
    obtain ⟨opaquePx, opaqueRest⟩ := List.forall_mem_cons.1 opaquePixels
    rw [bodyRecords_cons, List.mem_append] at hi
    rcases hi with now | later
    · rcases mem_encodeStep now with rfl | ⟨-, rfl⟩ | rfl | rfl
      · exact Instr.noConfusion
      · exact Instr.noConfusion
      · exact Instr.noConfusion
      · exact missRecord_not_rgba wrap (opaquePx.trans opaquePrev.symm) r g b a
    · exact ih _ (by rw [encodeStep_prev]; exact opaquePx) opaqueRest i later r g b a

/-! ### The body step of the machine -/

theorem accepts_mono {m n : Nat} (hmn : m ≤ n) {s : State} (h : accepts n s) : accepts m s :=
  fun a ha => h a ((List.take_sublist_take_left hmn).subset ha)

/-- A Writer that takes every chunk of the step: the records are handed over and the pixel counted (R192). -/
theorem encodePixel_of_accepts {s : State} {px : Pixel} {records : List Instr} {c : Codec} (hstep : stepOf s px = (records, c))
    (h : accepts records.length s) :
    encodePixel px s = pixelEncoded c (afterEmits records.length (bytesOf records) (takePixel s)) := by
  have emitted : emitRecords records (takePixel s) = .emitted (afterEmits records.length (bytesOf records) (takePixel s)) :=
    emitRecords_of_accepts h
  simp only [encodePixel, hstep, emitted]

/-- So the engine's turn in E_BODY, which goes to E_TRL after the last pixel (R192). -/
theorem engineTurn_of_accepts {s : State} {px : Pixel} {rest : List Pixel} {records : List Instr} {c : Codec} (hphase : s.phase = .eBody)
    (hsource : s.ports.source = px :: rest) (hstep : stepOf s px = (records, c)) (h : accepts records.length s) :
    engineTurn s = .next { afterEmits records.length (bytesOf records) (takePixel s) with
      codec := c, pxcnt := s.pxcnt + 1, phase := if s.pxcnt + 1 = s.pxtotal then .eTrl else .eBody } := by
  have phase : (afterEmits records.length (bytesOf records) (takePixel s)).phase = .eBody := hphase
  rw [engineTurn_eBody hphase hsource, encodePixel_of_accepts hstep h, pixelEncoded, phase]
  rfl

theorem bytesOf_append (is js : List Instr) : bytesOf (is ++ js) = bytesOf is ++ bytesOf js :=
  List.flatMap_append

theorem encode_run_byte {len : Nat} (hw : 1 ≤ len ∧ len ≤ 62) : encode (.run len) = [BitVec.ofNat 8 (0xC0 + (len - 1))] := by
  obtain ⟨b1, bytes, value⟩ := encode_run (wf_run.2 hw)
  rw [bytes, ← value, BitVec.ofNat_toNat, BitVec.setWidth_eq]

theorem bytesOf_flushRun {run : Nat} (h : run ≤ 61) :
    bytesOf (flushRun run) = if run = 0 then [] else [BitVec.ofNat 8 (0xC0 + (run - 1))] := by
  rw [flushRun_eq_ite]
  split
  · rfl
  · rw [bytesOf_singleton, encode_run_byte (by omega)]

/-- The step of a pixel other than `prev`, for a Writer that takes the flush and the record (R183, R192). -/
theorem engineTurn_of_flush {s : State} {px : Pixel} {rest : List Pixel} {i : Instr} {c : Codec} (hphase : s.phase = .eBody)
    (hsource : s.ports.source = px :: rest) (hrun : s.codec.run ≤ 61) (accepted : accepts 2 s)
    (hstep : stepOf s px = (flushRun s.codec.run ++ [i], c)) :
    ∃ n, engineTurn s = .next { afterEmits n
        ((if s.codec.run = 0 then [] else [BitVec.ofNat 8 (0xC0 + (s.codec.run - 1))]) ++ encode i) (takePixel s) with
      codec := c, pxcnt := s.pxcnt + 1, phase := if s.pxcnt + 1 = s.pxtotal then .eTrl else .eBody } := by
  have atMostTwo : (flushRun s.codec.run ++ [i]).length ≤ 2 := by
    rw [flushRun_eq_ite]
    split <;> simp
  refine ⟨(flushRun s.codec.run ++ [i]).length, ?_⟩
  rw [engineTurn_of_accepts hphase hsource hstep (accepts_mono atMostTwo accepted), bytesOf_append, bytesOf_flushRun hrun,
    bytesOf_singleton]

/-- Settles O51: the two outcomes of the run counter, and the RUN record as the step's first chunk. -/
theorem equalPixelIsCountedIntoTheRun : Obligations.EqualPixelIsCountedIntoTheRun := by
  intro s rest hphase hsource hrun
  have runEnds (ends : s.codec.run + 1 = 62 ∨ s.pxcnt + 1 = s.pxtotal) :
      stepOf s s.codec.prev = ([.run (s.codec.run + 1)], { s.codec with run := 0 }) :=
    encodeStep_of_run_end _ (ends.imp_right decide_eq_true)
  refine ⟨fun ends accepted => ?ends, fun short notLast => ?goesOn, fun n later ends failing => ?fails⟩
  case ends =>
    have byte : encode (.run (s.codec.run + 1)) = [BitVec.ofNat 8 (0xC0 + s.codec.run)] := encode_run_byte (by omega)
    rw [engineTurn_of_accepts hphase hsource (runEnds ends) accepted, bytesOf_singleton, byte]
    rfl
  case goesOn =>
    have counted : stepOf s s.codec.prev = ([], { s.codec with run := s.codec.run + 1 }) := by
      rw [stepOf, decide_eq_false notLast]
      exact encodeStep_of_run_on _ short
    have accepted : accepts 0 s := fun a ha => by cases ha
    rw [engineTurn_of_accepts hphase hsource counted accepted, if_neg notLast, ← hphase]
    rfl
  case fails =>
    have failingFirst : (takePixel s).ports.writerAnswers = .fail n :: later := failing
    have failed := emitRecords_of_fail failingFirst (.run (s.codec.run + 1)) []
    refine ⟨_, engineTurn_eBody hphase hsource, ?_⟩
    simp only [encodePixel, runEnds ends, failed]
    exact ⟨rfl, rfl, rfl, rfl⟩

/-- Settles O52: on a hit the step's record is INDEX of the pixel's own slot, one byte. -/
theorem cacheHitIsEmittedAsIndex : Obligations.CacheHitIsEmittedAsIndex := by
  intro s px rest hphase hsource new hit hrun accepted
  have byte : encode (.index (pixelHash px)) = [BitVec.ofNat 8 (pixelHash px).val] := by rw [encode, BitVec.zero_or]
  rw [← byte]
  exact engineTurn_of_flush hphase hsource hrun accepted (encodeStep_of_hit _ _ new hit)

/-- Settles O53: on a miss the step's record is chosen by the deltas, and the pixel's slot takes the pixel. -/
theorem cacheMissIsEmittedByTheDeltas : Obligations.CacheMissIsEmittedByTheDeltas := by
  intro s px rest hphase hsource new miss hrun accepted
  obtain ⟨n, turn⟩ := engineTurn_of_flush hphase hsource hrun accepted (encodeStep_of_miss _ _ new miss)
  exact ⟨_, n, _, turn, rfl, rfl, rfl, slotAt_cacheUpdate px s.codec, encode_missRecord _ px s.codec.prev⟩

end Sys2Proof.Machine
end

section
/-! The encoder family (42_encoder.md), second part: a whole encode pass, from the ENCODE command to DONE or to the Writer's failure (R15,
R204). -/

namespace Sys2Proof.Machine

/-! ### Runs of the machine -/

theorem run_succ_of_step {s t : State} (h : step s = .next t) (n : Nat) : Sys2Proof.core.run (n + 1) s = Sys2Proof.core.run n t := by
  have hcore : Sys2Proof.core.step s = .next t := h
  simp only [Host.Core.run, hcore]

/-! ### What is observed at the end of an encode pass -/

theorem statusWord_encode_done {s : State} (hphase : s.phase = .done) (enc : s.mode = .enc) : statusWord s = 0x702 := by
  simp [statusWord, busy, doneFlag, errFlag, modeFlag, hasMore, pixelReady, phaseCode, hphase, enc]

theorem statusWord_encode_err {s : State} (hphase : s.phase = .err) (enc : s.mode = .enc) : statusWord s = 0x804 := by
  simp [statusWord, busy, doneFlag, errFlag, modeFlag, hasMore, pixelReady, phaseCode, hphase, enc]

theorem observe_encode {start finish : State} {bytes : List Byte} (enc : finish.mode = .enc) (fromStart : start.ports.writerPos = 0)
    (writer : finish.ports.writer = Memory.ofBytes bytes) :
    observe start finish = .encode bytes (statusWord finish) (errWord finish) := by
  simp only [observe, enc, fromStart, writer, bytesFrom_ofBytes]

/-- Bytes written behind the stream of a list make the stream of the longer list. -/
theorem Memory.ofBytes_append (xs ys : List Byte) :
    Memory.ofBytes (xs ++ ys) = Memory.writeBytes (Memory.ofBytes xs) xs.length ys := by
  rw [Memory.ofBytes, Memory.writeBytes_append, Nat.zero_add, Memory.ofBytes]

/-! ### How far a pass has come, and how it ends -/

/-- A Writer none of whose coming answers is a failure takes any number of chunks. -/
theorem accepts_of_no_failure {s : State} (h : ¬ ∃ k, WriterAnswer.fail k ∈ s.ports.writerAnswers) (n : Nat) : accepts n s := by
  intro a ha
  cases a with
  | accept => rfl
  | fail k => exact absurd ⟨k, List.mem_of_mem_take ha⟩ h

/-- A step that hands over its records when they are accepted does so, or they fail at a Writer that had a failure to come. -/
theorem handsOver_or_fails {is : List Instr} {s t : State} {handsOver : Prop} (cases : handsOver ∨ EmitFailure is s t)
    (accepted : accepts is.length s → handsOver) :
    handsOver ∨ (EmitFailure is s t ∧ ∃ k, WriterAnswer.fail k ∈ s.ports.writerAnswers) := by
  by_cases failing : ∃ k, WriterAnswer.fail k ∈ s.ports.writerAnswers
  · exact cases.imp_right fun failed => ⟨failed, failing⟩
  · exact .inl (accepted (accepts_of_no_failure failing _))

/-- Between two steps of a pass at a Writer with this script: these bytes are written and counted, nothing has failed, and only the
engine moves. -/
structure PassWrote (script : List WriterAnswer) (bytes : List Byte) (s : State) : Prop where
  writer    : s.ports.writer = Memory.ofBytes bytes
  writerPos : s.ports.writerPos = bytes.length
  cur       : s.cur = bytes.length
  enc       : s.mode = .enc
  noErr     : s.err = none
  noTurns   : s.turns = []
  script    : s.ports.writerAnswers ⊆ script

/-- The pass is in DONE with this stream written and `total` pixels accepted. -/
structure WroteStream (stream : List Byte) (total : Nat) (t : State) : Prop where
  phase  : t.phase = .done
  noErr  : t.err = none
  enc    : t.mode = .enc
  writer : t.ports.writer = Memory.ofBytes stream
  cur    : t.cur = stream.length
  pxcnt  : t.pxcnt = total
  source : t.ports.source = []

/-- The pass is in ERR because the Writer failed, with the beginning of this stream written. -/
structure BrokeOff (script : List WriterAnswer) (stream : List Byte) (t : State) : Prop where
  phase   : t.phase = .err
  err     : t.err = some .writer
  enc     : t.mode = .enc
  failure : ∃ k, WriterAnswer.fail k ∈ script
  written : ∃ bytes, bytes <+: stream ∧ t.ports.writer = Memory.ofBytes bytes

/-- Run on from here, the pass ends in one of the two ways. -/
def PassEnds (script : List WriterAnswer) (stream : List Byte) (total : Nat) (s : State) : Prop :=
  ∃ n t, Sys2Proof.core.run n s = .next t ∧ (WroteStream stream total t ∨ BrokeOff script stream t)

section
variable {script : List WriterAnswer} {written stream : List Byte} {total : Nat} {s t : State}

theorem PassEnds.of_wrote (h : WroteStream stream total s) : PassEnds script stream total s := ⟨0, s, rfl, .inl h⟩

theorem PassEnds.of_brokeOff (h : BrokeOff script stream s) : PassEnds script stream total s := ⟨0, s, rfl, .inr h⟩

theorem PassEnds.of_step (hstep : step s = .next t) (h : PassEnds script stream total t) : PassEnds script stream total s := by
  obtain ⟨n, u, hrun, ends⟩ := h
  exact ⟨n + 1, u, (run_succ_of_step hstep n).trans hrun, ends⟩

theorem PassWrote.step_eq_engineTurn (h : PassWrote script written s) : step s = engineTurn s :=
  step_of_no_turns h.noTurns

/-- Chunks handed over join what is written. -/
theorem passWrote_afterEmits (h : PassWrote script written s) (n : Nat) (bytes : List Byte) :
    PassWrote script (written ++ bytes) (afterEmits n bytes s) := by
  obtain ⟨writer, writerPos, cur, enc, noErr, noTurns, answers⟩ := h
  refine ⟨?_, ?_, ?_, enc, noErr, noTurns, fun a ha => answers (List.mem_of_mem_drop ha)⟩
  · rw [afterEmits_writer, writer, writerPos, Memory.ofBytes_append]
  · rw [afterEmits_writerPos, writerPos, List.length_append]
  · rw [afterEmits_cur, cur, List.length_append]

theorem passWrote_takePixel (h : PassWrote script written s) : PassWrote script written (takePixel s) := by
  obtain ⟨writer, writerPos, cur, enc, noErr, noTurns, answers⟩ := h
  exact ⟨writer, writerPos, cur, enc, noErr, noTurns, answers⟩

/-- A failed emission leaves the beginning of whatever stream its records continue (R70, R285). -/
theorem PassWrote.brokeOff {is : List Instr} (h : PassWrote script written s) (hf : EmitFailure is s t)
    (failing : ∃ k, WriterAnswer.fail k ∈ s.ports.writerAnswers) (continues : written ++ bytesOf is <+: stream) :
    BrokeOff script stream t := by
  obtain ⟨cause, before, i, after, n, rfl, -, writer, -⟩ := hf.leaves_part
  obtain ⟨phase, mode⟩ : t.phase = .err ∧ t.mode = s.mode := by
    obtain ⟨_, _, _, _, -, rfl⟩ := hf
    exact ⟨rfl, rfl⟩
  refine ⟨phase, cause, mode.trans h.enc, failing.imp fun k hk => h.script hk, written ++ (bytesOf before ++ (encode i).take n), ?_, ?_⟩
  · have part : bytesOf before ++ (encode i).take n <+: bytesOf (before ++ i :: after) := by
      rw [bytesOf_append, List.prefix_append_right_inj]
      exact (List.take_prefix n (encode i)).trans (List.prefix_append _ (bytesOf after))
    exact ((List.prefix_append_right_inj written).2 part).trans continues
  · rw [writer, h.writer, h.writerPos, Memory.ofBytes_append]

/-! ### The three kinds of step -/

/-- From E_TRL with no run pending the pass ends with the trailer, or breaks off in it (R143). -/
theorem passEnds_of_eTrl (h : PassWrote script written s) (hphase : s.phase = .eTrl) (norun : s.codec.run = 0)
    (taken : s.ports.source = []) : PassEnds script (written ++ encode .trailer) s.pxcnt s := by
  have trailerOnly : flushRun s.codec.run ++ [.trailer] = [.trailer] := by rw [norun]; rfl
  have outcome := handsOver_or_fails (emitTrailer_cases s) (emitTrailer_of_accepts rfl)
  rw [trailerOnly, bytesOf_singleton] at outcome
  refine .of_step (h.step_eq_engineTurn.trans (engineTurn_eTrl hphase)) ?_
  rcases outcome with he | ⟨failed, failing⟩
  · obtain ⟨writer, -, cur, enc, noErr, -, -⟩ := passWrote_afterEmits h 1 (encode .trailer)
    rw [he]
    exact .of_wrote ⟨rfl, noErr, enc, writer, cur, rfl, taken⟩
  · exact .of_brokeOff (h.brokeOff failed failing (by rw [bytesOf_singleton]))

/-- The pass stands before these pixels, the last of its image: they are on offer, and behind them comes the trailer with no run pending. -/
structure StandsBefore (pixels : List Pixel) (s : State) : Prop where
  phase   : s.phase = if pixels = [] then .eTrl else .eBody
  flushed : pixels = [] → s.codec.run = 0
  source  : s.ports.source = pixels
  count   : s.pxcnt + pixels.length = s.pxtotal

section
variable {px : Pixel} {rest : List Pixel}

/-- The machine's counters tell the last pixel (R182). -/
theorem StandsBefore.last_iff (h : StandsBefore (px :: rest) s) : s.pxcnt + 1 = s.pxtotal ↔ rest = [] := by
  have count : s.pxcnt + (rest.length + 1) = s.pxtotal := h.count
  rw [← List.length_eq_zero_iff]
  omega

theorem StandsBefore.stepOf_eq (h : StandsBefore (px :: rest) s) :
    stepOf s px = encodeStep s.params.encDeltaWrap rest.isEmpty px s.codec := by
  have last : decide (s.pxcnt + 1 = s.pxtotal) = rest.isEmpty := by
    rw [Bool.eq_iff_iff, decide_eq_true_iff, List.isEmpty_iff, h.last_iff]
  rw [stepOf, last]

/-- An encoded pixel brings the pass before the next one, or to the trailer (R190, R192). -/
theorem standsBefore_pixelEncoded (h : StandsBefore (px :: rest) s) (n : Nat) (bytes : List Byte) :
    StandsBefore rest (pixelEncoded (stepOf s px).2 (afterEmits n bytes (takePixel s))) := by
  have body : s.phase = .eBody := h.phase
  have count : s.pxcnt + (rest.length + 1) = s.pxtotal := h.count
  refine ⟨?_, fun last => ?_, ?_, ?_⟩
  · simp only [pixelEncoded_phase, afterEmits_pxcnt, takePixel_pxcnt, afterEmits_pxtotal, takePixel_pxtotal, h.last_iff, afterEmits_phase,
      takePixel_phase, body]
  · rw [pixelEncoded_codec, h.stepOf_eq, last]
    exact encodeStep_last_run ..
  · rw [pixelEncoded_ports, afterEmits_source, takePixel_source, h.source, List.tail_cons]
  · rw [pixelEncoded_pxcnt, pixelEncoded_pxtotal, afterEmits_pxcnt, takePixel_pxcnt, afterEmits_pxtotal, takePixel_pxtotal]
    omega

end

/-- From before its pixels the pass ends with their records and the trailer, or breaks off in them (R204). -/
theorem passEnds_of_standsBefore {pixels : List Pixel} (h : PassWrote script written s) (hs : StandsBefore pixels s) :
    PassEnds script (written ++ bytesOf (bodyRecords s.params.encDeltaWrap s.codec pixels) ++ encode .trailer) s.pxtotal s := by
  induction pixels generalizing s written with
  | nil =>
    have ends := passEnds_of_eTrl h hs.phase (hs.flushed rfl) hs.source
    rw [← hs.count]
    simpa [bodyRecords, bytesOf] using ends
  | cons px rest ih =>
    have split : bytesOf (bodyRecords s.params.encDeltaWrap s.codec (px :: rest)) = bytesOf (stepOf s px).1 ++
        bytesOf (bodyRecords s.params.encDeltaWrap (stepOf s px).2 rest) := by
      rw [bodyRecords_cons, bytesOf_append, hs.stepOf_eq]
    rw [split, ← List.append_assoc]
    refine .of_step (h.step_eq_engineTurn.trans (engineTurn_eBody hs.phase hs.source)) ?_
    rcases handsOver_or_fails (encodePixel_cases px s) (encodePixel_of_accepts (px := px) rfl) with he | ⟨failed, failing⟩
    · obtain ⟨writer, writerPos, cur, enc, noErr, noTurns, answers⟩ :=
        passWrote_afterEmits (passWrote_takePixel h) (stepOf s px).1.length (bytesOf (stepOf s px).1)
      rw [he]
      exact ih ⟨writer, writerPos, cur, enc, noErr, noTurns, answers⟩ (standsBefore_pixelEncoded hs _ _)
    · refine .of_brokeOff ((passWrote_takePixel h).brokeOff failed failing ?_)
      rw [List.append_assoc]
      exact List.prefix_append _ _

/-- From E_HDR the pass ends with the whole stream, or breaks off in it (R142, R204). -/
theorem passEnds_of_eHdr {pixels : List Pixel} (h : PassWrote script [] s) (image : validImage s.latched pixels)
    (hphase : s.phase = .eHdr) (start : AtPassStart s) (source : s.ports.source = pixels) :
    PassEnds script (canonicalStream s.params.encDeltaWrap s.latched pixels) pixels.length s := by
  obtain ⟨legal, complete⟩ := image
  obtain ⟨-, cnt0, -, initial⟩ := start
  refine .of_step (h.step_eq_engineTurn.trans (engineTurn_eHdr hphase)) ?_
  rcases handsOver_or_fails (emitHeader_cases s) emitHeader_of_accepts with he | ⟨failed, failing⟩
  · have params : (emitHeader s).params = s.params := by rw [he]; rfl
    have codec : (emitHeader s).codec = Codec.initial := by rw [he]; exact initial
    have total : (emitHeader s).pxtotal = pixels.length := by rw [he]; exact complete.symm
    have wrote : PassWrote script (encode (headerRecord s.latched)) (emitHeader s) := by
      obtain ⟨writer, writerPos, cur, enc, noErr, noTurns, answers⟩ := passWrote_afterEmits h 1 (encode (headerRecord s.latched))
      rw [he]
      exact ⟨writer, writerPos, cur, enc, noErr, noTurns, answers⟩
    have before : StandsBefore pixels (emitHeader s) := by
      have nonempty : pixels ≠ [] := by
        rw [← List.length_pos_iff, complete]
        exact (pixelTotal_bounds legal).1
      have count : s.pxcnt + pixels.length = pixelTotal s.latched.width s.latched.height := by omega
      rw [he]
      exact ⟨(if_neg nonempty).symm, fun empty => absurd empty nonempty, source, count⟩
    have ends := passEnds_of_standsBefore wrote before
    rw [params, codec, total] at ends
    exact ends
  · refine .of_brokeOff (h.brokeOff failed failing ?_)
    rw [List.nil_append, bytesOf_singleton, canonicalStream, List.append_assoc]
    exact List.prefix_append _ _

end

/-! ### The command -/

/-- ENCODE of a legal descriptor latches it and opens the pass (R260). -/
theorem step_encodeLaunch {d : Descriptor} (legal : descriptorFault d.width d.height d.channels = none) (p : Params)
    (answers : List WriterAnswer) (pixels : List Pixel) :
    step (encodeLaunch p d answers pixels) =
      .next { encodeLaunch p d answers pixels with turns := [], latched := d, phase := .eHdr } := by
  have commanded : step (encodeLaunch p d answers pixels) = .next (startEncode { encodeLaunch p d answers pixels with turns := [] }) := rfl
  rw [commanded]
  rcases startEncode_cases { encodeLaunch p d answers pixels with turns := [] } with ⟨-, he⟩ | ⟨c, fault, -⟩
  · rw [he]; rfl
  · cases fault.symm.trans legal

theorem errWord_none {s : State} (h : s.err = none) : errWord s = 0 := by
  simp only [errWord, h]
  rfl

theorem errWord_writer {s : State} (h : s.err = some .writer) : errWord s = 0x13 := by
  simp only [errWord, h]
  rfl

/-- The pass that ENCODE opens has all its pixels before it and nothing written (R260, R320). -/
theorem passEnds_of_encodeLaunch {d : Descriptor} {pixels : List Pixel} (image : validImage d pixels) (p : Params)
    (answers : List WriterAnswer) :
    PassEnds answers (canonicalStream p.encDeltaWrap d pixels) pixels.length (encodeLaunch p d answers pixels) := by
  refine .of_step (step_encodeLaunch image.1 p answers pixels) ?_
  have wrote : PassWrote answers [] { encodeLaunch p d answers pixels with turns := [], latched := d, phase := .eHdr } :=
    ⟨rfl, rfl, rfl, rfl, rfl, rfl, List.Subset.refl _⟩
  have ends := passEnds_of_eHdr wrote image rfl ⟨rfl, rfl, rfl, rfl⟩ rfl
  exact ends

/-- Settles O59: from ENCODE on, each step writes its records behind what is written, until the trailer or the Writer's failure. -/
theorem encodePassWritesTheCanonicalStream : Obligations.EncodePassWritesTheCanonicalStream := by
  intro p d answers pixels image
  obtain ⟨n, t, hrun, wrote | broke⟩ := passEnds_of_encodeLaunch image p answers
  · obtain ⟨phase, noErr, enc, writer, cur, pxcnt, source⟩ := wrote
    refine ⟨n, t, hrun, .inl ⟨phase, noErr, writer, cur, pxcnt, source, ?_⟩⟩
    rw [observe_encode enc rfl writer, statusWord_encode_done phase enc, errWord_none noErr]
  · obtain ⟨phase, err, enc, failure, bytes, part, writer⟩ := broke
    refine ⟨n, t, hrun, .inr ⟨phase, err, failure, bytes, part, writer, ?_⟩⟩
    rw [observe_encode enc rfl writer, statusWord_encode_err phase enc, errWord_writer err]

end Sys2Proof.Machine
end

section
/-! The decoder family (43_decoder.md), first part: what each opcode yields and leaves (R222 to R229), and the body step with its errors
(R220, R221, R231). -/

namespace Sys2Proof.Machine

/-! ### One pixel yielded, nothing but the Codec State changed -/

theorem yields_yieldPixel (px : Pixel) (c : Codec) (s : State) : Yields px s (yieldPixel px { s with codec := c }) :=
  ⟨yieldPixel_sink .., yieldPixel_pxcnt .., yieldPixel_phase ..⟩

theorem opcodeFrame_yieldPixel (px : Pixel) (c : Codec) (s : State) : OpcodeFrame s (yieldPixel px { s with codec := c }) := by
  constructor <;> simp

/-- A pull of the sink being answered is no part of what a yield changes. -/
theorem yields_of_takePull {px : Pixel} {s t : State} (h : Yields px (takePull s) t) : Yields px s t :=
  ⟨h.sink, h.pxcnt, h.phase⟩

/-- What the common tail of INDEX, DIFF, LUMA, RGB and RGBA does, and all that it does (R229). -/
theorem reconstruct_completes (px : Pixel) (s : State) :
    Yields px s (reconstruct px s) ∧ (reconstruct px s).codec.prev = px ∧ (reconstruct px s).codec.run = s.codec.run ∧
      (∀ k : Fin 64, slotAt k (reconstruct px s).codec = if k = pixelHash px then px else slotAt k s.codec) ∧
      OpcodeFrame s (reconstruct px s) := by
  refine ⟨yields_yieldPixel .., ?_, ?_, slotAt_reconstruct px s, opcodeFrame_yieldPixel ..⟩
  · rw [reconstruct_codec]
  · rw [reconstruct_codec, cacheUpdate_run]

/-! ### RGB, RGBA and INDEX -/

/-- A tag byte with only part of its payload is rejected (R113, R221). -/
theorem decode_take_of_short {b1 : Byte} {payload : List Byte} {k : Nat} (tag : 1 ≤ k) (short : k < recordLength b1) :
    decode .body ((b1 :: payload).take k) = .error .truncatedPayload := by
  obtain ⟨m, rfl⟩ : ∃ m, k = m + 1 := ⟨k - 1, by omega⟩
  refine (decodeBody_short b1 (payload.take m)).1 ?_
  rw [List.length_cons, List.length_take]
  omega

theorem recordLength_rgb : recordLength 0xFE#8 = 4 := rfl

theorem recordLength_rgba : recordLength 0xFF#8 = 5 := rfl

/-- Settles O40: the common tail with the record's colour and the alpha of `prev`. -/
theorem rgbSetsColourAndKeepsAlpha : Obligations.RgbSetsColourAndKeepsAlpha := by
  intro r g b
  refine ⟨fun s => ⟨_, rfl, reconstruct_completes _ s⟩, decodeBody_of_rgb_tag r g b [], fun k tag short => ?_⟩
  exact decode_take_of_short tag (by rw [recordLength_rgb]; omega)

/-- Settles O41: the common tail with all four channels of the record. -/
theorem rgbaSetsAllChannels : Obligations.RgbaSetsAllChannels := by
  intro r g b a
  refine ⟨fun s => ⟨_, rfl, reconstruct_completes _ s⟩, decodeBody_of_rgba_tag r g b a [], fun k tag short => ?_⟩
  exact decode_take_of_short tag (by rw [recordLength_rgba]; omega)

theorem encode_index_byte (i : Fin 64) : encode (.index i) = [BitVec.ofNat 8 i.val] := by
  rw [encode, BitVec.zero_or]

/-- Settles O42: the common tail with what the slot holds. -/
theorem indexYieldsTheSlot : Obligations.IndexYieldsTheSlot := fun i =>
  ⟨fun s => ⟨_, exec_index i s, reconstruct_completes _ s⟩, decode_of_encode_eq (i := .index i) rfl (encode_index_byte i)⟩

/-! ### DIFF and LUMA -/

/-- A moved channel as arithmetic (R235). -/
theorem addDelta_toNat (channel : Byte) (delta : Int) : ((addDelta channel delta).toNat : Int) = (channel.toNat + delta) % 256 := by
  rw [addDelta, BitVec.toNat_ofInt]
  omega

/-- Settles O43: the common tail with `prev` moved by the three deltas. -/
theorem diffMovesTheChannels : Obligations.DiffMovesTheChannels := fun dr dg db s =>
  ⟨_, shiftPixel s.codec.prev dr dg db, rfl, addDelta_toNat .., addDelta_toNat .., addDelta_toNat .., rfl, reconstruct_completes _ s⟩

/-- Settles O44: the common tail with `prev` moved by dg and, red and blue, by their cross-deltas as well. -/
theorem lumaMovesTheChannels : Obligations.LumaMovesTheChannels := fun dg drg dbg s =>
  ⟨_, shiftPixel s.codec.prev (dg + drg) dg (dg + dbg), rfl, addDelta_toNat .., addDelta_toNat .., addDelta_toNat .., rfl,
    reconstruct_completes _ s⟩

/-! ### RUN -/

/-- The Codec State after the one cache write a RUN byte may make (R228). -/
def refreshed (s : State) : Codec := if s.params.runCacheRefresh then cacheUpdate s.codec.prev s.codec else s.codec

theorem refreshed_prev (s : State) : (refreshed s).prev = s.codec.prev := by
  unfold refreshed
  split <;> rfl

theorem slotAt_refreshed (k : Fin 64) (s : State) :
    slotAt k (refreshed s) =
      if s.params.runCacheRefresh = true ∧ k = pixelHash s.codec.prev then s.codec.prev else slotAt k s.codec := by
  unfold refreshed
  split
  · next on => simp only [slotAt_cacheUpdate, on, true_and]
  · next off => rw [if_neg fun h => off h.1]

/-- RUN repeats `prev` once and owes the rest (R228). -/
theorem exec_run (len : Nat) (s : State) :
    exec (.run len) s = .next (yieldPixel s.codec.prev { s with codec := { refreshed s with run := len - 1 } }) := by
  rw [← refreshed_prev s]
  rfl

theorem reYield_eq (s : State) : reYield s = yieldPixel s.codec.prev { s with codec := { s.codec with run := s.codec.run - 1 } } := rfl

/-- Settles O45: one repeat of `prev`, the refresh apart from the run length, and the byte `0xC0 + n`. -/
theorem runRepeatsThePreviousPixel : Obligations.RunRepeatsThePreviousPixel := by
  intro n s hn
  refine ⟨⟨_, exec_run (n + 1) s, yields_yieldPixel .., ?_, ?_, fun k => ?_, opcodeFrame_yieldPixel ..⟩, ?_⟩
  · rw [yieldPixel_codec]
    exact refreshed_prev s
  · rw [yieldPixel_codec]
    rfl
  · rw [yieldPixel_codec]
    exact slotAt_refreshed k s
  · exact decode_of_encode_eq (i := .run (n + 1)) (wf_run.2 (by omega)) (encode_run_byte (by omega))

/-! ### The body step -/

/-- With a run left the body step is a repeat of `prev` (R222). -/
theorem engineTurn_dBody_of_run {s : State} (hphase : s.phase = .dBody) (hpulls : s.ports.pulls ≠ 0) (hrun : 0 < s.codec.run) :
    engineTurn s = .next (reYield (takePull s)) := by
  have pending : 0 < (takePull s).codec.run := hrun
  rw [engineTurn_dBody hphase hpulls, decodeBodyStep, if_pos pending]

/-- With no run left the body step fetches an opcode (R220). -/
theorem engineTurn_dBody_of_no_run {s : State} (hphase : s.phase = .dBody) (hpulls : s.ports.pulls ≠ 0) (norun : s.codec.run = 0) :
    engineTurn s = decodeOpcode (takePull s) := by
  have nothingOwed : (takePull s).codec.run = 0 := norun
  rw [engineTurn_dBody hphase hpulls, decodeBodyStep_of_no_run nothingOwed]

/-- Settles O46: the repeat is a yield of `prev` that touches the run length alone. -/
theorem runIsReYieldedWithoutReading : Obligations.RunIsReYieldedWithoutReading := by
  intro s hphase hpulls hrun
  exact ⟨_, engineTurn_dBody_of_run hphase hpulls hrun, yields_of_takePull (yields_yieldPixel ..), reYield_codec (takePull s),
    reYield_pulls (takePull s), opcodeFrame_yieldPixel ..⟩

/-- No tag byte: the fetch raises at once (R221). -/
theorem decodeOpcode_of_no_tag {why : ReaderStop} {s t : State} (h : nextByte s = .stopped why t) :
    decodeOpcode s = .next (raiseError (stopCause .truncatedBody why) t) := by
  simp only [decodeOpcode, pullBytes, h]

/-- A payload byte missing: the fetch raises with the tag and the bytes before the missing one counted (R221). -/
theorem decodeOpcode_of_short_payload {b1 : Byte} {payload : List Byte} {why : ReaderStop} {s t : State}
    (hserves : serves (b1 :: payload) s) (hlen : (b1 :: payload).length < recordLength b1)
    (hstop : nextByte (afterPulls (b1 :: payload).length s) = .stopped why t) :
    decodeOpcode s = .next (raiseError (stopCause .truncatedPayload why) t) := by
  obtain ⟨htag, hpayload⟩ := serves_append (xs := [b1]) hserves
  have pullTag : pullBytes 1 s = .got [b1] (afterPulls 1 s) := pullBytes_of_serves htag
  have pullPayload : pullBytes (recordLength b1 - 1) (afterPulls 1 s) = .stopped why t := by
    rw [List.length_cons, ← afterPulls_succ] at hstop
    exact pullBytes_of_stop hpayload (by rw [List.length_cons] at hlen; omega) hstop
  simp only [decodeOpcode, pullTag, List.headD_cons, pullPayload]

/-- Settles O48: the fetch stops at the tag or in the payload, before the record could touch anything; a repeat does not fetch. -/
theorem truncatedOpcodeRaises : Obligations.TruncatedOpcodeRaises := by
  intro s hphase hpulls
  refine ⟨fun norun ends => ?tag, fun b1 payload norun hlen ends => ?payload, fun bytes norun hlen fails => ?failure, fun hrun => ?rep⟩
  case tag =>
    have stop := nextByte_of_servesThenEnds (s := takePull s) ends
    exact ⟨_, (engineTurn_dBody_of_no_run hphase hpulls norun).trans (decodeOpcode_of_no_tag stop), rfl, rfl, rfl, rfl, rfl, rfl⟩
  case payload =>
    have stop := nextByte_of_servesThenEnds (s := takePull s) ends
    exact ⟨_, (engineTurn_dBody_of_no_run hphase hpulls norun).trans (decodeOpcode_of_short_payload ends.1 hlen stop),
      rfl, rfl, rfl, rfl, rfl, rfl⟩
  case failure =>
    have stop := nextByte_of_servesThenFails (s := takePull s) fails
    have fetch := engineTurn_dBody_of_no_run hphase hpulls norun
    cases bytes with
    | nil => exact ⟨_, fetch.trans (decodeOpcode_of_no_tag stop), rfl, rfl, rfl, rfl, rfl, rfl⟩
    | cons b1 payload => exact ⟨_, fetch.trans (decodeOpcode_of_short_payload fails.1 hlen stop), rfl, rfl, rfl, rfl, rfl, rfl⟩
  case rep => exact ⟨_, engineTurn_dBody_of_run hphase hpulls hrun, reYield_cur (takePull s), reYield_readerPos (takePull s)⟩

/-- Every body step raises, or pulls a record or nothing and yields one pixel (R220, R221, R231). -/
theorem engineTurn_dBody_cases {s : State} (hphase : s.phase = .dBody) (hpulls : s.ports.pulls ≠ 0) :
    (∃ c why k, engineTurn s = .next (raiseError c (stopReader why (afterPulls k (takePull s))))) ∨
    ∃ px k c, engineTurn s = .next (yieldPixel px { afterPulls k (takePull s) with codec := c }) := by
  by_cases hrun : 0 < s.codec.run
  · exact .inr ⟨_, 0, _, engineTurn_dBody_of_run hphase hpulls hrun⟩
  · rw [engineTurn_dBody_of_no_run hphase hpulls (by omega)]
    rcases decodeOpcode_cases (takePull s) with ⟨k, c, why, -, hd⟩ | ⟨i, k, -, -, -, hi, hd⟩
    · exact .inl ⟨c, why, k, hd⟩
    · obtain ⟨px, c, he, -⟩ := exec_body hi (afterPulls k (takePull s))
      exact .inr ⟨px, k, c, hd.trans he⟩

/-- Settles O49: the step that does not raise is one yield, and the count decides the phase. -/
theorem eachBodyStepYieldsOnePixel : Obligations.EachBodyStepYieldsOnePixel := by
  intro s t hphase hpulls ht hok
  obtain ⟨cnt, total, next⟩ := engineTurn_dBody_phase hphase hpulls ht hok
  have sink : ∃ px, t.ports.sink = s.ports.sink ++ [px] := by
    rcases engineTurn_dBody_cases hphase hpulls with ⟨c, why, k, he⟩ | ⟨px, k, c, he⟩ <;> cases he.symm.trans ht
    · exact absurd rfl hok
    · exact ⟨px, yieldPixel_sink ..⟩
  have leaves : t.pxcnt = t.pxtotal ↔ t.phase ≠ .dBody := by
    rw [cnt, total, next]
    by_cases last : s.pxcnt + 1 = s.pxtotal
    · cases s.params.strictTrailer <;> simp [last]
    · simp [last]
  refine ⟨sink, cnt, leaves, fun complete => ?_⟩
  exact decide_eq_false fun more => leaves.1 complete more.1

end Sys2Proof.Machine
end

section
/-! The decoder family (43_decoder.md), second part: a decode pass over any bytes ends (R231, R239, R292). -/

namespace Sys2Proof.Machine

/-! ### Counting the steps of a pass -/

/-- After `taken` steps of the pass it ends from here on within `pxtotal` + 3 steps in all, and if well with every pixel yielded. -/
def EndsInTime (taken : Nat) (s : State) : Prop :=
  ∃ n t, Sys2Proof.core.run n s = .next t ∧ (t.phase = .done ∨ t.phase = .err) ∧ taken + n ≤ t.pxtotal + 3 ∧
    (t.phase = .done → t.ports.sink.length = t.pxtotal)

section
variable {taken : Nat} {s t : State}

theorem EndsInTime.of_step (hstep : step s = .next t) (h : EndsInTime (taken + 1) t) : EndsInTime taken s := by
  obtain ⟨n, u, hrun, ended, inTime, yielded⟩ := h
  exact ⟨n + 1, u, (run_succ_of_step hstep n).trans hrun, ended, by omega, yielded⟩

theorem EndsInTime.of_done (hphase : s.phase = .done) (inTime : taken ≤ s.pxtotal + 3) (yielded : s.ports.sink.length = s.pxtotal) :
    EndsInTime taken s :=
  ⟨0, s, rfl, .inl hphase, inTime, fun _ => yielded⟩

theorem EndsInTime.of_err (hphase : s.phase = .err) (inTime : taken ≤ s.pxtotal + 3) : EndsInTime taken s :=
  ⟨0, s, rfl, .inr hphase, inTime, fun hdone => by cases hphase.symm.trans hdone⟩

/-! ### From the last phase back to the first -/

/-- The trailer's check is one step, whatever it finds (R147). -/
theorem endsInTime_of_dTrl (noTurns : s.turns = []) (hphase : s.phase = .dTrl) (inTime : taken ≤ s.pxtotal + 2)
    (yielded : s.ports.sink.length = s.pxtotal) : EndsInTime taken s := by
  obtain ⟨t, ht, outcome⟩ := checkTrailer_cases Config.trailerBytes s
  refine .of_step ((step_of_no_turns noTurns).trans ((engineTurn_dTrl hphase).trans ht)) ?_
  rcases outcome with ⟨k, c, why, -, rfl⟩ | ⟨k, -, rfl⟩ | rfl
  · exact .of_err rfl (Nat.succ_le_succ inTime)
  · exact .of_err rfl (Nat.succ_le_succ inTime)
  · exact .of_done rfl (Nat.succ_le_succ inTime) yielded

/-- Only the engine moves; `due` pixels are still to come, each with a pull waiting for it, and every earlier one has been yielded. -/
structure AwaitsPixels (due : Nat) (s : State) : Prop where
  noTurns : s.turns = []
  yielded : s.ports.sink.length = s.pxcnt
  count   : s.pxcnt + due = s.pxtotal
  pulls   : due ≤ s.ports.pulls
  phase   : s.phase = if due = 0 then (if s.params.strictTrailer then .dTrl else .done) else .dBody

/-- A yield that answers a pull leaves one pixel fewer to come (R231). -/
theorem awaitsPixels_yieldPixel {due : Nat} (h : AwaitsPixels (due + 1) s) (px : Pixel) (k : Nat) (c : Codec) :
    AwaitsPixels due (yieldPixel px { afterPulls k (takePull s) with codec := c }) := by
  obtain ⟨noTurns, yielded, count, pulls, phase⟩ := h
  have body : s.phase = .dBody := phase
  have last : s.pxcnt + 1 = s.pxtotal ↔ due = 0 := by omega
  refine ⟨?_, ?_, ?_, ?_, ?_⟩
  · rw [yieldPixel_turns]; exact noTurns
  · simp [yielded]
  · simp only [yieldPixel_pxcnt, yieldPixel_pxtotal, afterPulls_pxcnt, afterPulls_pxtotal, takePull_pxcnt, takePull_pxtotal]
    omega
  · simp only [yieldPixel_pulls, afterPulls_pulls, takePull_pulls]
    omega
  · simp only [yieldPixel_phase, yieldPixel_params, afterPulls_pxcnt, afterPulls_pxtotal, afterPulls_params, afterPulls_phase,
      takePull_pxcnt, takePull_pxtotal, takePull_params, takePull_phase, body, last]

/-- The body takes one step for each pixel still to come, unless one raises. -/
theorem endsInTime_of_awaitsPixels {due : Nat} (h : AwaitsPixels due s) : EndsInTime (s.pxcnt + 2) s := by
  induction due generalizing s with
  | zero =>
    obtain ⟨noTurns, yielded, count, -, phase⟩ := h
    rw [if_pos rfl] at phase
    split at phase
    · exact endsInTime_of_dTrl noTurns phase (by omega) (by omega)
    · exact .of_done phase (by omega) (by omega)
  | succ due ih =>
    have next := awaitsPixels_yieldPixel h
    obtain ⟨noTurns, -, count, pulls, phase⟩ := h
    have body : s.phase = .dBody := phase
    have waiting : s.ports.pulls ≠ 0 := by omega
    rcases engineTurn_dBody_cases body waiting with ⟨c, why, k, he⟩ | ⟨px, k, c, he⟩
    · have inTime : s.pxcnt + 3 ≤ s.pxtotal + 3 := by omega
      exact .of_step ((step_of_no_turns noTurns).trans he) (.of_err rfl inTime)
    · have later := ih (next px k c)
      rw [yieldPixel_pxcnt] at later
      exact .of_step ((step_of_no_turns noTurns).trans he) later

/-- The header is one step: it raises, or leaves as many pixels to come as its dimensions give (R145, R146). -/
theorem endsInTime_of_dHdr (noTurns : s.turns = []) (hphase : s.phase = .dHdr) (cnt0 : s.pxcnt = 0) (nothing : s.ports.sink = [])
    (pulls : (2 ^ 32 - 1) * (2 ^ 32 - 1) ≤ s.ports.pulls) : EndsInTime 1 s := by
  obtain ⟨t, ht, outcome⟩ := decodeHeaderStep_cases s
  refine .of_step ((step_of_no_turns noTurns).trans ((engineTurn_dHdr hphase).trans ht)) ?_
  rcases outcome with ⟨k, c, why, -, rfl⟩ | ⟨c, rfl⟩ | ⟨w, l, c, sp, legal, rfl⟩
  · exact .of_err rfl (by omega)
  · exact .of_err rfl (by omega)
  · obtain ⟨positive, bounded⟩ := pixelTotal_bounds (headerFault_none legal)
    have awaits : AwaitsPixels (pixelTotal w l) (acceptHeader w l c sp (afterPulls 14 s)) := by
      refine ⟨noTurns, ?_, ?_, Nat.le_trans bounded pulls, (if_neg (by omega)).symm⟩
      · simp [nothing, cnt0]
      · simp [cnt0]
    have ends := endsInTime_of_awaitsPixels awaits
    rw [acceptHeader_pxcnt, afterPulls_pxcnt, cnt0] at ends
    exact ends

end

/-- DECODE opens the pass with everything at its pass-start value (R261, R320). -/
theorem step_decodeLaunch (p : Params) (bytes : List Byte) (answers : List ReaderAnswer) (n : Nat) :
    step (decodeLaunch p bytes answers n) = .next { decodeLaunch p bytes answers n with turns := [], mode := .dec, phase := .dHdr } :=
  rfl

/-- Settles O50: the command, the header, one step for each pixel and the trailer, each of which may raise instead. -/
theorem everyDecodePassEnds : Obligations.EveryDecodePassEnds := by
  intro p bytes answers
  obtain ⟨n, t, hrun, ended, inTime, yielded⟩ : EndsInTime 0 (decodeLaunch p bytes answers ((2 ^ 32 - 1) * (2 ^ 32 - 1))) :=
    .of_step (step_decodeLaunch p bytes answers _) (endsInTime_of_dHdr rfl rfl rfl rfl (Nat.le_refl _))
  exact ⟨n, t, hrun, ended, by omega, yielded⟩

end Sys2Proof.Machine
end

section
/-! The decoder family (43_decoder.md), third part: the record the encoder chooses gives the decoder the pixel back (R234 to R236). -/

namespace Sys2Proof.Machine

/-! ### A delta moves the channel back -/

/-- Wrapping a difference does not change it mod 256 (R185). -/
theorem difference_emod (wrap : Bool) (v : Int) : difference wrap v % 256 = v % 256 := by
  cases wrap
  · rfl
  · show wrap8 v % 256 = v % 256
    rw [wrap8_eq]
    split <;> omega

/-- A delta that is the distance to a byte mod 256 moves the channel to that byte (R235). -/
theorem addDelta_of_emod {channel target : Byte} {delta : Int} (h : delta % 256 = ((target.toNat : Int) - channel.toNat) % 256) :
    addDelta channel delta = target := by
  have moved := addDelta_toNat channel delta
  have bound := target.isLt
  exact byte_ext (by omega)

/-- The DIFF deltas lead from `prev` to the pixel, whatever the setting of `ENC_DELTA_WRAP`. -/
theorem shiftPixel_deltas {px prev : Pixel} (wrap : Bool) (same : px.a = prev.a) :
    shiftPixel prev (deltas wrap px prev).dr (deltas wrap px prev).dg (deltas wrap px prev).db = px := by
  simp only [shiftPixel, deltas, addDelta_of_emod (difference_emod _ _), ← same]

/-- So do the LUMA deltas: a cross-delta and the green delta give the channel's own delta back mod 256. -/
theorem shiftPixel_crossDeltas {px prev : Pixel} (wrap : Bool) (same : px.a = prev.a) :
    shiftPixel prev ((deltas wrap px prev).dg + (deltas wrap px prev).drg) (deltas wrap px prev).dg
      ((deltas wrap px prev).dg + (deltas wrap px prev).dbg) = px := by
  have cross (v w : Int) : (difference wrap w + difference wrap (difference wrap v - difference wrap w)) % 256 = v % 256 := by
    have inner := difference_emod wrap (difference wrap v - difference wrap w)
    have outer := difference_emod wrap v
    omega
  simp only [shiftPixel, deltas, addDelta_of_emod (difference_emod _ _), addDelta_of_emod (cross _ _), ← same]

/-- The record of a miss, executed by a decoder with the same `prev`, reconstructs the pixel. -/
theorem exec_missRecord (wrap : Bool) (px : Pixel) (s : State) :
    exec (missRecord wrap px s.codec.prev) s = .next (reconstruct px s) := by
  by_cases same : px.a = s.codec.prev.a
  · rw [missRecord_of_same_alpha wrap same]
    split
    · rw [exec, execDiff, shiftPixel_deltas wrap same]
    · split
      · rw [exec, execLuma, shiftPixel_crossDeltas wrap same]
      · rw [exec, execRgb, ← same]
  · rw [missRecord_of_alpha wrap same]
    rfl

/-! ### The caches of the two directions -/

theorem pixelHash_prevInit : pixelHash Config.prevInit = 53 := rfl

/-- A pixel in its slot of the encoder's cache is in the decoder's: the one slot where they may differ is untouched, and the untouched
value does not hash to it (R236). -/
theorem slotAt_of_cachesAgree {enc dec : Codec} (h : CachesAgree enc dec) {px : Pixel} (hit : slotAt (pixelHash px) enc = px) :
    slotAt (pixelHash px) dec = px := by
  rcases h (pixelHash px) with same | ⟨slot53, untouched, -⟩
  · rw [same, hit]
  · rw [hit.symm.trans untouched, pixelHash_slotInit, pixelHash_prevInit] at slot53
    exact absurd slot53 (by decide)

/-- Writing the same pixel on both sides keeps the agreement. -/
theorem cachesAgree_cacheUpdate {enc dec : Codec} (h : CachesAgree enc dec) (px : Pixel) :
    CachesAgree (cacheUpdate px enc) (cacheUpdate px dec) := by
  intro k
  rw [slotAt_cacheUpdate, slotAt_cacheUpdate]
  split
  · exact .inl rfl
  · exact h k

/-- The record chosen for a pixel other than `prev`, after the flush of a pending run: it is an opcode that gives a decoder with the
same `prev` and an agreeing cache the pixel, and leaves the caches agreeing (R234). -/
theorem chosenRecord (wrap last : Bool) {px : Pixel} {c : Codec} (new : px ≠ c.prev) :
    ∃ i, (encodeStep wrap last px c).1 = flushRun c.run ++ [i] ∧ i.wellFormed = true ∧ i.position = .body ∧
      ∀ s : State, s.codec.prev = c.prev → CachesAgree c s.codec →
        exec i s = .next (reconstruct px s) ∧ CachesAgree (encodeStep wrap last px c).2 (reconstruct px s).codec := by
  by_cases hit : slotAt (pixelHash px) c = px
  · rw [encodeStep_of_hit wrap last new hit]
    refine ⟨_, rfl, rfl, rfl, fun s _ agree => ?_⟩
    have found := slotAt_of_cachesAgree agree hit
    refine ⟨by rw [exec_index, found], fun k => ?_⟩
    rw [reconstruct_codec]
    have unchanged : slotAt k { cacheUpdate px s.codec with prev := px } = slotAt k s.codec := cacheUpdate_of_hit found k
    rw [unchanged]
    exact agree k
  · rw [encodeStep_of_miss wrap last new hit]
    obtain ⟨wellFormed, body⟩ := missRecord_wellFormed wrap px c.prev
    refine ⟨_, rfl, wellFormed, body, fun s samePrev agree => ?_⟩
    refine ⟨by rw [← samePrev, exec_missRecord], ?_⟩
    rw [reconstruct_codec]
    exact cachesAgree_cacheUpdate agree px

/-- No run is pending after a pixel other than `prev` (R183). -/
theorem encodeStep_run_of_new (wrap last : Bool) {px : Pixel} {c : Codec} (new : px ≠ c.prev) :
    (encodeStep wrap last px c).2.run = 0 := by
  by_cases hit : slotAt (pixelHash px) c = px
  · rw [encodeStep_of_hit wrap last new hit]
  · rw [encodeStep_of_miss wrap last new hit]

/-- Settles O58: with no run pending the chosen record is the only one, and it is a reconstruction of the pixel. -/
theorem chosenRecordReconstructsThePixel : Obligations.ChosenRecordReconstructsThePixel := by
  intro last px c s wrap new norun samePrev norunDec agree
  obtain ⟨i, records, -, -, executes⟩ := chosenRecord wrap last new
  obtain ⟨next, agreeAfter⟩ := executes s samePrev agree
  obtain ⟨yields, prev, run, -, -⟩ := reconstruct_completes px s
  rw [norun] at records
  exact ⟨i, _, records, next, yields, prev.trans (encodeStep_prev ..).symm, run.trans norunDec, agreeAfter⟩

end Sys2Proof.Machine
end

section
/-! The decoder family (43_decoder.md), fourth part: a decode pass over the stream of an encode pass yields the image again (R15, R234). -/

namespace Sys2Proof.Machine

/-! ### Runs of the machine, without their length -/

/-- One step of the machine leads from the first state to the second. -/
def StepsTo (s t : State) : Prop := step s = .next t

/-- Some number of steps does. -/
abbrev Reaches : State → State → Prop := Relation.ReflTransGen StepsTo

theorem run_of_reaches {s t : State} (h : Reaches s t) : ∃ n, Sys2Proof.core.run n s = .next t := by
  induction h using Relation.ReflTransGen.head_induction_on with
  | refl => exact ⟨0, rfl⟩
  | head first _ ih =>
    obtain ⟨n, hrun⟩ := ih
    exact ⟨n + 1, (run_succ_of_step first n).trans hrun⟩

/-! ### Where a decode pass stands in its stream -/

/-- What stays the same along a decode pass: the engine's parameters, the descriptor it has accepted, the pixels it is to yield, and the
length of the stream. -/
structure DecodePass where
  params : Params
  desc   : Descriptor
  image  : List Pixel
  length : Nat

/-- The pass stands before these bytes, which the Reader will serve, and before these pixels, each with a pull waiting for it: everything
ahead of them has been consumed and yielded, nothing has failed, and only the engine moves. -/
structure DecodesFrom (pass : DecodePass) (bytes : List Byte) (pixels : List Pixel) (s : State) : Prop where
  params  : s.params = pass.params
  desc    : s.desc = pass.desc
  noErr   : s.err = none
  dec     : s.mode = .dec
  noTurns : s.turns = []
  served  : serves bytes s
  cur     : s.cur + bytes.length = pass.length
  yielded : s.ports.sink ++ pixels = pass.image
  count   : s.pxcnt = s.ports.sink.length
  total   : s.pxtotal = pass.image.length
  pulls   : s.ports.pulls = pixels.length
  phase   : s.phase = if pixels = [] then (if pass.params.strictTrailer then .dTrl else .done) else .dBody

/-- The pass is in DONE with its image yielded, and the trailer consumed if it was checked. -/
structure Decoded (pass : DecodePass) (t : State) : Prop where
  phase : t.phase = .done
  noErr : t.err = none
  dec   : t.mode = .dec
  desc  : t.desc = pass.desc
  total : t.pxtotal = pass.image.length
  sink  : t.ports.sink = pass.image
  cur   : t.cur = pass.length - if pass.params.strictTrailer then 0 else 8

section
variable {pass : DecodePass} {bytes later : List Byte} {px : Pixel} {rest : List Pixel} {s : State}

theorem DecodesFrom.step_eq_engineTurn {pixels : List Pixel} (h : DecodesFrom pass bytes pixels s) : step s = engineTurn s :=
  step_of_no_turns h.noTurns

theorem DecodesFrom.pulls_ne_zero (h : DecodesFrom pass bytes (px :: rest) s) : s.ports.pulls ≠ 0 := by
  rw [h.pulls]
  exact Nat.succ_ne_zero _

/-- Whether a pixel is the last of the image shows in the counters (R231). -/
theorem DecodesFrom.last_iff (h : DecodesFrom pass bytes (px :: rest) s) : s.pxcnt + 1 = s.pxtotal ↔ rest = [] := by
  have length := congrArg List.length h.yielded
  rw [List.length_append, List.length_cons] at length
  rw [h.count, h.total, ← List.length_eq_zero_iff]
  omega

/-- A body step that consumes the first of these bytes and yields the first of these pixels brings the pass before the others. -/
theorem decodesFrom_yieldPixel {consumed : List Byte} (h : DecodesFrom pass (consumed ++ later) (px :: rest) s) (c : Codec) :
    DecodesFrom pass later rest (yieldPixel px { afterPulls consumed.length (takePull s) with codec := c }) := by
  have last := h.last_iff
  obtain ⟨params, desc, noErr, dec, noTurns, served, cur, yielded, count, total, pulls, phase⟩ := h
  have body : s.phase = .dBody := phase
  have servedLater : serves later (afterPulls consumed.length (takePull s)) := (serves_append (serves_takePull served)).2
  constructor
  case served => simpa [serves] using servedLater
  case cur => simpa [Nat.add_assoc] using cur
  case yielded => simpa using yielded
  case count => simp [count]
  case total => simpa using total
  case pulls => simp [pulls]
  case phase => simp [yieldPixel_phase, last, body, params]
  all_goals simpa

end

/-- Behind the last pixel the pass is done, or the trailer is checked and then it is (R147). -/
theorem decoded_of_trailer {pass : DecodePass} {s : State} (h : DecodesFrom pass Config.trailerBytes [] s) :
    ∃ t, Reaches s t ∧ Decoded pass t := by
  have turn := h.step_eq_engineTurn
  obtain ⟨params, desc, noErr, dec, -, served, cur, yielded, -, total, -, phase⟩ := h
  rw [List.append_nil] at yielded
  rw [if_pos rfl] at phase
  cases strict : pass.params.strictTrailer
  · rw [strict] at phase
    refine ⟨s, .refl, phase, noErr, dec, desc, total, yielded, ?_⟩
    rw [strict, ← cur]
    rfl
  · rw [strict] at phase
    have checked := (engineTurn_dTrl phase).trans (checkTrailer_of_serves served)
    refine ⟨_, .single (turn.trans checked), rfl, noErr, dec, desc, total, yielded, ?_⟩
    rw [strict]
    exact cur

/-! ### The Codec States of the two directions -/

/-- `prev` stands in its slot, or is the pass-start pixel with its slot still untouched (R236). -/
def PrevCached (c : Codec) : Prop :=
  slotAt (pixelHash c.prev) c = c.prev ∨ (c.prev = Config.prevInit ∧ slotAt (pixelHash c.prev) c = Config.slotInit)

/-- The decoder has caught up with the encoder, but for the run the encoder has pending. -/
structure CodecsAgree (enc dec : Codec) : Prop where
  prev   : dec.prev = enc.prev
  norun  : dec.run = 0
  caches : CachesAgree enc dec
  cached : PrevCached enc

theorem codecsAgree_initial : CodecsAgree Codec.initial Codec.initial :=
  ⟨rfl, rfl, fun _ => .inl rfl, .inr ⟨rfl, slotAt_initial _⟩⟩

/-- The encoder's pending run is no part of the agreement. -/
theorem CodecsAgree.withRun {enc dec : Codec} (h : CodecsAgree enc dec) (n : Nat) : CodecsAgree { enc with run := n } dec :=
  ⟨h.prev, h.norun, h.caches, h.cached⟩

/-- The refresh of a RUN byte writes what the encoder's slot holds, or the pass-start pixel into the one slot excepted (R236). -/
theorem cachesAgree_refreshed {enc : Codec} {s : State} (prev : s.codec.prev = enc.prev) (caches : CachesAgree enc s.codec)
    (cached : PrevCached enc) : CachesAgree enc (refreshed s) := by
  intro k
  rw [slotAt_refreshed, prev]
  split
  · next refresh =>
    rw [refresh.2]
    rcases cached with own | ⟨start, untouched⟩
    · exact .inl own.symm
    · exact .inr ⟨by rw [start], untouched, start⟩
  · exact caches k

/-! ### Records and their pixels -/

/-- The pass comes to stand before these bytes and pixels, with the encoder's Codec State caught up with. -/
def CatchesUp (pass : DecodePass) (bytes : List Byte) (pixels : List Pixel) (c : Codec) (s : State) : Prop :=
  ∃ t, Reaches s t ∧ DecodesFrom pass bytes pixels t ∧ CodecsAgree c t.codec

section
variable {pass : DecodePass} {later : List Byte} {px : Pixel} {rest : List Pixel} {c : Codec} {s t : State}

theorem CatchesUp.of_step (first : step s = .next t) (h : CatchesUp pass later rest c t) : CatchesUp pass later rest c s := by
  obtain ⟨u, reaches, stands, agree⟩ := h
  exact ⟨u, .head first reaches, stands, agree⟩

/-- In the body, with no run left, the engine's turn runs the record it is served (R220). -/
theorem step_of_record {i : Instr} (h : DecodesFrom pass (encode i ++ later) (px :: rest) s) (norun : s.codec.run = 0)
    (hw : i.wellFormed = true) (hi : i.position = .body) : step s = exec i (afterPulls (encode i).length (takePull s)) := by
  have decodes : decode .body (encode i) = .ok (i, []) := hi ▸ decode_of_encode_eq hw rfl
  have served := (serves_append (serves_takePull h.served)).1
  rw [h.step_eq_engineTurn, engineTurn_dBody_of_no_run h.phase h.pulls_ne_zero norun, decodeOpcode_of_serves decodes served]

/-- A run left over is re-yielded to its end, and nothing but it stood against the agreement (R222). -/
theorem catchesUp_of_run_left {n : Nat} (h : DecodesFrom pass later (List.replicate n c.prev ++ rest) s) (hrun : s.codec.run = n)
    (agree : CodecsAgree c { s.codec with run := 0 }) : CatchesUp pass later rest c s := by
  induction n generalizing s with
  | zero =>
    have caughtUp : { s.codec with run := 0 } = s.codec := by rw [← hrun]
    exact ⟨s, .refl, h, caughtUp ▸ agree⟩
  | succ n ih =>
    rw [List.replicate_succ, List.cons_append] at h
    have prev : (takePull s).codec.prev = c.prev := agree.prev
    have repeats := engineTurn_dBody_of_run h.phase h.pulls_ne_zero (by omega)
    rw [← h.step_eq_engineTurn, reYield_eq, prev] at repeats
    refine .of_step repeats (ih (decodesFrom_yieldPixel (consumed := []) h _) ?_ ?_)
    · rw [yieldPixel_codec, takePull_codec, hrun]
      rfl
    · rw [yieldPixel_codec]
      exact agree

/-- A RUN record yields its length of `prev` (R228). -/
theorem catchesUp_of_run {n : Nat} (hn : n ≤ 61)
    (h : DecodesFrom pass (encode (.run (n + 1)) ++ later) (List.replicate (n + 1) c.prev ++ rest) s) (agree : CodecsAgree c s.codec) :
    CatchesUp pass later rest c s := by
  rw [List.replicate_succ, List.cons_append] at h
  have first := step_of_record h agree.norun (wf_run.2 (by omega)) rfl
  have prev : (afterPulls (encode (.run (n + 1))).length (takePull s)).codec.prev = c.prev := agree.prev
  rw [exec_run, prev] at first
  refine .of_step first (catchesUp_of_run_left (decodesFrom_yieldPixel h _) ?_ ?_)
  · rw [yieldPixel_codec]
    rfl
  · rw [yieldPixel_codec]
    exact ⟨(refreshed_prev _).trans prev, rfl, cachesAgree_refreshed prev agree.caches agree.cached, agree.cached⟩

/-- The flush of a pending run, if there is one (R183). -/
theorem catchesUp_of_flush {n : Nat} (hn : n ≤ 61)
    (h : DecodesFrom pass (bytesOf (flushRun n) ++ later) (List.replicate n c.prev ++ rest) s) (agree : CodecsAgree c s.codec) :
    CatchesUp pass later rest c s := by
  cases n with
  | zero => exact ⟨s, .refl, h, agree⟩
  | succ n =>
    rw [flushRun_of_pos n.succ_pos, bytesOf_singleton] at h
    exact catchesUp_of_run (by omega) h agree

/-- A repeat that ends the encoder's run has its record to be decoded; any other leaves one more pixel pending (R182). -/
theorem catchesUp_of_repeat (wrap last : Bool) (hrun : c.run ≤ 61)
    (h : DecodesFrom pass (bytesOf (encodeStep wrap last c.prev c).1 ++ later) (List.replicate c.run c.prev ++ c.prev :: rest) s)
    (agree : CodecsAgree c s.codec) :
    CatchesUp pass later (List.replicate (encodeStep wrap last c.prev c).2.run c.prev ++ rest) (encodeStep wrap last c.prev c).2 s := by
  have oneMore : List.replicate c.run c.prev ++ c.prev :: rest = List.replicate (c.run + 1) c.prev ++ rest := by
    rw [List.replicate_succ', List.append_assoc, List.singleton_append]
  rw [oneMore] at h
  by_cases ends : c.run + 1 = 62 ∨ last = true
  · rw [encodeStep_of_run_end wrap ends] at h ⊢
    rw [bytesOf_singleton] at h
    exact catchesUp_of_run hrun h (agree.withRun 0)
  · rw [not_or, Bool.not_eq_true] at ends
    obtain ⟨short, rfl⟩ := ends
    rw [encodeStep_of_run_on wrap short] at h ⊢
    exact ⟨s, .refl, h, agree.withRun (c.run + 1)⟩

/-- The record chosen for a pixel other than `prev` follows the flush and yields the pixel (R183, R234). -/
theorem catchesUp_of_new (wrap last : Bool) (new : px ≠ c.prev) (hrun : c.run ≤ 61)
    (h : DecodesFrom pass (bytesOf (encodeStep wrap last px c).1 ++ later) (List.replicate c.run c.prev ++ px :: rest) s)
    (agree : CodecsAgree c s.codec) : CatchesUp pass later rest (encodeStep wrap last px c).2 s := by
  obtain ⟨i, records, wellFormed, body, executes⟩ := chosenRecord wrap last new
  rw [records, bytesOf_append, bytesOf_singleton, List.append_assoc] at h
  obtain ⟨u, flushed, stands, prev, norun, caches, -⟩ := catchesUp_of_flush hrun h agree
  obtain ⟨next, cachesAfter⟩ := executes (afterPulls (encode i).length (takePull u)) prev caches
  refine ⟨_, flushed.tail ((step_of_record stands norun wellFormed body).trans next), decodesFrom_yieldPixel stands _, ?_⟩
  obtain ⟨-, prevAfter, runAfter, -, -⟩ := reconstruct_completes px (afterPulls (encode i).length (takePull u))
  have ownSlot := slotAt_encodeStep_self wrap last new
  exact ⟨prevAfter.trans (encodeStep_prev ..).symm, runAfter.trans norun, cachesAfter, .inl (by rwa [encodeStep_prev])⟩

/-- Whatever the pixel, decoding what it emitted brings the pass before the next one, with the encoder's pending run still owed. -/
theorem catchesUp_of_pixel (wrap last : Bool) (px : Pixel) (hrun : c.run ≤ 61)
    (h : DecodesFrom pass (bytesOf (encodeStep wrap last px c).1 ++ later) (List.replicate c.run c.prev ++ px :: rest) s)
    (agree : CodecsAgree c s.codec) :
    CatchesUp pass later (List.replicate (encodeStep wrap last px c).2.run (encodeStep wrap last px c).2.prev ++ rest)
      (encodeStep wrap last px c).2 s := by
  by_cases same : px = c.prev
  · subst same
    rw [encodeStep_prev]
    exact catchesUp_of_repeat wrap last hrun h agree
  · rw [encodeStep_run_of_new wrap last same]
    exact catchesUp_of_new wrap last same hrun h agree

end

/-! ### The whole pass -/

/-- From before the records of its pixels, with the encoder's pending run owed first, the pass ends with its image yielded (R234). -/
theorem decoded_of_bodyRecords {pass : DecodePass} (wrap : Bool) {pixels : List Pixel} {c : Codec} {s : State}
    (h : DecodesFrom pass (bytesOf (bodyRecords wrap c pixels) ++ Config.trailerBytes) (List.replicate c.run c.prev ++ pixels) s)
    (agree : CodecsAgree c s.codec) (hrun : c.run ≤ 61) (flushed : pixels = [] → c.run = 0) :
    ∃ t, Reaches s t ∧ Decoded pass t := by
  induction pixels generalizing c s with
  | nil =>
    rw [flushed rfl] at h
    exact decoded_of_trailer h
  | cons px rest ih =>
    rw [bodyRecords_cons, bytesOf_append, List.append_assoc] at h
    obtain ⟨t, now, stands, agreeLater⟩ := catchesUp_of_pixel wrap rest.isEmpty px hrun h agree
    have flushedLater : rest = [] → (encodeStep wrap rest.isEmpty px c).2.run = 0 := by
      rintro rfl
      exact encodeStep_last_run wrap px c
    obtain ⟨u, later, decoded⟩ := ih stands agreeLater (encodeStep_run_le wrap rest.isEmpty px hrun) flushedLater
    exact ⟨u, now.trans later, decoded⟩

/-- The header of a legal descriptor, served at the start of a pass, is accepted with every field (R146, R153). -/
theorem engineTurn_of_headerRecord {d : Descriptor} (legal : descriptorFault d.width d.height d.channels = none) {later : List Byte}
    {s : State} (hphase : s.phase = .dHdr) (served : serves (encode (headerRecord d) ++ later) s) :
    engineTurn s = .next { afterPulls 14 s with desc := d, pxtotal := pixelTotal d.width d.height, phase := .dBody } := by
  have accepted : headerFault d.width d.height d.channels (d.colorspace.setWidth 8) = none := by
    rw [headerFault_of_colorspace (colorspace_of_bit _), legal]
  have decodes : decode .header (encode (headerRecord d)) = .ok (headerRecord d, []) := decode_of_encode_eq (i := headerRecord d) rfl rfl
  rw [engineTurn_dHdr hphase, decodeHeaderStep_of_serves decodes (serves_append served).1, headerRecord, exec,
    execHeader_of_legal accepted, acceptHeader, extractLsb'_setWidth_bit]
  rfl

/-- The Reader that DECODE finds just connected, with no failure to come, serves its whole stream. -/
theorem serves_of_decodeLaunch (q : Params) (bytes : List Byte) (n : Nat) :
    serves bytes { decodeLaunch q bytes [] n with turns := [], mode := .dec, phase := .dHdr } := by
  refine ⟨fun a ha => ?_, fun k _ => ?_⟩
  · simp [decodeLaunch] at ha
  · exact (congrArg (Memory.read _) (Nat.zero_add k)).trans (Memory.read_ofBytes bytes k)

theorem canonicalStream_eq (wrap : Bool) (d : Descriptor) (pixels : List Pixel) :
    canonicalStream wrap d pixels =
      encode (headerRecord d) ++ (bytesOf (bodyRecords wrap Codec.initial pixels) ++ Config.trailerBytes) :=
  List.append_assoc ..

/-- The pass that DECODE opens over a canonical stream. -/
def canonicalPass (q : Params) (wrap : Bool) (d : Descriptor) (pixels : List Pixel) : DecodePass :=
  { params := q, desc := d, image := pixels, length := (canonicalStream wrap d pixels).length }

/-- From D_HDR, with nothing consumed or yielded, the step over the header leaves the pass before its body (R146). -/
theorem decodesFrom_of_dHdr (wrap : Bool) {d : Descriptor} {pixels : List Pixel} (image : validImage d pixels) {s : State}
    (hphase : s.phase = .dHdr) (noErr : s.err = none) (dec : s.mode = .dec) (noTurns : s.turns = []) (start : AtPassStart s)
    (served : serves (canonicalStream wrap d pixels) s) (nothing : s.ports.sink = []) (pulls : s.ports.pulls = pixels.length) :
    ∃ t, step s = .next t ∧ t.codec = Codec.initial ∧
      DecodesFrom (canonicalPass s.params wrap d pixels) (bytesOf (bodyRecords wrap Codec.initial pixels) ++ Config.trailerBytes)
        pixels t := by
  obtain ⟨legal, complete⟩ := image
  obtain ⟨cur0, cnt0, -, initial⟩ := start
  have nonempty : pixels ≠ [] := by
    rw [← List.length_pos_iff, complete]
    exact (pixelTotal_bounds legal).1
  have headerLength : (encode (headerRecord d)).length = 14 := rfl
  rw [canonicalStream_eq] at served
  have accepted := engineTurn_of_headerRecord legal hphase served
  have servedLater := (serves_append served).2
  rw [headerLength] at servedLater
  refine ⟨_, (step_of_no_turns noTurns).trans accepted, initial, ?_⟩
  constructor
  case params | desc => rfl
  case noErr => exact noErr
  case dec => exact dec
  case noTurns => exact noTurns
  case served => exact servedLater
  case cur =>
    rw [canonicalPass, canonicalStream_eq, List.length_append (as := encode _), headerLength, afterPulls_cur, cur0, Nat.zero_add]
  case yielded => rw [afterPulls_sink, nothing]; rfl
  case count => rw [afterPulls_pxcnt, afterPulls_sink, cnt0, nothing]; rfl
  case total => exact complete.symm
  case pulls => exact pulls
  case phase => exact (if_neg nonempty).symm

/-- The decode pass over a canonical stream, whatever its parameters, ends with the image yielded (R234). -/
theorem decoded_of_decodeLaunch (wrap : Bool) {d : Descriptor} {pixels : List Pixel} (image : validImage d pixels) (q : Params) :
    ∃ t, Reaches (decodeLaunch q (canonicalStream wrap d pixels) [] pixels.length) t ∧ Decoded (canonicalPass q wrap d pixels) t := by
  have launched := step_decodeLaunch q (canonicalStream wrap d pixels) [] pixels.length
  have served := serves_of_decodeLaunch q (canonicalStream wrap d pixels) pixels.length
  obtain ⟨s, header, initial, stands⟩ := decodesFrom_of_dHdr wrap image rfl rfl rfl rfl ⟨rfl, rfl, rfl, rfl⟩ served rfl rfl
  have agree : CodecsAgree Codec.initial s.codec := by rw [initial]; exact codecsAgree_initial
  obtain ⟨t, body, decoded⟩ := decoded_of_bodyRecords (pixels := pixels) wrap stands agree (Nat.zero_le 61) (fun _ => rfl)
  exact ⟨t, .head launched (.head header body), decoded⟩

/-! ### What is observed at the end -/

theorem statusWord_decode_done {s : State} (hphase : s.phase = .done) (dec : s.mode = .dec) : statusWord s = 0x70A := by
  simp [statusWord, busy, doneFlag, errFlag, modeFlag, hasMore, pixelReady, phaseCode, hphase, dec]

theorem observe_decode {start finish : State} (dec : finish.mode = .dec) (header : finish.pxtotal ≠ 0)
    (fromStart : start.ports.sink = []) :
    observe start finish = .decode (some finish.desc) finish.ports.sink finish.cur (statusWord finish) (errWord finish) := by
  simp only [observe, dec, if_neg header, fromStart, List.length_nil, List.drop_zero]

/-- Settles O60: with no failure to come the encode pass writes the canonical stream, and decoding that catches up pixel by pixel. -/
theorem roundTripIsExact : Obligations.RoundTripIsExact := by
  intro p d pixels image
  obtain ⟨m, e, encodes, ends⟩ := passEnds_of_encodeLaunch image p []
  have wrote : WroteStream (canonicalStream p.encDeltaWrap d pixels) pixels.length e :=
    ends.resolve_right fun broke => by
      obtain ⟨k, failure⟩ := broke.failure
      cases failure
  refine ⟨m, e, canonicalStream p.encDeltaWrap d pixels, encodes, wrote.phase, wrote.writer, fun q => ?_⟩
  obtain ⟨t, reaches, phase, noErr, dec, desc, total, sink, cur⟩ := decoded_of_decodeLaunch p.encDeltaWrap image q
  obtain ⟨n, decodes⟩ := run_of_reaches reaches
  have header : t.pxtotal ≠ 0 := by
    rw [total]
    exact Nat.ne_of_gt (image.2 ▸ (pixelTotal_bounds image.1).1)
  refine ⟨n, t, decodes, phase, sink, desc, noErr, ?_⟩
  rw [observe_decode dec header rfl, desc, sink, cur, statusWord_decode_done phase dec, errWord_none noErr]
  rfl

end Sys2Proof.Machine
end

section
/-! The command family (44_commands.md): what ENCODE, DECODE and ABORT do to the engine, when each is accepted, and what the host's
register accesses read and store (R260 to R264). -/

namespace Sys2Proof.Machine

/-! ### The commands -/

theorem hostTurn_command (c : Command) (s : State) : hostTurn (.command c) s = .next (command c s) := rfl

/-- While BUSY every command but ABORT is ignored (R260, R261). -/
theorem hostTurn_command_of_busy {c : Command} {s : State} (running : busy s = true) (notAbort : c ≠ .abort) :
    hostTurn (.command c) s = .next s := by
  cases c with
  | encode | decode => simp only [hostTurn_command, command, if_pos running]
  | abort => exact absurd rfl notAbort

theorem hostTurn_encode_of_idle {s : State} (idle : busy s = false) : hostTurn (.command .encode) s = .next (startEncode s) := by
  simp only [hostTurn_command, command, idle, Bool.false_eq_true, if_false]

theorem hostTurn_decode_of_idle {s : State} (idle : busy s = false) : hostTurn (.command .decode) s = .next (startDecode s) := by
  simp only [hostTurn_command, command, idle, Bool.false_eq_true, if_false]

/-- The first check of R260; the next two lemmas are the other two, each behind those before it. -/
theorem descriptorFault_zeroWidth {w h : Word32} {c : Byte} (noWidth : w = 0) : descriptorFault w h c = some .zeroWidth :=
  if_pos noWidth

theorem descriptorFault_zeroHeight {w h : Word32} {c : Byte} (width : w ≠ 0) (noHeight : h = 0) :
    descriptorFault w h c = some .zeroHeight :=
  (if_neg width).trans (if_pos noHeight)

theorem descriptorFault_badChannels {w h : Word32} {c : Byte} (width : w ≠ 0) (height : h ≠ 0) (bad : c ≠ 3 ∧ c ≠ 4) :
    descriptorFault w h c = some .badChannels :=
  (if_neg width).trans ((if_neg height).trans (if_pos bad))

/-- An accepted ENCODE resets the pass and latches the descriptor whatever the descriptor's check says; the check alone decides `ERR` and
the phase (R260). -/
theorem startEncode_eq (s : State) :
    startEncode s = { passStart .enc s with
      latched := s.desc,
      err := descriptorFault s.desc.width s.desc.height s.desc.channels,
      phase := if descriptorFault s.desc.width s.desc.height s.desc.channels = none then .eHdr else .err } := by
  rcases startEncode_cases s with ⟨legal, he⟩ | ⟨c, fault, he⟩
  · rw [he, legal]; rfl
  · rw [he, fault]; rfl

theorem startEncode_phase (s : State) : (startEncode s).phase = .eHdr ∨ (startEncode s).phase = .err := by
  rcases startEncode_cases s with ⟨-, he⟩ | ⟨c, -, he⟩ <;> rw [he]
  · exact .inl rfl
  · exact .inr rfl

/-- A command that ends a running pass has ABORT's effect (R263). -/
theorem command_eq_leaveToIdle {c : Command} {s : State} (running : busy s = true) (ended : busy (command c s) = false) :
    command c s = leaveToIdle s := by
  rcases command_cases c s with h | h | ⟨idle, -⟩
  · exact h
  · rw [h, running] at ended; cases ended
  · rw [running] at idle; cases idle

/-- What moves the engine's surroundings only does not reach the phase (R31). -/
theorem SurroundingsMove.busy_eq {s t : State} (h : SurroundingsMove s t) : busy t = busy s := by
  obtain ⟨d, p, r, ts, rfl, -⟩ := h
  rfl

/-- Settles O21: a host operation is a command or moves the engine's surroundings only, and of these only ABORT ends a pass. -/
theorem commandsAreAcceptedOnlyBetweenPasses : Obligations.CommandsAreAcceptedOnlyBetweenPasses := by
  refine ⟨fun s running => ?ignored, fun s idle => ?accepted, fun s => ⟨leaveToIdle s, rfl, rfl⟩, fun op s t running h ended => ?ended⟩
  case ignored => exact ⟨hostTurn_command_of_busy running nofun, hostTurn_command_of_busy running nofun⟩
  case accepted =>
    refine ⟨startEncode s, startDecode s, hostTurn_encode_of_idle idle, by rw [startEncode_eq]; rfl, ?_, ?_,
      hostTurn_decode_of_idle idle, rfl, rfl⟩ <;>
      rcases startEncode_phase s with hphase | hphase <;> rw [hphase] <;> nofun
  case ended =>
    rcases hostTurn_command_or_surroundings h with ⟨-, c, rfl⟩ | moved
    · exact command_eq_leaveToIdle running ended
    · rw [moved.busy_eq, running] at ended; cases ended

/-- Settles O18: one equation gives the whole state after ENCODE; the descriptor's check is gone through in its order. -/
theorem encodeCommandStartsOrRefusesAPass : Obligations.EncodeCommandStartsOrRefusesAPass := by
  refine fun s => ⟨fun running => hostTurn_command_of_busy running nofun, fun idle => ⟨_, hostTurn_encode_of_idle idle, ?_⟩⟩
  rw [startEncode_eq]
  refine ⟨rfl, rfl, rfl, rfl, rfl, rfl, slotAt_initial, rfl, rfl, rfl, rfl, rfl, rfl, ?check⟩
  case check =>
    split
    next noWidth => rw [descriptorFault_zeroWidth noWidth]; exact ⟨rfl, rfl⟩
    split
    next width noHeight => rw [descriptorFault_zeroHeight width noHeight]; exact ⟨rfl, rfl⟩
    split
    next width height bad => rw [descriptorFault_badChannels width height bad]; exact ⟨rfl, rfl⟩
    next width height good =>
      rw [descriptorFault_none.2 ⟨width, height, by tauto⟩]
      exact ⟨rfl, rfl⟩

/-- Settles O19: an accepted DECODE is the pass-start reset with phase D_HDR. -/
theorem decodeCommandStartsAPass : Obligations.DecodeCommandStartsAPass := fun s =>
  ⟨fun running => hostTurn_command_of_busy running nofun,
    fun idle => ⟨startDecode s, hostTurn_decode_of_idle idle, rfl, rfl, rfl, rfl, rfl, rfl, rfl, slotAt_initial, rfl, rfl, rfl, rfl, rfl,
      rfl, rfl⟩⟩

/-- Settles O20: ABORT is `leaveToIdle`, whatever the phase. -/
theorem abortReturnsToIdle : Obligations.AbortReturnsToIdle := fun s => by
  rw [hostTurn_command, command, leaveToIdle]

/-! ### The register accesses -/

/-- What a write to a register leaves in the descriptor registers between passes: the value truncated to the register's width (R264). -/
def storeReg (r : HostReg) (v : Nat) (d : Descriptor) : Descriptor :=
  match r with
  | .width => { d with width := BitVec.ofNat 32 v }
  | .height => { d with height := BitVec.ofNat 32 v }
  | .channels => { d with channels := BitVec.ofNat 8 v }
  | .colorspace => { d with colorspace := BitVec.ofNat 1 v }
  | .status | .err | .cur | .pxcnt | .cmd => d

/-- Every register but `CMD` takes a write in the same way (R26, R264). -/
theorem hostTurn_write {r : HostReg} (notCmd : r ≠ .cmd) (v : Nat) (s : State) :
    hostTurn (.write r v) s = .next (if busy s then s else { s with desc := storeReg r v s.desc }) := by
  cases r with
  | cmd => exact absurd rfl notCmd
  | width | height | channels | colorspace => rfl
  | status | err | cur | pxcnt => exact congrArg Host.Outcome.next (ite_self s).symm

theorem hostTurn_write_of_busy {r : HostReg} (notCmd : r ≠ .cmd) (v : Nat) {s : State} (running : busy s = true) :
    hostTurn (.write r v) s = .next s := by
  rw [hostTurn_write notCmd, if_pos running]

theorem hostTurn_write_of_idle {r : HostReg} (notCmd : r ≠ .cmd) (v : Nat) {s : State} (idle : busy s = false) :
    hostTurn (.write r v) s = .next { s with desc := storeReg r v s.desc } := by
  rw [hostTurn_write notCmd, idle, if_neg Bool.false_ne_true]

/-- Settles O22: reads register by register, writes by `storeReg`, `CMD` and the bus by whether the table lists the number. -/
theorem hostRegisterAccess : Obligations.HostRegisterAccess := by
  refine ⟨fun r s => ?reads, fun v s idle => ?stored, fun v s running => ?ignored, fun v s => ⟨rfl, rfl, rfl, rfl⟩,
    fun v s => ?commands, fun address v s => ⟨?busWrites, ?busReads⟩⟩
  case reads => cases r <;> rfl
  case stored =>
    exact ⟨_, _, _, _,
      hostTurn_write_of_idle (by nofun) v idle, BitVec.toNat_ofNat v 32, rfl,
      hostTurn_write_of_idle (by nofun) v idle, BitVec.toNat_ofNat v 32, rfl,
      hostTurn_write_of_idle (by nofun) v idle, BitVec.toNat_ofNat v 8, rfl,
      hostTurn_write_of_idle (by nofun) v idle, BitVec.toNat_ofNat v 1, rfl⟩
  case ignored =>
    exact ⟨hostTurn_write_of_busy (by nofun) v running, hostTurn_write_of_busy (by nofun) v running,
      hostTurn_write_of_busy (by nofun) v running, hostTurn_write_of_busy (by nofun) v running⟩
  case commands => cases hl : lookup s.params.regmap.commands v <;> simp only [hostTurn, writeReg, hl]
  case busWrites => cases hl : lookup s.params.regmap.addresses address <;> simp only [hostTurn, hl]
  case busReads => cases hl : lookup s.params.regmap.addresses address <;> simp only [hostTurn, hl]

end Sys2Proof.Machine
end

section
/-! The exception family (60_exceptions.md), first part: no turn is without a next state but the model's own refusal (R292), and what a step
that raises leaves as it was (R285, R286). -/

namespace Sys2Proof.Machine

/-! ### Every turn has a next state -/

/-- Between passes the engine's turn is a wait (R292). -/
theorem engineTurn_between_passes {s : State} (h : s.phase = .idle ∨ s.phase = .done ∨ s.phase = .err) : engineTurn s = .next s := by
  rcases h with h | h | h <;> simp only [engineTurn, h]

theorem engineTurn_eBody_of_no_source {s : State} (hphase : s.phase = .eBody) (nothing : s.ports.source = []) :
    engineTurn s = .next s := by
  simp only [engineTurn, hphase, nothing]

theorem engineTurn_dBody_of_no_pull {s : State} (hphase : s.phase = .dBody) (nothing : s.ports.pulls = 0) :
    engineTurn s = .next s := by
  simp only [engineTurn, hphase, nothing, if_true]

/-- Whatever the phase, the engine's turn answers a next state (R292). -/
theorem exists_engineTurn (s : State) : ∃ t, engineTurn s = .next t := by
  cases hphase : s.phase with
  | idle => exact ⟨s, engineTurn_between_passes (.inl hphase)⟩
  | done => exact ⟨s, engineTurn_between_passes (.inr (.inl hphase))⟩
  | err => exact ⟨s, engineTurn_between_passes (.inr (.inr hphase))⟩
  | eHdr => exact ⟨_, engineTurn_eHdr hphase⟩
  | eTrl => exact ⟨_, engineTurn_eTrl hphase⟩
  | eBody =>
    cases hsource : s.ports.source with
    | nil => exact ⟨s, engineTurn_eBody_of_no_source hphase hsource⟩
    | cons px rest => exact ⟨_, engineTurn_eBody hphase hsource⟩
  | dHdr =>
    obtain ⟨t, ht, -⟩ := decodeHeaderStep_cases s
    exact ⟨t, (engineTurn_dHdr hphase).trans ht⟩
  | dBody =>
    by_cases hpulls : s.ports.pulls = 0
    · exact ⟨s, engineTurn_dBody_of_no_pull hphase hpulls⟩
    · rcases engineTurn_dBody_cases hphase hpulls with ⟨c, why, k, ht⟩ | ⟨px, k, c, ht⟩ <;> exact ⟨_, ht⟩
  | dTrl =>
    obtain ⟨t, ht, -⟩ := checkTrailer_cases Config.trailerBytes s
    exact ⟨t, (engineTurn_dTrl hphase).trans ht⟩

/-- The host operations that connect a port (R322, R323). -/
def ConnectsPort (op : HostOp) : Prop :=
  (∃ bytes answers, op = .connectReader bytes answers) ∨ (∃ answers, op = .connectWriter answers) ∨
  (∃ pixels, op = .connectSource pixels) ∨ op = .connectSink

/-- A host operation answers a next state, but where it connects a port in the middle of a pass (log entry 11). -/
theorem hostTurn_next_or_refused (op : HostOp) (s : State) :
    (∃ t, hostTurn op s = .next t) ∨ (hostTurn op s = .refused .reconnectedInPass ∧ busy s = true ∧ ConnectsPort op) := by
  have connect (u : State) (hop : ConnectsPort op) : (∃ t, betweenPasses s u = .next t) ∨
      (betweenPasses s u = .refused .reconnectedInPass ∧ busy s = true ∧ ConnectsPort op) := by
    cases running : busy s
    · exact .inl ⟨u, by rw [betweenPasses, running, if_neg Bool.false_ne_true]⟩
    · exact .inr ⟨by rw [betweenPasses, if_pos running], rfl, hop⟩
  cases op with
  | command | write | read => exact .inl ⟨_, rfl⟩
  | busWrite address v => cases hl : lookup s.params.regmap.addresses address <;> simp [hostTurn, hl]
  | busRead address => cases hl : lookup s.params.regmap.addresses address <;> simp [hostTurn, hl]
  | connectReader bytes answers => exact connect _ (.inl ⟨_, _, rfl⟩)
  | connectWriter answers => exact connect _ (.inr (.inl ⟨_, rfl⟩))
  | connectSource pixels => exact connect _ (.inr (.inr (.inl ⟨_, rfl⟩)))
  | connectSink => exact connect _ (.inr (.inr (.inr rfl)))

/-- Settles O30: the engine's turn phase by phase; of the other agents' turns only the host's can be refused. -/
theorem engineIsNeverStuck : Obligations.EngineIsNeverStuck := by
  refine ⟨exists_engineTurn, fun s => engineTurn_between_passes, fun s => engineTurn_eBody_of_no_source,
    fun s => engineTurn_dBody_of_no_pull, fun s => rfl, fun s => ?step⟩
  case step =>
    cases hturns : s.turns with
    | nil => exact .inl (step_of_no_turns hturns ▸ exists_engineTurn s)
    | cons turn rest =>
      have hstep : step s = takeTurn turn { s with turns := rest } := by simp only [step, nextTurn, hturns]
      rw [hstep]
      cases turn with
      | engine => exact .inl (exists_engineTurn _)
      | stall | offer | pull | changeByte => exact .inl ⟨_, rfl⟩
      | host op =>
        refine (hostTurn_next_or_refused op { s with turns := rest }).imp_right ?_
        rintro ⟨refused, running, connects⟩
        exact ⟨refused, running, op, rest, rfl, connects⟩

/-! ### What a step that raises has done -/

/-- What a decode step that raised has done: taken bytes and answers from the Reader, and the pull it was answering (R285, R286). -/
def FailedFetch (s t : State) : Prop :=
  ∃ k answers pulls c, t = raiseError c { s with
    cur := s.cur + k, ports := { s.ports with readerPos := s.ports.readerPos + k, readerAnswers := answers, pulls := pulls } }

theorem failedFetch_of_decodeHeaderStep {s t : State} (hd : decodeHeaderStep s = .next t) (herr : t.phase = .err) : FailedFetch s t := by
  obtain ⟨u, hu, ⟨k, c, why, -, rfl⟩ | ⟨c, rfl⟩ | ⟨w, l, c, sp, -, rfl⟩⟩ := decodeHeaderStep_cases s <;> cases hu.symm.trans hd
  · exact ⟨_, _, _, _, rfl⟩
  · exact ⟨_, _, _, _, rfl⟩
  · cases herr

theorem failedFetch_of_checkTrailer {expected : List Byte} {s t : State} (hd : checkTrailer expected s = .next t)
    (herr : t.phase = .err) : FailedFetch s t := by
  obtain ⟨u, hu, ⟨k, c, why, -, rfl⟩ | ⟨k, -, rfl⟩ | rfl⟩ := checkTrailer_cases expected s <;> cases hu.symm.trans hd
  · exact ⟨_, _, _, _, rfl⟩
  · exact ⟨_, _, _, _, rfl⟩
  · cases herr

theorem yieldPixel_phase_ne_err {s : State} (noErr : s.phase ≠ .err) (px : Pixel) : (yieldPixel px s).phase ≠ .err := by
  rw [yieldPixel_phase]
  split
  · split <;> nofun
  · exact noErr

/-- A decode body step ends in ERR only where the fetch stops short of a record (R221). -/
theorem failedFetch_of_dBody {s t : State} (hphase : s.phase = .dBody) (hpulls : s.ports.pulls ≠ 0) (hturn : engineTurn s = .next t)
    (herr : t.phase = .err) : FailedFetch s t := by
  have noErr : s.phase ≠ .err := by rw [hphase]; nofun
  rcases engineTurn_dBody_cases hphase hpulls with ⟨c, why, k, he⟩ | ⟨px, k, c, he⟩ <;> cases he.symm.trans hturn
  · exact ⟨_, _, _, _, rfl⟩
  · refine absurd herr (yieldPixel_phase_ne_err ?_ px)
    exact noErr

/-- A step of the engine that raises is an emission the Writer broke off or a fetch that gave no legal record (R285). -/
theorem engineTurn_raises {s t : State} (noErr : s.phase ≠ .err) (hturn : engineTurn s = .next t) (herr : t.phase = .err) :
    (encoding s ∧ ∃ records source, EmitFailure records { s with ports := { s.ports with source := source } } t) ∨
    (decoding s ∧ FailedFetch s t) := by
  rcases engineTurn_cases hturn with rfl | ⟨hphase, rfl⟩ | ⟨hphase, px, rest, -, rfl⟩ | ⟨hphase, rfl⟩ | ⟨hphase, hd⟩ |
    ⟨hphase, hpulls, -, -⟩ | ⟨hphase, hpulls, -, -⟩ | ⟨hphase, hd⟩
  · exact absurd herr noErr
  · rcases emitHeader_cases s with he | he
    · rw [he] at herr; cases herr
    · exact .inl ⟨.inl hphase, _, s.ports.source, he⟩
  · exact .inl ⟨.inr (.inl hphase), _, s.ports.source.tail, emitFailure_of_encodePixel_err hphase herr⟩
  · rcases emitTrailer_cases s with he | he
    · rw [he] at herr; cases herr
    · exact .inl ⟨.inr (.inr hphase), _, s.ports.source, he⟩
  · exact .inr ⟨.inl hphase, failedFetch_of_decodeHeaderStep hd herr⟩
  · exact .inr ⟨.inr (.inl hphase), failedFetch_of_dBody hphase hpulls hturn herr⟩
  · exact .inr ⟨.inr (.inl hphase), failedFetch_of_dBody hphase hpulls hturn herr⟩
  · exact .inr ⟨.inr (.inr hphase), failedFetch_of_checkTrailer hd herr⟩

theorem not_encoding_of_decoding {s : State} (h : decoding s) : ¬ encoding s := by
  unfold encoding
  rcases h with h | h | h <;> rw [h] <;> decide

/-- What every raising step leaves as it was, with the cause it records (R285). -/
structure RaisesOnly (s t : State) : Prop where
  cause   : ∃ c, t.err = some c
  codec   : t.codec = s.codec
  pxcnt   : t.pxcnt = s.pxcnt
  pxtotal : t.pxtotal = s.pxtotal
  desc    : t.desc = s.desc
  latched : t.latched = s.latched
  mode    : t.mode = s.mode
  sink    : t.ports.sink = s.ports.sink

theorem FailedFetch.raisesOnly {s t : State} (h : FailedFetch s t) : RaisesOnly s t := by
  obtain ⟨k, answers, pulls, c, rfl⟩ := h
  exact ⟨⟨c, rfl⟩, rfl, rfl, rfl, rfl, rfl, rfl, rfl⟩

theorem FailedFetch.consumes {s t : State} (h : FailedFetch s t) : ∃ k, Consumes k s t := by
  obtain ⟨k, answers, pulls, c, rfl⟩ := h
  exact ⟨k, rfl, rfl, rfl, rfl⟩

theorem EmitFailure.raisesOnly {records : List Instr} {s t : State} (h : EmitFailure records s t) : RaisesOnly s t := by
  obtain ⟨done, i, rest, n, -, rfl⟩ := h
  exact ⟨⟨.writer, rfl⟩, rfl, rfl, rfl, rfl, rfl, rfl, rfl⟩

/-- A failed emission has counted in `cur` no more than it has appended (R70, R286). -/
theorem EmitFailure.cur_bounds {records : List Instr} {s t : State} (h : EmitFailure records s t) :
    s.cur ≤ t.cur ∧ t.cur + s.ports.writerPos ≤ s.cur + t.ports.writerPos := by
  obtain ⟨-, before, i, after, n, -, cur, -, writerPos⟩ := h.leaves_part
  rw [List.length_append] at writerPos
  omega

/-- Settles O28: a raising step is a broken emission or a failed fetch, and neither reaches what a completed step would have written. -/
theorem failingStepIsPrecise : Obligations.FailingStepIsPrecise := by
  intro s t noErr hturn herr
  rcases engineTurn_raises noErr hturn herr with ⟨enc, records, source, broken⟩ | ⟨dec, failed⟩
  · obtain ⟨cause, codec, pxcnt, pxtotal, desc, latched, mode, sink⟩ := broken.raisesOnly
    obtain ⟨reader, readerPos, -, -, kept⟩ := broken.emitsOnly
    obtain ⟨forward, counted⟩ := broken.cur_bounds
    exact ⟨cause, codec, pxcnt, pxtotal, desc, latched, mode, sink, forward,
      fun dec => absurd enc (not_encoding_of_decoding dec), fun _ => ⟨reader, readerPos, counted, kept⟩⟩
  · obtain ⟨cause, codec, pxcnt, pxtotal, desc, latched, mode, sink⟩ := failed.raisesOnly
    obtain ⟨k, cur, readerPos, writer, writerPos⟩ := failed.consumes
    exact ⟨cause, codec, pxcnt, pxtotal, desc, latched, mode, sink, by omega,
      fun _ => ⟨by omega, writer, writerPos⟩, fun enc => absurd enc (not_encoding_of_decoding dec)⟩

end Sys2Proof.Machine
end

section
/-! The exception family (60_exceptions.md), second part: the completion interrupt is read off STATUS, and every step is the same with and
without it (R290). -/

namespace Sys2Proof.Machine

/-! ### The line -/

theorem irqLine_absent {s : State} (h : s.params.irqPresent = false) : irqLine s = none := by
  rw [irqLine, h, if_neg Bool.false_ne_true]

/-- With `IRQ_PRESENT` the line is 1 exactly in DONE and ERR (R290). -/
theorem irqLine_present {s : State} (h : s.params.irqPresent = true) :
    irqLine s = some (decide (s.phase = .done ∨ s.phase = .err)) := by
  rw [irqLine, if_pos h, doneFlag, errFlag, Bool.decide_or]

/-! ### The same machine with another setting of `IRQ_PRESENT` -/

/-- The machine built with this setting of `IRQ_PRESENT`, in the same state (R8, R290). -/
def withIrq (present : Bool) (s : State) : State := { s with params := { s.params with irqPresent := present } }

/-- The same result of a pull with its state changed. -/
def PullResult.map (f : State → State) : PullResult → PullResult
  | .got bytes s => .got bytes (f s)
  | .stopped why s => .stopped why (f s)

/-- The same result of an emission with its state changed. -/
def EmitResult.map (f : State → State) : EmitResult → EmitResult
  | .emitted s => .emitted (f s)
  | .failed s => .failed (f s)

section
variable (present : Bool)

/-! No operation reads the setting: each of the lemmas below says that one of them commutes with `withIrq`. -/

@[simp] theorem withIrq_codec (s : State) : (withIrq present s).codec = s.codec := rfl
@[simp] theorem withIrq_latched (s : State) : (withIrq present s).latched = s.latched := rfl
@[simp] theorem withIrq_phase (s : State) : (withIrq present s).phase = s.phase := rfl
@[simp] theorem withIrq_ports (s : State) : (withIrq present s).ports = s.ports := rfl
@[simp] theorem withIrq_regmap (s : State) : (withIrq present s).params.regmap = s.params.regmap := rfl
@[simp] theorem busy_withIrq (s : State) : busy (withIrq present s) = busy s := rfl

/-! ### The ports -/

theorem nextByte_withIrq (s : State) : nextByte (withIrq present s) = (nextByte s).map (withIrq present) := by
  by_cases fails : s.ports.readerAnswers.head? = some .fail
  · rw [nextByte_of_fail fails, nextByte_of_fail (s := withIrq present s) fails]
    rfl
  · cases hbyte : Memory.read s.ports.reader s.ports.readerPos with
    | none =>
      rw [nextByte_of_end fails hbyte, nextByte_of_end (s := withIrq present s) fails hbyte]
      rfl
    | some b =>
      rw [nextByte_of_serve fails hbyte, nextByte_of_serve (s := withIrq present s) fails hbyte]
      rfl

theorem pullBytes_withIrq (n : Nat) (s : State) : pullBytes n (withIrq present s) = (pullBytes n s).map (withIrq present) := by
  induction n generalizing s with
  | zero => rfl
  | succ n ih =>
    simp only [pullBytes, nextByte_withIrq]
    cases nextByte s with
    | stopped why t => rfl
    | got b t =>
      simp only [PullResult.map, ih]
      cases pullBytes n t <;> rfl

theorem emit_withIrq (chunk : List Byte) (s : State) : emit chunk (withIrq present s) = (emit chunk s).map (withIrq present) := by
  by_cases fails : ∃ n rest, s.ports.writerAnswers = .fail n :: rest
  · obtain ⟨n, rest, fails⟩ := fails
    rw [emit_of_fail fails, emit_of_fail (s := withIrq present s) fails]
    rfl
  · have accepting : ∀ n, s.ports.writerAnswers.head? ≠ some (.fail n) := fun n h => fails ⟨n, List.head?_eq_some_iff.1 h⟩
    rw [emit_of_accept accepting, emit_of_accept (s := withIrq present s) accepting]
    rfl

theorem emitRecords_withIrq (is : List Instr) (s : State) :
    emitRecords is (withIrq present s) = (emitRecords is s).map (withIrq present) := by
  induction is generalizing s with
  | nil => rfl
  | cons i is ih =>
    simp only [emitRecords, emit_withIrq]
    cases emit (encode i) s with
    | failed t => rfl
    | emitted t => exact ih t

/-! ### The encode steps -/

theorem emitHeader_withIrq (s : State) : emitHeader (withIrq present s) = withIrq present (emitHeader s) := by
  simp only [emitHeader, withIrq_latched, emitRecords_withIrq]
  cases emitRecords [headerRecord s.latched] s <;> rfl

theorem emitTrailer_withIrq (s : State) : emitTrailer (withIrq present s) = withIrq present (emitTrailer s) := by
  simp only [emitTrailer, withIrq_codec, emitRecords_withIrq]
  cases emitRecords (flushRun s.codec.run ++ [.trailer]) s <;> rfl

theorem encodePixel_withIrq (px : Pixel) (s : State) : encodePixel px (withIrq present s) = withIrq present (encodePixel px s) := by
  have same : stepOf (withIrq present s) px = stepOf s px := rfl
  have taken : takePixel (withIrq present s) = withIrq present (takePixel s) := rfl
  simp only [encodePixel, same, taken, emitRecords_withIrq]
  cases emitRecords (stepOf s px).1 (takePixel s) <;> rfl

/-! ### The decode steps -/

theorem closeDecodeBody_withIrq (s : State) : closeDecodeBody (withIrq present s) = withIrq present (closeDecodeBody s) := by
  simp only [closeDecodeBody, apply_ite (withIrq present)]
  rfl

theorem yieldPixel_withIrq (px : Pixel) (s : State) : yieldPixel px (withIrq present s) = withIrq present (yieldPixel px s) :=
  closeDecodeBody_withIrq present { s with pxcnt := s.pxcnt + 1, ports := { s.ports with sink := s.ports.sink ++ [px] } }

theorem reconstruct_withIrq (px : Pixel) (s : State) : reconstruct px (withIrq present s) = withIrq present (reconstruct px s) :=
  yieldPixel_withIrq present px { s with codec := { cacheUpdate px s.codec with prev := px } }

theorem reYield_withIrq (s : State) : reYield (withIrq present s) = withIrq present (reYield s) :=
  yieldPixel_withIrq present s.codec.prev { s with codec := { s.codec with run := s.codec.run - 1 } }

theorem exec_withIrq (i : Instr) (s : State) : exec i (withIrq present s) = mapNext (withIrq present) (exec i s) := by
  cases i with
  | rgb | rgba | index | diff | luma => exact congrArg Host.Outcome.next (reconstruct_withIrq present _ s)
  | run len =>
    rw [exec_run, exec_run]
    exact congrArg Host.Outcome.next (yieldPixel_withIrq present s.codec.prev { s with codec := { refreshed s with run := len - 1 } })
  | header w h c sp =>
    simp only [exec, execHeader]
    cases headerFault w h c sp <;> rfl
  | trailer => rfl

theorem runRecord_withIrq (p : Position) (bytes : List Byte) (s : State) :
    runRecord p bytes (withIrq present s) = mapNext (withIrq present) (runRecord p bytes s) := by
  unfold runRecord
  cases decode p bytes with
  | ok r => exact exec_withIrq present r.1 s
  | error why => rfl

theorem decodeHeaderStep_withIrq (s : State) :
    decodeHeaderStep (withIrq present s) = mapNext (withIrq present) (decodeHeaderStep s) := by
  simp only [decodeHeaderStep, pullBytes_withIrq]
  cases pullBytes Config.hdrLen s with
  | stopped why t => rfl
  | got bytes t => exact runRecord_withIrq present .header bytes t

theorem decodeOpcode_withIrq (s : State) : decodeOpcode (withIrq present s) = mapNext (withIrq present) (decodeOpcode s) := by
  simp only [decodeOpcode, pullBytes_withIrq]
  cases pullBytes 1 s with
  | stopped why t => rfl
  | got tag t =>
    simp only [PullResult.map, pullBytes_withIrq]
    cases pullBytes (recordLength (tag.headD 0#8) - 1) t with
    | stopped why u => rfl
    | got payload u => exact runRecord_withIrq present .body (tag ++ payload) u

theorem checkTrailer_withIrq (expected : List Byte) (s : State) :
    checkTrailer expected (withIrq present s) = mapNext (withIrq present) (checkTrailer expected s) := by
  induction expected generalizing s with
  | nil => rfl
  | cons x rest ih =>
    simp only [checkTrailer, nextByte_withIrq]
    cases nextByte s with
    | stopped why t => rfl
    | got b t =>
      simp only [PullResult.map]
      split
      · exact ih t
      · rfl

theorem decodeBodyStep_withIrq (s : State) : decodeBodyStep (withIrq present s) = mapNext (withIrq present) (decodeBodyStep s) := by
  simp only [decodeBodyStep, withIrq_codec, reYield_withIrq, decodeOpcode_withIrq, apply_ite (mapNext (withIrq present))]
  rfl

/-! ### The turns -/

theorem engineTurn_withIrq (s : State) : engineTurn (withIrq present s) = mapNext (withIrq present) (engineTurn s) := by
  simp only [engineTurn, withIrq_phase, withIrq_ports]
  cases s.phase with
  | idle | done | err => rfl
  | eHdr => exact congrArg Host.Outcome.next (emitHeader_withIrq present s)
  | eBody =>
    cases s.ports.source with
    | nil => rfl
    | cons px rest => exact congrArg Host.Outcome.next (encodePixel_withIrq present px s)
  | eTrl => exact congrArg Host.Outcome.next (emitTrailer_withIrq present s)
  | dHdr => exact decodeHeaderStep_withIrq present s
  | dBody =>
    simp only [apply_ite (mapNext (withIrq present))]
    exact congrArg (ite _ _) (decodeBodyStep_withIrq present (takePull s))
  | dTrl => exact checkTrailer_withIrq present Config.trailerBytes s

theorem startEncode_withIrq (s : State) : startEncode (withIrq present s) = withIrq present (startEncode s) := by
  rw [startEncode_eq, startEncode_eq]
  rfl

theorem command_withIrq (c : Command) (s : State) : command c (withIrq present s) = withIrq present (command c s) := by
  cases c with
  | encode =>
    simp only [command, busy_withIrq, startEncode_withIrq, apply_ite (withIrq present)]
  | decode =>
    simp only [command, busy_withIrq, apply_ite (withIrq present)]
    rfl
  | abort => rfl

theorem writeReg_withIrq (r : HostReg) (v : Nat) (s : State) : writeReg r v (withIrq present s) = withIrq present (writeReg r v s) := by
  cases r with
  | width | height | channels | colorspace =>
    simp only [writeReg, busy_withIrq, apply_ite (withIrq present)]
    rfl
  | status | err | cur | pxcnt => rfl
  | cmd =>
    simp only [writeReg, withIrq_regmap]
    cases lookup s.params.regmap.commands v with
    | none => rfl
    | some c => exact command_withIrq present c s

theorem readReg_withIrq (r : HostReg) (s : State) : readReg r (withIrq present s) = withIrq present (readReg r s) := by
  cases r <;> rfl

theorem betweenPasses_withIrq (s t : State) :
    betweenPasses (withIrq present s) (withIrq present t) = mapNext (withIrq present) (betweenPasses s t) := by
  simp only [betweenPasses, busy_withIrq, apply_ite (mapNext (withIrq present))]
  rfl

theorem hostTurn_withIrq (op : HostOp) (s : State) : hostTurn op (withIrq present s) = mapNext (withIrq present) (hostTurn op s) := by
  cases op with
  | command c => exact congrArg Host.Outcome.next (command_withIrq present c s)
  | write r v => exact congrArg Host.Outcome.next (writeReg_withIrq present r v s)
  | read r => exact congrArg Host.Outcome.next (readReg_withIrq present r s)
  | busWrite address v =>
    simp only [hostTurn, withIrq_regmap]
    cases lookup s.params.regmap.addresses address with
    | none => rfl
    | some r => exact congrArg Host.Outcome.next (writeReg_withIrq present r v s)
  | busRead address =>
    simp only [hostTurn, withIrq_regmap]
    cases lookup s.params.regmap.addresses address with
    | none => rfl
    | some r => exact congrArg Host.Outcome.next (readReg_withIrq present r s)
  | connectReader bytes answers => exact betweenPasses_withIrq present s (connectReader bytes answers s)
  | connectWriter answers => exact betweenPasses_withIrq present s (connectWriter answers s)
  | connectSource pixels => exact betweenPasses_withIrq present s (connectSource pixels s)
  | connectSink => exact betweenPasses_withIrq present s (connectSink s)

theorem takeTurn_withIrq (turn : Turn) (s : State) : takeTurn turn (withIrq present s) = mapNext (withIrq present) (takeTurn turn s) := by
  cases turn with
  | engine => exact engineTurn_withIrq present s
  | host op => exact hostTurn_withIrq present op s
  | stall | offer | pull => rfl
  | changeByte offset v =>
    simp only [takeTurn, changeByte, withIrq_ports]
    cases Memory.read s.ports.reader offset <;> rfl

/-- No step of any agent depends on `IRQ_PRESENT` (R290). -/
theorem step_withIrq (s : State) : step (withIrq present s) = mapNext (withIrq present) (step s) := by
  rw [step_eq_takeTurn, step_eq_takeTurn]
  exact takeTurn_withIrq present _ { s with turns := s.turns.tail }

end

/-- Settles O25: the line is a function of the phase, D_HDR among its zeros, and every turn commutes with the setting. -/
theorem interruptLineIsAnObserverOnly : Obligations.InterruptLineIsAnObserverOnly := by
  refine ⟨fun s => irqLine_absent, fun s built => ?line, fun s t built idle h => ?falls, fun present s => step_withIrq present s⟩
  case line =>
    simp only [irqLine_present built, Option.some.injEq, decide_eq_true_eq, decide_eq_false_iff_not, not_or, ne_eq, and_self]
  case falls =>
    cases (hostTurn_decode_of_idle idle).symm.trans h
    exact irqLine_present built

end Sys2Proof.Machine
end

section
/-! The reset and hazards family (70_reset_and_hazards.md): the power-on values (R321), what a pass start forgets (R320, R332), and the
descriptor while a pass runs (R331). -/

namespace Sys2Proof.Machine

/-! ### Power-on -/

/-- Settles O17: the values are `State.reset`'s own, and in IDLE the engine's turn is a wait. -/
theorem powerOnResetValues : Obligations.PowerOnResetValues :=
  ⟨rfl, rfl, rfl, rfl, rfl, rfl, rfl, rfl, rfl, slotAt_initial, engineTurn_between_passes (.inl rfl)⟩

/-! ### The start of a pass -/

/-- The pass-start reset keeps the latched copy and the phase of the state it starts from, and overwrites all else that a pass writes but the
descriptor registers and the ports (R320). -/
theorem passStart_forgets {s s' : State} (m : Mode) (params : s.params = s'.params) (desc : s.desc = s'.desc) (ports : s.ports = s'.ports)
    (hostRead : s.hostRead = s'.hostRead) (turns : s.turns = s'.turns) :
    passStart m s = { passStart m s' with latched := s.latched, phase := s.phase } := by
  simp only [passStart, params, desc, ports, hostRead, turns]

/-- Settles O26: both commands overwrite the phase that the pass-start reset keeps, and ENCODE the latched copy too. -/
theorem passStartForgetsEarlierPasses : Obligations.PassStartForgetsEarlierPasses := by
  intro s s' idle idle' params desc ports hostRead turns
  have forgets (m : Mode) := passStart_forgets m params desc ports hostRead turns
  refine ⟨?encode, fun latched => ?decode⟩
  case encode => rw [hostTurn_encode_of_idle idle, hostTurn_encode_of_idle idle', startEncode_eq s, startEncode_eq s', forgets, desc]
  case decode => rw [hostTurn_decode_of_idle idle, hostTurn_decode_of_idle idle', startDecode, startDecode, forgets, latched]; rfl

/-! ### The descriptor while a pass runs -/

/-- From `s` to `t` the descriptor registers and the latched copy have kept their values. -/
structure KeepsDescriptor (s t : State) : Prop where
  latched : t.latched = s.latched
  desc    : t.desc = s.desc

theorem EmitFailure.keepsDescriptor {records : List Instr} {s t : State} (h : EmitFailure records s t) : KeepsDescriptor s t :=
  ⟨h.raisesOnly.latched, h.raisesOnly.desc⟩

theorem emitHeader_keepsDescriptor (s : State) : KeepsDescriptor s (emitHeader s) := by
  rcases emitHeader_cases s with completed | failed
  · rw [completed]; exact ⟨rfl, rfl⟩
  · exact failed.keepsDescriptor

theorem encodePixel_keepsDescriptor (px : Pixel) (s : State) : KeepsDescriptor s (encodePixel px s) := by
  rcases encodePixel_cases px s with completed | failed
  · rw [completed]; exact ⟨rfl, rfl⟩
  · obtain ⟨latched, desc⟩ := failed.keepsDescriptor
    exact ⟨latched, desc⟩

theorem emitTrailer_keepsDescriptor (s : State) : KeepsDescriptor s (emitTrailer s) := by
  rcases emitTrailer_cases s with completed | failed
  · rw [completed]; exact ⟨rfl, rfl⟩
  · exact failed.keepsDescriptor

theorem engineTurn_dBody_keepsDescriptor {s t : State} (hphase : s.phase = .dBody) (hpulls : s.ports.pulls ≠ 0)
    (hturn : engineTurn s = .next t) : KeepsDescriptor s t := by
  rcases engineTurn_dBody_cases hphase hpulls with ⟨c, why, k, raised⟩ | ⟨px, k, c, yielded⟩
  · cases raised.symm.trans hturn; exact ⟨rfl, rfl⟩
  · cases yielded.symm.trans hturn; exact ⟨yieldPixel_latched .., yieldPixel_desc ..⟩

theorem checkTrailer_keepsDescriptor {expected : List Byte} {s t : State} (h : checkTrailer expected s = .next t) :
    KeepsDescriptor s t := by
  obtain ⟨u, hu, ⟨k, c, why, -, rfl⟩ | ⟨k, -, rfl⟩ | rfl⟩ := checkTrailer_cases expected s <;> cases hu.symm.trans h <;> exact ⟨rfl, rfl⟩

/-- Header acceptance writes the registers a host reads, never the copy ENCODE latched (R146). -/
theorem decodeHeaderStep_latched {s t : State} (h : decodeHeaderStep s = .next t) : t.latched = s.latched := by
  obtain ⟨u, hu, ⟨k, c, why, -, rfl⟩ | ⟨c, rfl⟩ | ⟨w, l, c, sp, -, rfl⟩⟩ := decodeHeaderStep_cases s <;> cases hu.symm.trans h <;> rfl

/-- A turn of the engine is the step of D_HDR or keeps the descriptor (R331). -/
theorem engineTurn_dHdr_or_keepsDescriptor {s t : State} (hturn : engineTurn s = .next t) :
    (s.phase = .dHdr ∧ decodeHeaderStep s = .next t) ∨ KeepsDescriptor s t := by
  rcases engineTurn_cases hturn with rfl | ⟨-, rfl⟩ | ⟨-, px, rest, -, rfl⟩ | ⟨-, rfl⟩ | header | ⟨hphase, hpulls, -, -⟩ |
    ⟨hphase, hpulls, -, -⟩ | ⟨-, trailer⟩
  · exact .inr ⟨rfl, rfl⟩
  · exact .inr (emitHeader_keepsDescriptor s)
  · exact .inr (encodePixel_keepsDescriptor px s)
  · exact .inr (emitTrailer_keepsDescriptor s)
  · exact .inl header
  · exact .inr (engineTurn_dBody_keepsDescriptor hphase hpulls hturn)
  · exact .inr (engineTurn_dBody_keepsDescriptor hphase hpulls hturn)
  · exact .inr (checkTrailer_keepsDescriptor trailer)

/-- While BUSY a command is ABORT's effect or ignored (R263), and neither reaches the descriptor. -/
theorem command_keepsDescriptor {s : State} (running : busy s = true) (c : Command) : KeepsDescriptor s (command c s) := by
  rcases command_cases c s with aborted | ignored | ⟨idle, -⟩
  · rw [aborted]; exact ⟨rfl, rfl⟩
  · rw [ignored]; exact ⟨rfl, rfl⟩
  · rw [running] at idle; cases idle

theorem SurroundingsMove.keepsDescriptor {s t : State} (running : busy s = true) (h : SurroundingsMove s t) : KeepsDescriptor s t := by
  obtain ⟨d, p, r, ts, rfl, same | idle, -⟩ := h
  · exact ⟨rfl, same⟩
  · rw [running] at idle; cases idle

/-- A turn of any agent that starts in a pass keeps the latched copy, and outside D_HDR the registers too (R331). -/
theorem takeTurn_descriptor {turn : Turn} {s t : State} (running : busy s = true) (h : takeTurn turn s = .next t) :
    t.latched = s.latched ∧ (s.phase ≠ .dHdr → t.desc = s.desc) := by
  have keeps (kept : KeepsDescriptor s t) : t.latched = s.latched ∧ (s.phase ≠ .dHdr → t.desc = s.desc) :=
    ⟨kept.latched, fun _ => kept.desc⟩
  rcases takeTurn_cases h with ⟨-, hturn⟩ | ⟨op, c, -, -, rfl⟩ | moved
  · rcases engineTurn_dHdr_or_keepsDescriptor hturn with ⟨header, accepted⟩ | kept
    · exact ⟨decodeHeaderStep_latched accepted, fun notHeader => absurd header notHeader⟩
    · exact keeps kept
  · exact keeps (command_keepsDescriptor running c)
  · exact keeps (moved.keepsDescriptor running)

/-- Settles O27: a step is a turn; of all turns in a pass only D_HDR's own writes a descriptor register, and none the latched copy. -/
theorem descriptorIsStableWhileBusy : Obligations.DescriptorIsStableWhileBusy := by
  intro s t running hstep
  rw [step_eq_takeTurn] at hstep
  exact takeTurn_descriptor (s := { s with turns := s.turns.tail }) running hstep

end Sys2Proof.Machine
end
